-- ==== Sys2Proof/Word.lean ====
section
/-! DEFINITION. The word types of ED25519-CORE: what a byte, an instruction word, a register field, a
field element, a scalar and a point are. -/

namespace Sys2Proof

/-- One byte of DMEM (rule R72). -/
abbrev Byte := BitVec 8

/-- A 32-bit instruction word (R100) or host register (R41). -/
abbrev Word := BitVec 32

/-- A 16-bit value: the pc (R37), an address, an immediate or a branch target (R108). -/
abbrev Half := BitVec 16

/-- A 4-bit register field of an instruction word (R102, R103). -/
abbrev RegField := BitVec 4

/-- The content of a scalar register: 256 bits, not necessarily reduced mod L (R33, R170). -/
abbrev Scalar := BitVec 256

/-- The field prime p (R12). -/
def fieldPrime : Nat := 2 ^ 255 - 19

theorem fieldPrime_pos : 0 < fieldPrime := by decide

/-- The content of a field register: an integer in [0, p), the canonical residue (R32). The bound is
part of the type, so a value that is not canonical cannot be written down. -/
abbrev Fe := Fin fieldPrime

/-- The value of a point register: an affine pair (R34, R190). That the pair lies on the curve is the
machine's invariant (R191), stated in Safety.lean. -/
structure Point where
  x : Fe
  y : Fe
deriving DecidableEq, Repr

/-- Extended coordinates (X, Y, Z, T) with x = X/Z, y = Y/Z, xy = T/Z (R20, R35). Used inside scalar
multiplication only: no register holds one, because no instruction can observe it (R35). -/
structure ExtPoint where
  X : Fe
  Y : Fe
  Z : Fe
  T : Fe
deriving DecidableEq, Repr

end Sys2Proof
end

