-- ==== Sys2Proof/Config.lean ====
section
/-! DEFINITION. What an implementation fixes (rule R7), the hardware's constants (R12 to R18, R56), and the
free values: what the memories hold before the host writes them (R262), and the bus address BASE. -/

namespace Sys2Proof

/-- The size parameters of R7. They are fixed for one instance of the hardware. -/
structure Params where
  /-- IMEM_WORDS: the number of 32-bit words in IMEM. -/
  imemWords : Nat
  /-- DMEM_SIZE: the number of bytes in DMEM. -/
  dmemSize : Nat
deriving DecidableEq, Repr

/-- The legal ranges of R7. -/
abbrev Params.Legal (c : Params) : Prop :=
  1 ≤ c.imemWords ∧ c.imemWords ≤ 4096 ∧ c.dmemSize % 4 = 0 ∧ 64 ≤ c.dmemSize ∧ c.dmemSize ≤ 32768

/-- The default values of R7. -/
def Params.default : Params := { imemWords := 1024, dmemSize := 4096 }

/-- The group order L (R13). -/
def Config.groupOrder : Nat := 2 ^ 252 + 27742317777372353535851937790883648493

/-- The cofactor (R18). -/
def Config.cofactor : Nat := 8

/-- The curve constant d = -121665/121666 mod p (R14). -/
def Config.curveD : Fe :=
  ⟨0x52036cee2b6ffe738cc740797779e89800700a4d4141d8ab75eb4dca135978a3, by decide⟩

/-- The square root of -1 of R17. -/
def Config.sqrtM1 : Fe :=
  ⟨0x2b8324804fc1df0b2b4d00993dfbd7a72f431806ad2fe478c4ee1b274a0ea0b0, by decide⟩

/-- The identity O = (0, 1) (R15). -/
def Config.identity : Point := { x := ⟨0, by decide⟩, y := ⟨1, by decide⟩ }

/-- The base point B (R16). -/
def Config.basePoint : Point :=
  { x := ⟨0x216936d3cd6e53fec0a4e231fdd6dc5c692cc7609525a7b2c9562d608f25d51a, by decide⟩
    y := ⟨0x6666666666666666666666666666666666666666666666666666666666666658, by decide⟩ }

/-- The constant the ID register reads (R56). -/
def Config.idWord : Word := 0xED255190#32

/-- The bus address BASE of the register block (R7, R41): the platform's choice, OPEN in the spec, so a
constant nobody can evaluate. Log entry 4. -/
opaque Config.base : Nat

/-- FREE VALUE: the byte DMEM holds at an address the host has not written since reset (R262, item I1 of
93_implementation_defined.md: "a free draw, never as 0"). The first argument counts the resets, so that each
reset draws anew (I14). Log entry 1. -/
opaque Config.powerOnByte : Nat → Nat → Byte

/-- FREE VALUE: the word IMEM holds at an index the host has not written since reset (R262, I1). Arguments as
for `powerOnByte`. Log entry 1. -/
opaque Config.powerOnWord : Nat → Nat → Word

/-- The latency of each opcode but DSMULV's, in cycles less one (R7, R274): OPEN, so a constant nobody can evaluate. Its
argument is the opcode alone, which is R275. Log entry 13. -/
opaque Config.extraCycles : Nat → Nat

/-- The latency of DSMULV, in cycles less one: it may depend on its operands (R276). Log entry 13. -/
opaque Config.dsmulvExtraCycles : Scalar → Point → Scalar → Nat

end Sys2Proof
end

