-- ==== Sys2Proof/Machine/FieldArith.lean ====
section
/-! DEFINITION. The field unit: arithmetic mod p (41_field.md). Every result is the exact residue (R11, R141). -/

namespace Sys2Proof

/-- The canonical residue of an integer (R140). -/
def Fe.ofNat (n : Nat) : Fe := ⟨n % fieldPrime, Nat.mod_lt n fieldPrime_pos⟩

/-- `(a + b) mod p` (R145). -/
def Fe.add (a b : Fe) : Fe := Fe.ofNat (a.val + b.val)

/-- `(a - b) mod p` (R146), formed as a + (p - b) since the residues are natural numbers. -/
def Fe.sub (a b : Fe) : Fe := Fe.ofNat (a.val + (fieldPrime - b.val))

/-- `(p - a) mod p` (R192). -/
def Fe.neg (a : Fe) : Fe := Fe.ofNat (fieldPrime - a.val)

/-- `(a * b) mod p`, the full product reduced (R147). -/
def Fe.mul (a b : Fe) : Fe := Fe.ofNat (a.val * b.val)

/-- `a * a mod p` (R148). -/
def Fe.sqr (a : Fe) : Fe := Fe.ofNat (a.val * a.val)

/-- `a^e mod p` for an exponent of at most `n` bits, by squaring from the top bit down. -/
def Fe.powBits (a : Fe) : Nat → Nat → Fe
  | 0, _ => Fe.ofNat 1
  | n + 1, e =>
    if e = 0 then Fe.ofNat 1
    else
      let h := Fe.sqr (Fe.powBits a n (e / 2))
      if e % 2 = 1 then Fe.mul h a else h

/-- `a^e mod p`. -/
def Fe.pow (a : Fe) (e : Nat) : Fe := Fe.powBits a (e.log2 + 1) e

/-- `a^(p-2) mod p`: the inverse, and 0 for 0 (R149). -/
def Fe.inv (a : Fe) : Fe := Fe.pow a (fieldPrime - 2)

/-- The quotient of R192 and R151: `a * b^(p-2) mod p`. -/
def Fe.div (a b : Fe) : Fe := Fe.mul a (Fe.inv b)

/-- A field element is negative when it is odd (R150); this is the sign bit of R196. -/
def Fe.isOdd (a : Fe) : Bool := a.val % 2 = 1

/-- The non-negative one of r and p - r (R150). -/
def Fe.evenRoot (r : Fe) : Fe := if Fe.isOdd r then Fe.neg r else r

/-- A square root of w, when there is one, by the reference datapath of R151:
r0 = w^((p+3)/8), corrected by SQRT_M1 when r0^2 = -w. -/
def Fe.sqrt? (w : Fe) : Option Fe :=
  let r0 := Fe.pow w ((fieldPrime + 3) / 8)
  if Fe.sqr r0 = w then some r0
  else if Fe.sqr r0 = Fe.neg w then some (Fe.mul r0 Config.sqrtM1)
  else none

/-- `sqrt_ratio(u, v)` (R151): whether a root of u/v exists, and the even one; (u = 0, 0) when v = 0 and
(0, 0) when there is none. -/
def Fe.sqrtRatio (u v : Fe) : Bool × Fe :=
  if v = Fe.ofNat 0 then (decide (u = Fe.ofNat 0), Fe.ofNat 0)
  else
    match Fe.sqrt? (Fe.div u v) with
    | some s => (true, Fe.evenRoot s)
    | none => (false, Fe.ofNat 0)

end Sys2Proof
end

