-- ==== Sys2Proof/Syntax.lean ====
section
/-! DEFINITION. The instructions: one constructor per row of spec/opcode_table.json (rule R109), its operands in
the order of R116 (rd, ra, rb, rc, the unused fields left out), each with its assembly text. -/

namespace Sys2Proof

/-- An instruction. A register operand is the 4-bit field as encoded; which file it names is fixed by the
instruction (R102, R103), and a field naming an S or P register must be below 8 (R107, see WellFormed.lean). -/
inductive Instr where
  -- sequencing (40_control.md)
  | nop
  | halt
  | jmp (target : Half)
  | bcs (target : Half)
  | bcc (target : Half)
  -- field arithmetic (41_field.md): every register operand names an F register
  | fld (d : RegField) (addr : Half)
  | fst (a : RegField) (addr : Half)
  | fldi (d : RegField) (imm : Half)
  | fadd (d a b : RegField)
  | fsub (d a b : RegField)
  | fmul (d a b : RegField)
  | fsqr (d a : RegField)
  | finv (d a : RegField)
  | fsqrt (d u v : RegField)
  | fsel (d a b : RegField)
  | fcswap (a b : RegField)
  | feq (a b : RegField)
  -- scalar arithmetic (42_scalar.md): every register operand names an S register
  | sld (d : RegField) (addr : Half)
  | sldw (d : RegField) (addr : Half)
  | sst (a : RegField) (addr : Half)
  | sldi (d : RegField) (imm : Half)
  | smuladd (d a b c : RegField)
  | sclamp (d a : RegField)
  | schk (a : RegField)
  -- points (43_point.md): operands name P registers, but k, a and b of smul and dsmulv (S) and x and y of paff (F)
  | pld (d : RegField) (addr : Half)
  | pst (a : RegField) (addr : Half)
  | pident (d : RegField)
  | pbase (d : RegField)
  | padd (d a b : RegField)
  | pdbl (d a : RegField)
  | smul (d k a : RegField)
  | dsmulv (d a p b : RegField)
  | peq (a b : RegField)
  | psmall (a : RegField)
  | paff (x y a : RegField)
deriving DecidableEq, Repr

/-! The pseudo-instructions of R117 are other names of core instructions. -/

/-- `FMOV Fd, Fa` (R117). -/
def Instr.fmov (d a : RegField) : Instr := .fsel d a a

/-- `FCLR Fd` (R117). -/
def Instr.fclr (d : RegField) : Instr := .fldi d 0

/-- `SCLR Sd` (R117). -/
def Instr.sclr (d : RegField) : Instr := .sldi d 0

/-- `B label` (R117). -/
def Instr.b (target : Half) : Instr := .jmp target

/-- The mnemonic of spec/opcode_table.json. -/
def Instr.mnemonic : Instr → String
  | .nop => "NOP" | .halt => "HALT" | .jmp _ => "JMP" | .bcs _ => "BCS" | .bcc _ => "BCC"
  | .fld _ _ => "FLD" | .fst _ _ => "FST" | .fldi _ _ => "FLDI" | .fadd _ _ _ => "FADD" | .fsub _ _ _ => "FSUB"
  | .fmul _ _ _ => "FMUL" | .fsqr _ _ => "FSQR" | .finv _ _ => "FINV" | .fsqrt _ _ _ => "FSQRT"
  | .fsel _ _ _ => "FSEL" | .fcswap _ _ => "FCSWAP" | .feq _ _ => "FEQ"
  | .sld _ _ => "SLD" | .sldw _ _ => "SLDW" | .sst _ _ => "SST" | .sldi _ _ => "SLDI"
  | .smuladd _ _ _ _ => "SMULADD" | .sclamp _ _ => "SCLAMP" | .schk _ => "SCHK"
  | .pld _ _ => "PLD" | .pst _ _ => "PST" | .pident _ => "PIDENT" | .pbase _ => "PBASE" | .padd _ _ _ => "PADD"
  | .pdbl _ _ => "PDBL" | .smul _ _ _ => "SMUL" | .dsmulv _ _ _ _ => "DSMULV" | .peq _ _ => "PEQ"
  | .psmall _ => "PSMALL" | .paff _ _ _ => "PAFF"

/-- A register's name in assembly: the file's letter and the number in decimal (R115). -/
def regName (file : String) (r : RegField) : String := file ++ toString r.toNat

/-- Assembly text of an instruction: destination first, stores with the memory operand first (R115, R116). -/
def Instr.asm : Instr → String
  | .nop => "NOP"
  | .halt => "HALT"
  | .jmp t => "JMP " ++ toString t.toNat
  | .bcs t => "BCS " ++ toString t.toNat
  | .bcc t => "BCC " ++ toString t.toNat
  | .fld d addr => "FLD " ++ regName "F" d ++ ", [" ++ toString addr.toNat ++ "]"
  | .fst a addr => "FST [" ++ toString addr.toNat ++ "], " ++ regName "F" a
  | .fldi d imm => "FLDI " ++ regName "F" d ++ ", #" ++ toString imm.toNat
  | .fadd d a b => "FADD " ++ regName "F" d ++ ", " ++ regName "F" a ++ ", " ++ regName "F" b
  | .fsub d a b => "FSUB " ++ regName "F" d ++ ", " ++ regName "F" a ++ ", " ++ regName "F" b
  | .fmul d a b => "FMUL " ++ regName "F" d ++ ", " ++ regName "F" a ++ ", " ++ regName "F" b
  | .fsqr d a => "FSQR " ++ regName "F" d ++ ", " ++ regName "F" a
  | .finv d a => "FINV " ++ regName "F" d ++ ", " ++ regName "F" a
  | .fsqrt d u v => "FSQRT " ++ regName "F" d ++ ", " ++ regName "F" u ++ ", " ++ regName "F" v
  | .fsel d a b => "FSEL " ++ regName "F" d ++ ", " ++ regName "F" a ++ ", " ++ regName "F" b
  | .fcswap a b => "FCSWAP " ++ regName "F" a ++ ", " ++ regName "F" b
  | .feq a b => "FEQ " ++ regName "F" a ++ ", " ++ regName "F" b
  | .sld d addr => "SLD " ++ regName "S" d ++ ", [" ++ toString addr.toNat ++ "]"
  | .sldw d addr => "SLDW " ++ regName "S" d ++ ", [" ++ toString addr.toNat ++ "]"
  | .sst a addr => "SST [" ++ toString addr.toNat ++ "], " ++ regName "S" a
  | .sldi d imm => "SLDI " ++ regName "S" d ++ ", #" ++ toString imm.toNat
  | .smuladd d a b c =>
    "SMULADD " ++ regName "S" d ++ ", " ++ regName "S" a ++ ", " ++ regName "S" b ++ ", " ++ regName "S" c
  | .sclamp d a => "SCLAMP " ++ regName "S" d ++ ", " ++ regName "S" a
  | .schk a => "SCHK " ++ regName "S" a
  | .pld d addr => "PLD " ++ regName "P" d ++ ", [" ++ toString addr.toNat ++ "]"
  | .pst a addr => "PST [" ++ toString addr.toNat ++ "], " ++ regName "P" a
  | .pident d => "PIDENT " ++ regName "P" d
  | .pbase d => "PBASE " ++ regName "P" d
  | .padd d a b => "PADD " ++ regName "P" d ++ ", " ++ regName "P" a ++ ", " ++ regName "P" b
  | .pdbl d a => "PDBL " ++ regName "P" d ++ ", " ++ regName "P" a
  | .smul d k a => "SMUL " ++ regName "P" d ++ ", " ++ regName "S" k ++ ", " ++ regName "P" a
  | .dsmulv d a p b =>
    "DSMULV " ++ regName "P" d ++ ", " ++ regName "S" a ++ ", " ++ regName "P" p ++ ", " ++ regName "S" b
  | .peq a b => "PEQ " ++ regName "P" a ++ ", " ++ regName "P" b
  | .psmall a => "PSMALL " ++ regName "P" a
  | .paff x y a => "PAFF " ++ regName "F" x ++ ", " ++ regName "F" y ++ ", " ++ regName "P" a

/-- The DMEM operand of an M-format instruction: its address and its width in bytes (R73). -/
def Instr.dmemOperand : Instr → Option (Half × Nat)
  | .fld _ addr | .fst _ addr => some (addr, 32)
  | .sld _ addr | .sst _ addr => some (addr, 32)
  | .sldw _ addr => some (addr, 64)
  | .pld _ addr | .pst _ addr => some (addr, 32)
  | .nop | .halt | .jmp _ | .bcs _ | .bcc _ => none
  | .fldi _ _ | .fadd _ _ _ | .fsub _ _ _ | .fmul _ _ _ | .fsqr _ _ | .finv _ _ => none
  | .fsqrt _ _ _ | .fsel _ _ _ | .fcswap _ _ | .feq _ _ => none
  | .sldi _ _ | .smuladd _ _ _ _ | .sclamp _ _ | .schk _ => none
  | .pident _ | .pbase _ | .padd _ _ _ | .pdbl _ _ | .smul _ _ _ | .dsmulv _ _ _ _ => none
  | .peq _ _ | .psmall _ | .paff _ _ _ => none

/-- The target of a J-format instruction (R105). -/
def Instr.branchTarget : Instr → Option Half
  | .jmp t | .bcs t | .bcc t => some t
  | .nop | .halt => none
  | .fld _ _ | .fst _ _ | .fldi _ _ | .fadd _ _ _ | .fsub _ _ _ | .fmul _ _ _ | .fsqr _ _ | .finv _ _ => none
  | .fsqrt _ _ _ | .fsel _ _ _ | .fcswap _ _ | .feq _ _ => none
  | .sld _ _ | .sldw _ _ | .sst _ _ | .sldi _ _ | .smuladd _ _ _ _ | .sclamp _ _ | .schk _ => none
  | .pld _ _ | .pst _ _ | .pident _ | .pbase _ | .padd _ _ _ | .pdbl _ _ | .smul _ _ _ | .dsmulv _ _ _ _ => none
  | .peq _ _ | .psmall _ | .paff _ _ _ => none

/-- The six instructions that write CF (R36). -/
def Instr.writesCf : Instr → Bool
  | .fsqrt _ _ _ | .feq _ _ | .schk _ | .pld _ _ | .peq _ _ | .psmall _ => true
  | .nop | .halt | .jmp _ | .bcs _ | .bcc _ => false
  | .fld _ _ | .fst _ _ | .fldi _ _ | .fadd _ _ _ | .fsub _ _ _ | .fmul _ _ _ | .fsqr _ _ | .finv _ _ => false
  | .fsel _ _ _ | .fcswap _ _ => false
  | .sld _ _ | .sldw _ _ | .sst _ _ | .sldi _ _ | .smuladd _ _ _ _ | .sclamp _ _ => false
  | .pst _ _ | .pident _ | .pbase _ | .padd _ _ _ | .pdbl _ _ | .smul _ _ _ | .dsmulv _ _ _ _ | .paff _ _ _ => false

end Sys2Proof
end

