-- ==== Sys2Proof/WellFormed.lean ====
section
/-! DEFINITION. Which instruction terms are instructions: a field naming an S or P register has bit 3 = 0 (rule
R107). Every other operand of `Instr` fills its field exactly, so no other check is left (R108). -/

namespace Sys2Proof

/-- A field that names an S or P register holds 0 to 7 (R107). -/
def lowReg (r : RegField) : Bool := r.toNat < 8

/-- Every S and P field of the instruction passes `lowReg`. An F field may hold 0 to 15. -/
def Instr.wellFormed : Instr → Bool
  | .nop | .halt => true
  | .jmp _ | .bcs _ | .bcc _ => true
  | .fld _ _ | .fst _ _ | .fldi _ _ => true
  | .fadd _ _ _ | .fsub _ _ _ | .fmul _ _ _ => true
  | .fsqr _ _ | .finv _ _ => true
  | .fsqrt _ _ _ | .fsel _ _ _ => true
  | .fcswap _ _ | .feq _ _ => true
  | .sld d _ | .sldw d _ | .sldi d _ => lowReg d
  | .sst a _ => lowReg a
  | .smuladd d a b c => lowReg d && lowReg a && lowReg b && lowReg c
  | .sclamp d a => lowReg d && lowReg a
  | .schk a => lowReg a
  | .pld d _ => lowReg d
  | .pst a _ => lowReg a
  | .pident d | .pbase d => lowReg d
  | .padd d a b => lowReg d && lowReg a && lowReg b
  | .pdbl d a => lowReg d && lowReg a
  | .smul d k a => lowReg d && lowReg k && lowReg a
  | .dsmulv d a p b => lowReg d && lowReg a && lowReg p && lowReg b
  | .peq a b => lowReg a && lowReg b
  | .psmall a => lowReg a
  | .paff _ _ a => lowReg a

end Sys2Proof
end

