-- ==== Sys2Proof/Decode.lean ====
section
/-! DEFINITION. The decoder (rules R100 to R114), total on every 32-bit word, the opcode map of R109 as a list of
rows, and the encoder written from the same layouts. -/

namespace Sys2Proof

/-- The field of `n` bits of `w` whose lowest bit is bit `lo`: w[lo+n-1:lo] (R8). -/
def bitsAt (w : Word) (lo n : Nat) : BitVec n := w.extractLsb' lo n

/-- The opcode, w[31:26] (R101). -/
def opcodeField (w : Word) : Nat := (bitsAt w 26 6).toNat

/-- rd, and r of the M and I formats: w[25:22] (R102, R103, R104). -/
def rdField (w : Word) : RegField := bitsAt w 22 4

/-- ra: w[21:18] (R102). -/
def raField (w : Word) : RegField := bitsAt w 18 4

/-- rb: w[17:14] (R102). -/
def rbField (w : Word) : RegField := bitsAt w 14 4

/-- rc: w[13:10] (R102). -/
def rcField (w : Word) : RegField := bitsAt w 10 4

/-- addr, imm and target: w[15:0] (R103, R104, R105). -/
def lowHalf (w : Word) : Half := bitsAt w 0 16

/-- N format: bits 25:0 are zero (R106). -/
def formatN (w : Word) (i : Instr) : Option Instr :=
  if bitsAt w 0 26 = 0 then some i else none

/-- J format: bits 25:16 are zero (R105). -/
def formatJ (w : Word) (mk : Half → Instr) : Option Instr :=
  if bitsAt w 16 10 = 0 then some (mk (lowHalf w)) else none

/-- M and I formats: bits 21:16 are zero (R103, R104). -/
def formatMI (w : Word) (mk : RegField → Half → Instr) : Option Instr :=
  if bitsAt w 16 6 = 0 then some (mk (rdField w) (lowHalf w)) else none

/-- R format with all four register fields: bits 9:0 are zero (R102). -/
def formatR4 (w : Word) (mk : RegField → RegField → RegField → RegField → Instr) : Option Instr :=
  if bitsAt w 0 10 = 0 then some (mk (rdField w) (raField w) (rbField w) (rcField w)) else none

/-- R format with rc unused, so bits 13:0 are zero (R102, R112). -/
def formatR3 (w : Word) (mk : RegField → RegField → RegField → Instr) : Option Instr :=
  if bitsAt w 0 14 = 0 then some (mk (rdField w) (raField w) (rbField w)) else none

/-- R format with rb and rc unused, so bits 17:0 are zero (R102, R112). -/
def formatR2 (w : Word) (mk : RegField → RegField → Instr) : Option Instr :=
  if bitsAt w 0 18 = 0 then some (mk (rdField w) (raField w)) else none

/-- R format with rd only, so bits 21:0 are zero (R102, R112). -/
def formatR1 (w : Word) (mk : RegField → Instr) : Option Instr :=
  if bitsAt w 0 22 = 0 then some (mk (rdField w)) else none

/-- R format with ra and rb only: rd and rc are unused (R102, R112). -/
def formatAB (w : Word) (mk : RegField → RegField → Instr) : Option Instr :=
  if rdField w = 0 ∧ bitsAt w 0 14 = 0 then some (mk (raField w) (rbField w)) else none

/-- R format with ra only: rd, rb and rc are unused (R102, R112). -/
def formatA (w : Word) (mk : RegField → Instr) : Option Instr :=
  if rdField w = 0 ∧ bitsAt w 0 18 = 0 then some (mk (raField w)) else none

/-- The opcode selects the format and the instruction (R101, R109); an opcode that is not in the map is illegal
(R110, condition 1), and so is a nonzero reserved bit or unused field (conditions 2 and 3). -/
def decodeFormat (w : Word) : Option Instr :=
  match opcodeField w with
  | 0x01 => formatN w .nop
  | 0x02 => formatN w .halt
  | 0x03 => formatJ w .jmp
  | 0x04 => formatJ w .bcs
  | 0x05 => formatJ w .bcc
  | 0x08 => formatMI w .fld
  | 0x09 => formatMI w .fst
  | 0x0A => formatMI w .fldi
  | 0x0B => formatR3 w .fadd
  | 0x0C => formatR3 w .fsub
  | 0x0D => formatR3 w .fmul
  | 0x0E => formatR2 w .fsqr
  | 0x0F => formatR2 w .finv
  | 0x10 => formatR3 w .fsqrt
  | 0x11 => formatR3 w .fsel
  | 0x12 => formatAB w .fcswap
  | 0x13 => formatAB w .feq
  | 0x18 => formatMI w .sld
  | 0x19 => formatMI w .sldw
  | 0x1A => formatMI w .sst
  | 0x1B => formatMI w .sldi
  | 0x1C => formatR4 w .smuladd
  | 0x1D => formatR2 w .sclamp
  | 0x1E => formatA w .schk
  | 0x20 => formatMI w .pld
  | 0x21 => formatMI w .pst
  | 0x22 => formatR1 w .pident
  | 0x23 => formatR1 w .pbase
  | 0x24 => formatR3 w .padd
  | 0x25 => formatR2 w .pdbl
  | 0x26 => formatR3 w .smul
  | 0x27 => formatR4 w .dsmulv
  | 0x28 => formatAB w .peq
  | 0x29 => formatA w .psmall
  | 0x2A => formatR3 w .paff
  | _ => none

/-- The decoder of R114: one instruction, or none for an illegal word. Condition 4 of R110 (a field naming an S or
P register with bit 3 = 1) is `wellFormed`. -/
def decode (w : Word) : Option Instr :=
  (decodeFormat w).filter Instr.wellFormed

/-- One row of the opcode map (R109). -/
structure OpcodeRow where
  mnemonic : String
  opcode : Nat
  pattern : Word
  mask : Word
deriving DecidableEq, Repr

/-- The opcode map of R109, row by row: mnemonic, opcode, match and mask. -/
def opcodeRows : List OpcodeRow :=
  [ ⟨"NOP", 0x01, 0x04000000, 0xFFFFFFFF⟩, ⟨"HALT", 0x02, 0x08000000, 0xFFFFFFFF⟩,
    ⟨"JMP", 0x03, 0x0C000000, 0xFFFF0000⟩, ⟨"BCS", 0x04, 0x10000000, 0xFFFF0000⟩,
    ⟨"BCC", 0x05, 0x14000000, 0xFFFF0000⟩ ] ++
  [ ⟨"FLD", 0x08, 0x20000000, 0xFC3F0000⟩, ⟨"FST", 0x09, 0x24000000, 0xFC3F0000⟩,
    ⟨"FLDI", 0x0A, 0x28000000, 0xFC3F0000⟩, ⟨"FADD", 0x0B, 0x2C000000, 0xFC003FFF⟩,
    ⟨"FSUB", 0x0C, 0x30000000, 0xFC003FFF⟩, ⟨"FMUL", 0x0D, 0x34000000, 0xFC003FFF⟩,
    ⟨"FSQR", 0x0E, 0x38000000, 0xFC03FFFF⟩, ⟨"FINV", 0x0F, 0x3C000000, 0xFC03FFFF⟩,
    ⟨"FSQRT", 0x10, 0x40000000, 0xFC003FFF⟩, ⟨"FSEL", 0x11, 0x44000000, 0xFC003FFF⟩,
    ⟨"FCSWAP", 0x12, 0x48000000, 0xFFC03FFF⟩, ⟨"FEQ", 0x13, 0x4C000000, 0xFFC03FFF⟩ ] ++
  [ ⟨"SLD", 0x18, 0x60000000, 0xFE3F0000⟩, ⟨"SLDW", 0x19, 0x64000000, 0xFE3F0000⟩,
    ⟨"SST", 0x1A, 0x68000000, 0xFE3F0000⟩, ⟨"SLDI", 0x1B, 0x6C000000, 0xFE3F0000⟩,
    ⟨"SMULADD", 0x1C, 0x70000000, 0xFE2223FF⟩, ⟨"SCLAMP", 0x1D, 0x74000000, 0xFE23FFFF⟩,
    ⟨"SCHK", 0x1E, 0x78000000, 0xFFE3FFFF⟩ ] ++
  [ ⟨"PLD", 0x20, 0x80000000, 0xFE3F0000⟩, ⟨"PST", 0x21, 0x84000000, 0xFE3F0000⟩,
    ⟨"PIDENT", 0x22, 0x88000000, 0xFE3FFFFF⟩, ⟨"PBASE", 0x23, 0x8C000000, 0xFE3FFFFF⟩,
    ⟨"PADD", 0x24, 0x90000000, 0xFE223FFF⟩, ⟨"PDBL", 0x25, 0x94000000, 0xFE23FFFF⟩,
    ⟨"SMUL", 0x26, 0x98000000, 0xFE223FFF⟩, ⟨"DSMULV", 0x27, 0x9C000000, 0xFE2223FF⟩,
    ⟨"PEQ", 0x28, 0xA0000000, 0xFFE23FFF⟩, ⟨"PSMALL", 0x29, 0xA4000000, 0xFFE3FFFF⟩,
    ⟨"PAFF", 0x2A, 0xA8000000, 0xFC023FFF⟩ ]

/-- A word matches a row when `(word AND mask) == match` (30_encoding.md, R114). -/
abbrev OpcodeRow.Matches (r : OpcodeRow) (w : Word) : Prop := w &&& r.mask = r.pattern

/-- N and J formats: the opcode over a 16-bit field (R101, R105, R106). -/
def packJ (op : Nat) (t : Half) : Word := BitVec.ofNat 32 (op * 2 ^ 26 + t.toNat)

/-- M and I formats (R101, R103, R104). -/
def packMI (op : Nat) (r : RegField) (v : Half) : Word :=
  BitVec.ofNat 32 (op * 2 ^ 26 + r.toNat * 2 ^ 22 + v.toNat)

/-- R format (R101, R102); an unused field is packed as 0 (R112). -/
def packR (op : Nat) (rd ra rb rc : RegField) : Word :=
  BitVec.ofNat 32 (op * 2 ^ 26 + rd.toNat * 2 ^ 22 + ra.toNat * 2 ^ 18 + rb.toNat * 2 ^ 14 + rc.toNat * 2 ^ 10)

/-- The word of an instruction, from the opcode map and the formats (R101, R109, R116). -/
def encode : Instr → Word
  | .nop => packJ 0x01 0
  | .halt => packJ 0x02 0
  | .jmp t => packJ 0x03 t
  | .bcs t => packJ 0x04 t
  | .bcc t => packJ 0x05 t
  | .fld d addr => packMI 0x08 d addr
  | .fst a addr => packMI 0x09 a addr
  | .fldi d imm => packMI 0x0A d imm
  | .fadd d a b => packR 0x0B d a b 0
  | .fsub d a b => packR 0x0C d a b 0
  | .fmul d a b => packR 0x0D d a b 0
  | .fsqr d a => packR 0x0E d a 0 0
  | .finv d a => packR 0x0F d a 0 0
  | .fsqrt d u v => packR 0x10 d u v 0
  | .fsel d a b => packR 0x11 d a b 0
  | .fcswap a b => packR 0x12 0 a b 0
  | .feq a b => packR 0x13 0 a b 0
  | .sld d addr => packMI 0x18 d addr
  | .sldw d addr => packMI 0x19 d addr
  | .sst a addr => packMI 0x1A a addr
  | .sldi d imm => packMI 0x1B d imm
  | .smuladd d a b c => packR 0x1C d a b c
  | .sclamp d a => packR 0x1D d a 0 0
  | .schk a => packR 0x1E 0 a 0 0
  | .pld d addr => packMI 0x20 d addr
  | .pst a addr => packMI 0x21 a addr
  | .pident d => packR 0x22 d 0 0 0
  | .pbase d => packR 0x23 d 0 0 0
  | .padd d a b => packR 0x24 d a b 0
  | .pdbl d a => packR 0x25 d a 0 0
  | .smul d k a => packR 0x26 d k a 0
  | .dsmulv d a p b => packR 0x27 d a p b
  | .peq a b => packR 0x28 0 a b 0
  | .psmall a => packR 0x29 0 a 0 0
  | .paff x y a => packR 0x2A x y a 0

/-- The instruction word whose low `nbits` bits are those of `w` and whose other bits are 0. An instruction is one
32-bit word (R100), and IMEM holds it as a 32-bit value, so no byte order enters (R79). -/
def tableWord (nbits w : Nat) : Word := BitVec.ofNat 32 (w % 2 ^ nbits)

/-- What the decoder reads from an instruction given by the bits of the opcode table's row. -/
def decodeTableWord (nbits w : Nat) : Option Instr := decode (tableWord nbits w)

end Sys2Proof
end

