-- ==== Sys2Proof/Machine/Bytes.lean ====
section
/-! DEFINITION. Little-endian byte strings (rules R9 and R76). -/

namespace Sys2Proof.Machine

/-- `LE(b)`: the integer a byte string denotes, its first byte least significant (R9). -/
def leNat : List Byte → Nat
  | [] => 0
  | b :: bs => b.toNat + 256 * leNat bs

/-- `toLE_n(v)`: the n-byte string of v (R9). -/
def toLE : Nat → Nat → List Byte
  | 0, _ => []
  | n + 1, v => BitVec.ofNat 8 v :: toLE n (v / 256)

end Sys2Proof.Machine
end

