-- ==== Sys2Proof/Machine/State.lean ====
section
/-! DEFINITION. The machine's state (10_state.md, rule R64), the reasons a step can stop, and the state after
reset (R261). -/

namespace Sys2Proof.Machine

/-- Reasons for which the model stops with a fault: none. Every fault of the spec (R233) is a stop of the RUN, whose
effects the spec describes (R232), so it is a next state (`faultEntry` in Machine/Ops.lean), and no behaviour of the
core is called undefined (R110, R240; 93_implementation_defined.md lists none). Safe: nothing stops here that the
hardware would carry on with. -/
inductive Fault where
deriving DecidableEq, Repr

/-- Reasons for which the model gives no meaning. -/
inductive Refusal where
  /-- Raised by an arm of `exec` for an instruction that has no meaning yet. Safe. No arm raises it. -/
  | notModelled (mnemonic : String)
  /-- Raised by a host access that is not a 32-bit access at a multiple of 4 (R83: "The spec gives no meaning to a
  host access of any other width or alignment, and a model refuses it"). Safe. -/
  | hostAccessForm
deriving DecidableEq, Repr

/-- The run state (R39). -/
inductive RunState where
  | idle
  | busy
deriving DecidableEq, Repr

/-- The cause of the last fault or abort (R233). Codes 5 to 15 are never written (I10), so they have no
constructor. -/
inductive Cause where
  | none
  | illegal
  | dmemRange
  | imemRange
  | aborted
deriving DecidableEq, Repr

/-- What the outside world does in one step (R30: the host's accesses are steps of their own, interleaved between
core steps). -/
inductive HostEvent where
  /-- The host leaves this step to the core. -/
  | coreTurn
  /-- A host read of `bytes` bytes at byte `offset` of the register block's 64 KiB window (R41). -/
  | read (offset : Half) (bytes : Nat)
  /-- A host write of `data`, `bytes` bytes wide, at byte `offset` of the window (R41). -/
  | write (offset : Half) (bytes : Nat) (data : Word)
  /-- The platform asserts reset (R260). -/
  | reset
deriving DecidableEq, Repr

/-- Everything the spec gives the machine (R64), and three fields of the model's own (log entries 1, 2 and 3). -/
structure State where
  /-- F0 to F15 (R31). -/
  fregs : Vector Fe 16
  /-- S0 to S7 (R33). -/
  sregs : Vector Scalar 8
  /-- P0 to P7, as affine points (R34, R35). -/
  pregs : Vector Point 8
  /-- CF (R36). -/
  cf : Bool
  /-- pc, and the PC register (R37, R55). -/
  pc : Half
  /-- Run state (R39); STATUS.BUSY shows it. -/
  run : RunState
  /-- CTRL.IRQEN (R50). -/
  irqEn : Bool
  /-- CTRL.SOREJ (R51). -/
  soRej : Bool
  /-- STATUS.DONE (R52). -/
  done : Bool
  /-- STATUS.ERR (R52). -/
  err : Bool
  /-- STATUS.HERR (R54). -/
  herr : Bool
  /-- STATUS.CAUSE (R233). -/
  cause : Cause
  /-- FAULTPC (R59). -/
  faultPc : Half
  /-- FAULTINSN (R60). -/
  faultInsn : Word
  /-- RETIRED (R61). -/
  retired : Word
  /-- IMEM (R71): the words the host has written since reset, by word index, strictly rising. -/
  imem : List (Nat × Word)
  /-- DMEM (R72): the bytes written since reset, by byte address, strictly rising. -/
  dmem : List Host.Cell
  /-- IMEM_WORDS and DMEM_SIZE, read through IMEMWORDS and DMEMSIZE (R57, R58). No step changes them. -/
  params : Params
  /-- The model's own: how many resets there have been. It picks the free draw of R262. -/
  epoch : Nat
  /-- The model's own: what the host does in the steps to come. An empty list leaves every step to the core. -/
  inputs : List HostEvent
  /-- The model's own: the data of the last host read, as the host received it. -/
  readData : Option Word
deriving DecidableEq, Repr

/-- The state after the `epoch`-th reset of hardware with these parameters: every field at the value of R64 and R261,
and no memory location written (R262). -/
def State.afterReset (c : Params) (epoch : Nat) : State where
  fregs := Vector.replicate 16 ⟨0, fieldPrime_pos⟩
  sregs := Vector.replicate 8 0
  pregs := Vector.replicate 8 Config.identity
  cf := false
  pc := 0
  run := .idle
  irqEn := false
  soRej := false
  done := false
  err := false
  herr := false
  cause := .none
  faultPc := 0
  faultInsn := 0
  retired := 0
  imem := []
  dmem := []
  params := c
  epoch := epoch
  inputs := []
  readData := none

/-- The machine right after power-on reset, with the default parameters of R7 (R261, R263). -/
def State.reset : State := State.afterReset Params.default 0

end Sys2Proof.Machine
end

