-- ==== Sys2Proof/Machine/Ops.lean ====
section
/-! DEFINITION. The shared operations: memory cells, DMEM and IMEM, the register files, completing an instruction,
entering a fault, starting and ending a run. -/

namespace Sys2Proof.Machine

/-- What every meaning answers. -/
abbrev Result := Host.Outcome State Fault Refusal

/-! Memory as a list of cells, the addresses strictly rising. -/

/-- Cells in canonical form: the addresses rise strictly. An unlisted address holds nothing written since reset, so
no entry can equal what an unlisted address holds (log entry 1). -/
abbrev Memory.wf {α : Type} (cells : List (Nat × α)) : Prop := cells.Pairwise (fun a b => a.1 < b.1)

/-- What was last written at an address, or none. -/
def cellAt {α : Type} : List (Nat × α) → Nat → Option α
  | [], _ => none
  | (k, v) :: rest, a => if k = a then some v else cellAt rest a

/-- Write one cell, keeping the addresses rising. -/
def setCell {α : Type} : List (Nat × α) → Nat → α → List (Nat × α)
  | [], a, v => [(a, v)]
  | (k, w) :: rest, a, v =>
    if a < k then (a, v) :: (k, w) :: rest
    else if a = k then (a, v) :: rest
    else (k, w) :: setCell rest a v

/-- Write a byte string from address `a` upward. -/
def setCells : List Host.Cell → Nat → List Byte → List Host.Cell
  | cells, _, [] => cells
  | cells, a, b :: bs => setCells (setCell cells a b) (a + 1) bs

/-! DMEM and IMEM. -/

/-- The byte at a DMEM address: the last one written, or the free draw of R262. -/
def State.dmemByte (s : State) (a : Nat) : Byte :=
  (cellAt s.dmem a).getD (Config.powerOnByte s.epoch a)

/-- The word at an IMEM index: the last one written, or the free draw of R262. -/
def State.imemWord (s : State) (i : Nat) : Word :=
  (cellAt s.imem i).getD (Config.powerOnWord s.epoch i)

/-- `MemRead(addr, n)`: the bytes DMEM[addr .. addr+n-1] (R10). The range check comes first (R74). -/
def State.memRead (s : State) (addr n : Nat) : List Byte :=
  (List.range n).map fun i => s.dmemByte (addr + i)

/-- `MemWrite(addr, n, b)` (R10). The range check comes first (R74). -/
def State.memWrite (s : State) (addr : Nat) (b : List Byte) : State :=
  { s with dmem := setCells s.dmem addr b }

/-- Write one IMEM word; only the host does (R71). -/
def State.setImem (s : State) (i : Nat) (w : Word) : State :=
  { s with imem := setCell s.imem i w }

/-- IMEM[pc], the word of the instruction executing (R130, R232). -/
def State.fetchWord (s : State) : Word := s.imemWord s.pc.toNat

/-! Register files (R10). A field naming an S or P register is below 8 in every instruction that reaches its effect
(`whenLegal`), so taking its low three bits changes nothing. -/

/-- `F[r]` (R31). -/
def State.readF (s : State) (r : RegField) : Fe := s.fregs[r.toNat]'(r.isLt)

/-- `F[r] <- v` (R31). -/
def State.writeF (s : State) (r : RegField) (v : Fe) : State :=
  { s with fregs := s.fregs.set r.toNat v r.isLt }

/-- `S[r]` (R33). -/
def State.readS (s : State) (r : RegField) : Scalar :=
  s.sregs[r.toNat % 8]'(Nat.mod_lt _ (by decide))

/-- `S[r] <- v` (R33). -/
def State.writeS (s : State) (r : RegField) (v : Scalar) : State :=
  { s with sregs := s.sregs.set (r.toNat % 8) v (Nat.mod_lt _ (by decide)) }

/-- `P[r]` (R34). -/
def State.readP (s : State) (r : RegField) : Point :=
  s.pregs[r.toNat % 8]'(Nat.mod_lt _ (by decide))

/-- `P[r] <- v` (R34). -/
def State.writeP (s : State) (r : RegField) (v : Point) : State :=
  { s with pregs := s.pregs.set (r.toNat % 8) v (Nat.mod_lt _ (by decide)) }

/-- `CF <- b` (R36). -/
def State.setCf (s : State) (b : Bool) : State := { s with cf := b }

/-! Completing an instruction, and faults. -/

/-- RETIRED counts a completed instruction, mod 2^32 (R61). -/
def State.count (s : State) : State := { s with retired := s.retired + 1 }

/-- An instruction that completes and does not branch: next pc = pc + 1 (R10, R38), RETIRED counts it. -/
def State.complete (s : State) : State := { s.count with pc := s.pc + 1 }

/-- A taken branch: `pc <- target` (R38), RETIRED counts it. -/
def State.completeAt (s : State) (target : Half) : State := { s.count with pc := target }

/-- TAKING AN EXCEPTION: the fault entry of R232 and the abort of R237. ERR is set, CAUSE, FAULTPC and FAULTINSN are
recorded, the core goes IDLE, and pc and everything else keep their values. -/
def State.faultEntry (s : State) (c : Cause) (insn : Word) : State :=
  { s with err := true, cause := c, faultPc := s.pc, faultInsn := insn, run := .idle }

/-- A fault of the instruction at pc: FAULTINSN holds its word (R232). -/
def State.raise (s : State) (c : Cause) : State := s.faultEntry c s.fetchWord

/-- A fetch at pc >= IMEM_WORDS: FAULTINSN holds 0 (R232, R236). -/
def State.raiseFetch (s : State) : State := s.faultEntry .imemRange 0

/-- A host ABORT while BUSY: FAULTPC is the first instruction not executed, FAULTINSN is 0 (R237). -/
def State.abort (s : State) : State := s.faultEntry .aborted 0

/-- THE RETURN: there is no return instruction (R241). The host's START begins a new run, in this order: DONE, ERR,
CAUSE and RETIRED are cleared and the core goes BUSY (R44). It restores nothing. -/
def State.startRun (s : State) : State :=
  { s with done := false, err := false, cause := .none, retired := 0, run := .busy }

/-- HALT: DONE is set and the core goes IDLE; pc keeps the HALT's index, and RETIRED counts it (R131). -/
def State.halt (s : State) : State := { s.count with done := true, run := .idle }

/-- The effect of an instruction, unless a field naming an S or P register is above 7: then the word is illegal and
executing it raises ILLEGAL (R107, R110, R234). The decoder yields no such instruction. -/
def whenLegal (i : Instr) (s : State) (next : State) : Result :=
  if i.wellFormed then .next next else .next (s.raise .illegal)

end Sys2Proof.Machine
end

