-- ==== Sys2Proof/Machine/PointArith.lean ====
section
/-! DEFINITION. The point unit: the group law, scalar multiplication, compression and decompression
(43_point.md). -/

namespace Sys2Proof

/-- The curve equation of E: -x^2 + y^2 = 1 + d x^2 y^2 (R14). -/
abbrev Point.OnCurve (q : Point) : Prop :=
  Fe.sub (Fe.sqr q.y) (Fe.sqr q.x)
    = Fe.add (Fe.ofNat 1) (Fe.mul Config.curveD (Fe.mul (Fe.sqr q.x) (Fe.sqr q.y)))

/-- The group law of R192, on affine points. -/
def Point.add (a b : Point) : Point :=
  let t := Fe.mul Config.curveD (Fe.mul (Fe.mul a.x b.x) (Fe.mul a.y b.y))
  { x := Fe.div (Fe.add (Fe.mul a.x b.y) (Fe.mul a.y b.x)) (Fe.add (Fe.ofNat 1) t)
    y := Fe.div (Fe.add (Fe.mul a.y b.y) (Fe.mul a.x b.x)) (Fe.sub (Fe.ofNat 1) t) }

/-- `P + P` (R204). -/
def Point.double (a : Point) : Point := Point.add a a

/-- The negation of (x, y) is (-x, y) (R192). -/
def Point.neg (a : Point) : Point := { a with x := Fe.neg a.x }

/-- The representative of an affine point with Z = 1 (R35). -/
def ExtPoint.ofPoint (q : Point) : ExtPoint :=
  { X := q.x, Y := q.y, Z := Fe.ofNat 1, T := Fe.mul q.x q.y }

/-- The identity "(0, 1, 1, 0)" (R15). -/
def ExtPoint.identity : ExtPoint := ExtPoint.ofPoint Config.identity

/-- The affine point a quadruple represents: x = X/Z, y = Y/Z (R35). -/
def ExtPoint.toPoint (e : ExtPoint) : Point :=
  let zi := Fe.inv e.Z
  { x := Fe.mul e.X zi, y := Fe.mul e.Y zi }

/-- The adder datapath of R193. -/
def ExtPoint.add (a b : ExtPoint) : ExtPoint :=
  let A := Fe.mul (Fe.sub a.Y a.X) (Fe.sub b.Y b.X)
  let B := Fe.mul (Fe.add a.Y a.X) (Fe.add b.Y b.X)
  let C := Fe.mul (Fe.mul a.T (Fe.mul (Fe.ofNat 2) Config.curveD)) b.T
  let D := Fe.mul (Fe.mul a.Z (Fe.ofNat 2)) b.Z
  let E := Fe.sub B A
  let F := Fe.sub D C
  let G := Fe.add D C
  let H := Fe.add B A
  { X := Fe.mul E F, Y := Fe.mul G H, Z := Fe.mul F G, T := Fe.mul E H }

/-- The doubler datapath of R194. -/
def ExtPoint.double (a : ExtPoint) : ExtPoint :=
  let A := Fe.sqr a.X
  let B := Fe.sqr a.Y
  let C := Fe.mul (Fe.ofNat 2) (Fe.sqr a.Z)
  let H := Fe.add A B
  let E := Fe.sub H (Fe.sqr (Fe.add a.X a.Y))
  let G := Fe.sub A B
  let F := Fe.add C G
  { X := Fe.mul E F, Y := Fe.mul G H, Z := Fe.mul F G, T := Fe.mul E H }

/-- k*Q for a scalar of at most `n` bits, by doubling and adding from the top bit down. -/
def ExtPoint.mulBits (q : ExtPoint) : Nat → Nat → ExtPoint
  | 0, _ => ExtPoint.identity
  | n + 1, k =>
    if k = 0 then ExtPoint.identity
    else
      let h := ExtPoint.double (ExtPoint.mulBits q n (k / 2))
      if k % 2 = 1 then ExtPoint.add h q else h

/-- `k*Q` (R195). The algorithm is free (R205, item I18): this one doubles and adds in extended coordinates, on the
datapaths of R193 and R194. Log entry 6. -/
def Point.mul (k : Nat) (q : Point) : Point :=
  (ExtPoint.mulBits (ExtPoint.ofPoint q) (k.log2 + 1) k).toPoint

/-- A point is of small order when 8*Q = O (R208). -/
def Point.smallOrder (q : Point) : Bool := Point.mul Config.cofactor q = Config.identity

/-- `compress(x, y) = toLE_32(y + 2^255 * (x mod 2))` (R197). -/
def Point.compress (q : Point) : List Byte :=
  Machine.toLE 32 (q.y.val + 2 ^ 255 * (q.x.val % 2))

/-- `decompress(b, sorej)` (R198); `none` is INVALID. -/
def Point.decompress (b : List Byte) (sorej : Bool) : Option Point :=
  let n := Machine.leNat b
  let sign : Bool := n / 2 ^ 255 % 2 = 1
  let yRaw := n % 2 ^ 255
  if fieldPrime ≤ yRaw then none
  else
    let y := Fe.ofNat yRaw
    let u := Fe.sub (Fe.sqr y) (Fe.ofNat 1)
    let v := Fe.add (Fe.mul Config.curveD (Fe.sqr y)) (Fe.ofNat 1)
    let root := Fe.sqrtRatio u v
    if root.1 = false then none
    else if root.2 = Fe.ofNat 0 ∧ sign = true then none
    else
      let q : Point := { x := if Fe.isOdd root.2 = sign then root.2 else Fe.neg root.2, y := y }
      if sorej = true ∧ Point.smallOrder q = true then none else some q

end Sys2Proof
end

