-- ==== Sys2Proof/Machine/ScalarArith.lean ====
section
/-! DEFINITION. The scalar unit: arithmetic mod L and clamping (42_scalar.md). -/

namespace Sys2Proof

/-- A 256-bit register holding an integer reduced mod L (R170). -/
def Scalar.reduce (n : Nat) : Scalar := BitVec.ofNat 256 (n % Config.groupOrder)

/-- `(a * b + c) mod L`, over the full register values (R176). -/
def Scalar.mulAdd (a b c : Scalar) : Scalar := Scalar.reduce (a.toNat * b.toNat + c.toNat)

/-- `clamp(v) = (v AND NOT(2^255 OR 7)) OR 2^254` (R180). -/
def Scalar.clamp (v : Scalar) : Scalar :=
  (v &&& ~~~(BitVec.twoPow 256 255 ||| 7#256)) ||| BitVec.twoPow 256 254

end Sys2Proof
end

