-- ==== Sys2Proof/Machine/Operands.lean ====
section
/-! DEFINITION. The operand forms of the five formats (R101 to R108): absolute DMEM addresses with their range check,
immediates, and branch targets with theirs. Register operands are the accessors of Ops.lean. -/

namespace Sys2Proof.Machine

/-- M format: `addr + n <= DMEM_SIZE`, over unbounded integers (R74). -/
abbrev State.inDmem (s : State) (addr : Half) (n : Nat) : Prop := addr.toNat + n ≤ s.params.dmemSize

/-- M format: the effect of an access in range, else DMEM_RANGE, with no byte read or written (R74, R235). -/
def withDmem (s : State) (addr : Half) (n : Nat) (next : State) : State :=
  if s.inDmem addr n then next else s.raise .dmemRange

/-- M format load: the n-byte operand at `addr`, as a little-endian integer (R76). -/
def loadOperand (s : State) (addr : Half) (n : Nat) : Nat := leNat (s.memRead addr.toNat n)

/-- M format store: 32 bytes at `addr`, the little-endian form of `v` (R76). -/
def storeOperand (s : State) (addr : Half) (v : Nat) : State := s.memWrite addr.toNat (toLE 32 v)

/-- I format: the zero-extended immediate, as a field element (R104, R144). -/
def fieldImm (imm : Half) : Fe := Fe.ofNat imm.toNat

/-- I format: the zero-extended immediate, as a scalar (R104, R175). -/
def scalarImm (imm : Half) : Scalar := imm.zeroExtend 256

/-- J format: the effect of a branch whose target is in IMEM, else IMEM_RANGE, whatever CF is (R136). -/
def withTarget (s : State) (target : Half) (next : State) : State :=
  if target.toNat < s.params.imemWords then next else s.raise .imemRange

end Sys2Proof.Machine
end

