-- ==== Sys2Proof/Machine/Flags.lean ====
section
/-! DEFINITION. The condition flag CF: what each instruction that writes it computes, and how it is read (R36). There
are no other flags. -/

namespace Sys2Proof.Machine

/-- FSQRT: a root of u/v exists (R152). -/
def cfOfRoot (u v : Fe) : Bool := (Fe.sqrtRatio u v).1

/-- FEQ: the canonical values are equal (R155). -/
def cfOfFieldEq (a b : Fe) : Bool := a = b

/-- SCHK: the scalar is below L (R182). -/
def cfOfCanonical (a : Scalar) : Bool := a.toNat < Config.groupOrder

/-- PLD: decoding succeeded (R199). -/
def cfOfDecoding (q : Option Point) : Bool := q.isSome

/-- PEQ: the affine points are equal (R207). -/
def cfOfPointEq (a b : Point) : Bool := a = b

/-- PSMALL: 8*Q = O (R209). -/
def cfOfSmallOrder (q : Point) : Bool := q.smallOrder

/-- FSEL: Fb when CF = 1, Fa when CF = 0 (R153). -/
def selectByCf (cf : Bool) (a b : Fe) : Fe := if cf then b else a

end Sys2Proof.Machine
end

