-- ==== Sys2Proof/Machine/Control.lean ====
section
/-! DEFINITION. The sequencing instructions (40_control.md). -/

namespace Sys2Proof.Machine

/-- NOP (R132). -/
def execNop (s : State) : Result := .next s.complete

/-- HALT (R131). -/
def execHalt (s : State) : Result := .next s.halt

/-- JMP target (R133). -/
def execJmp (target : Half) (s : State) : Result :=
  .next (withTarget s target (s.completeAt target))

/-- BCS target: taken when CF = 1 (R134). -/
def execBcs (target : Half) (s : State) : Result :=
  .next (withTarget s target (if s.cf then s.completeAt target else s.complete))

/-- BCC target: taken when CF = 0 (R135). -/
def execBcc (target : Half) (s : State) : Result :=
  .next (withTarget s target (if s.cf then s.complete else s.completeAt target))

end Sys2Proof.Machine
end

