-- ==== Sys2Proof/Machine/Field.lean ====
section
/-! DEFINITION. The field instructions (41_field.md). -/

namespace Sys2Proof.Machine

/-- FLD Fd, [addr]: all 256 bits, reduced mod p (R142). -/
def execFld (d : RegField) (addr : Half) (s : State) : Result :=
  .next (withDmem s addr 32 (s.writeF d (Fe.ofNat (loadOperand s addr 32))).complete)

/-- FST [addr], Fa (R143). -/
def execFst (a : RegField) (addr : Half) (s : State) : Result :=
  .next (withDmem s addr 32 (storeOperand s addr (s.readF a).val).complete)

/-- FLDI Fd, #imm (R144). -/
def execFldi (d : RegField) (imm : Half) (s : State) : Result :=
  .next (s.writeF d (fieldImm imm)).complete

/-- FADD Fd, Fa, Fb (R145). -/
def execFadd (d a b : RegField) (s : State) : Result :=
  .next (s.writeF d (Fe.add (s.readF a) (s.readF b))).complete

/-- FSUB Fd, Fa, Fb (R146). -/
def execFsub (d a b : RegField) (s : State) : Result :=
  .next (s.writeF d (Fe.sub (s.readF a) (s.readF b))).complete

/-- FMUL Fd, Fa, Fb (R147). -/
def execFmul (d a b : RegField) (s : State) : Result :=
  .next (s.writeF d (Fe.mul (s.readF a) (s.readF b))).complete

/-- FSQR Fd, Fa (R148). -/
def execFsqr (d a : RegField) (s : State) : Result :=
  .next (s.writeF d (Fe.sqr (s.readF a))).complete

/-- FINV Fd, Fa (R149). -/
def execFinv (d a : RegField) (s : State) : Result :=
  .next (s.writeF d (Fe.inv (s.readF a))).complete

/-- FSQRT Fd, Fu, Fv: `(ok, r) <- sqrt_ratio(F[u], F[v]); CF <- ok; F[d] <- r` (R152). -/
def execFsqrt (d u v : RegField) (s : State) : Result :=
  .next ((s.setCf (cfOfRoot (s.readF u) (s.readF v))).writeF d
    (Fe.sqrtRatio (s.readF u) (s.readF v)).2).complete

/-- FSEL Fd, Fa, Fb (R153). -/
def execFsel (d a b : RegField) (s : State) : Result :=
  .next (s.writeF d (selectByCf s.cf (s.readF a) (s.readF b))).complete

/-- FCSWAP Fa, Fb: both sources are read before either write (R154). -/
def execFcswap (a b : RegField) (s : State) : Result :=
  .next (if s.cf then ((s.writeF a (s.readF b)).writeF b (s.readF a)).complete else s.complete)

/-- FEQ Fa, Fb (R155). -/
def execFeq (a b : RegField) (s : State) : Result :=
  .next (s.setCf (cfOfFieldEq (s.readF a) (s.readF b))).complete

end Sys2Proof.Machine
end

