-- ==== Sys2Proof/Machine/PointOps.lean ====
section
/-! DEFINITION. The point instructions (43_point.md). -/

namespace Sys2Proof.Machine

/-- What PLD does with a decoding: a point is written, an INVALID leaves P[d] unchanged, and CF says which (R199). -/
def State.takeDecoding (s : State) (d : RegField) (q : Option Point) : State :=
  match q with
  | some p => (s.writeP d p).setCf (cfOfDecoding q)
  | none => s.setCf (cfOfDecoding q)

/-- PLD Pd, [addr] (R199). -/
def execPld (d : RegField) (addr : Half) (s : State) : Result :=
  whenLegal (.pld d addr) s
    (withDmem s addr 32
      (s.takeDecoding d (Point.decompress (s.memRead addr.toNat 32) s.soRej)).complete)

/-- PST [addr], Pa (R200). -/
def execPst (a : RegField) (addr : Half) (s : State) : Result :=
  whenLegal (.pst a addr) s
    (withDmem s addr 32 (s.memWrite addr.toNat (s.readP a).compress).complete)

/-- PIDENT Pd (R201). -/
def execPident (d : RegField) (s : State) : Result :=
  whenLegal (.pident d) s (s.writeP d Config.identity).complete

/-- PBASE Pd (R202). -/
def execPbase (d : RegField) (s : State) : Result :=
  whenLegal (.pbase d) s (s.writeP d Config.basePoint).complete

/-- PADD Pd, Pa, Pb (R203). -/
def execPadd (d a b : RegField) (s : State) : Result :=
  whenLegal (.padd d a b) s (s.writeP d (Point.add (s.readP a) (s.readP b))).complete

/-- PDBL Pd, Pa (R204). -/
def execPdbl (d a : RegField) (s : State) : Result :=
  whenLegal (.pdbl d a) s (s.writeP d (Point.double (s.readP a))).complete

/-- SMUL Pd, Sk, Pa: the full 256-bit scalar, not reduced (R205). -/
def execSmul (d k a : RegField) (s : State) : Result :=
  whenLegal (.smul d k a) s (s.writeP d (Point.mul (s.readS k).toNat (s.readP a))).complete

/-- DSMULV Pd, Sa, Pa', Sb: S[a]*P[a'] + S[b]*B, both scalars unreduced (R206). -/
def execDsmulv (d a p b : RegField) (s : State) : Result :=
  whenLegal (.dsmulv d a p b) s
    (s.writeP d (Point.add (Point.mul (s.readS a).toNat (s.readP p))
      (Point.mul (s.readS b).toNat Config.basePoint))).complete

/-- PEQ Pa, Pb (R207). -/
def execPeq (a b : RegField) (s : State) : Result :=
  whenLegal (.peq a b) s (s.setCf (cfOfPointEq (s.readP a) (s.readP b))).complete

/-- PSMALL Pa (R209). -/
def execPsmall (a : RegField) (s : State) : Result :=
  whenLegal (.psmall a) s (s.setCf (cfOfSmallOrder (s.readP a))).complete

/-- PAFF Fx, Fy, Pa: x is written first and y second, so y wins when the two name one register (R210). -/
def execPaff (x y a : RegField) (s : State) : Result :=
  whenLegal (.paff x y a) s ((s.writeF x (s.readP a).x).writeF y (s.readP a).y).complete

end Sys2Proof.Machine
end

