-- ==== Sys2Proof/Machine/ScalarOps.lean ====
section
/-! DEFINITION. The scalar instructions (42_scalar.md). -/

namespace Sys2Proof.Machine

/-- SLD Sd, [addr]: all 256 bits, not reduced (R172). -/
def execSld (d : RegField) (addr : Half) (s : State) : Result :=
  whenLegal (.sld d addr) s
    (withDmem s addr 32 (s.writeS d (BitVec.ofNat 256 (loadOperand s addr 32))).complete)

/-- SLDW Sd, [addr]: one 512-bit integer, reduced mod L (R173). -/
def execSldw (d : RegField) (addr : Half) (s : State) : Result :=
  whenLegal (.sldw d addr) s
    (withDmem s addr 64 (s.writeS d (Scalar.reduce (loadOperand s addr 64))).complete)

/-- SST [addr], Sa (R174). -/
def execSst (a : RegField) (addr : Half) (s : State) : Result :=
  whenLegal (.sst a addr) s
    (withDmem s addr 32 (storeOperand s addr (s.readS a).toNat).complete)

/-- SLDI Sd, #imm (R175). -/
def execSldi (d : RegField) (imm : Half) (s : State) : Result :=
  whenLegal (.sldi d imm) s (s.writeS d (scalarImm imm)).complete

/-- SMULADD Sd, Sa, Sb, Sc (R176). -/
def execSmuladd (d a b c : RegField) (s : State) : Result :=
  whenLegal (.smuladd d a b c) s
    (s.writeS d (Scalar.mulAdd (s.readS a) (s.readS b) (s.readS c))).complete

/-- SCLAMP Sd, Sa (R181). -/
def execSclamp (d a : RegField) (s : State) : Result :=
  whenLegal (.sclamp d a) s (s.writeS d (Scalar.clamp (s.readS a))).complete

/-- SCHK Sa (R182). -/
def execSchk (a : RegField) (s : State) : Result :=
  whenLegal (.schk a) s (s.setCf (cfOfCanonical (s.readS a))).complete

end Sys2Proof.Machine
end

