-- ==== Sys2Proof/Machine/Dispatch.lean ====
section
/-! DEFINITION. One arm per instruction: which meaning it has. -/

namespace Sys2Proof.Machine

def exec (i : Instr) (s : State) : Host.Outcome State Fault Refusal :=
  match i with
  -- sequencing
  | .nop => Sys2Proof.Machine.execNop s
  | .halt => Sys2Proof.Machine.execHalt s
  | .jmp target => Sys2Proof.Machine.execJmp target s
  | .bcs target => Sys2Proof.Machine.execBcs target s
  | .bcc target => Sys2Proof.Machine.execBcc target s
  -- field arithmetic
  | .fld d addr => Sys2Proof.Machine.execFld d addr s
  | .fst a addr => Sys2Proof.Machine.execFst a addr s
  | .fldi d imm => Sys2Proof.Machine.execFldi d imm s
  | .fadd d a b => Sys2Proof.Machine.execFadd d a b s
  | .fsub d a b => Sys2Proof.Machine.execFsub d a b s
  | .fmul d a b => Sys2Proof.Machine.execFmul d a b s
  | .fsqr d a => Sys2Proof.Machine.execFsqr d a s
  | .finv d a => Sys2Proof.Machine.execFinv d a s
  | .fsqrt d u v => Sys2Proof.Machine.execFsqrt d u v s
  | .fsel d a b => Sys2Proof.Machine.execFsel d a b s
  | .fcswap a b => Sys2Proof.Machine.execFcswap a b s
  | .feq a b => Sys2Proof.Machine.execFeq a b s
  -- scalar arithmetic
  | .sld d addr => Sys2Proof.Machine.execSld d addr s
  | .sldw d addr => Sys2Proof.Machine.execSldw d addr s
  | .sst a addr => Sys2Proof.Machine.execSst a addr s
  | .sldi d imm => Sys2Proof.Machine.execSldi d imm s
  | .smuladd d a b c => Sys2Proof.Machine.execSmuladd d a b c s
  | .sclamp d a => Sys2Proof.Machine.execSclamp d a s
  | .schk a => Sys2Proof.Machine.execSchk a s
  -- points
  | .pld d addr => Sys2Proof.Machine.execPld d addr s
  | .pst a addr => Sys2Proof.Machine.execPst a addr s
  | .pident d => Sys2Proof.Machine.execPident d s
  | .pbase d => Sys2Proof.Machine.execPbase d s
  | .padd d a b => Sys2Proof.Machine.execPadd d a b s
  | .pdbl d a => Sys2Proof.Machine.execPdbl d a s
  | .smul d k a => Sys2Proof.Machine.execSmul d k a s
  | .dsmulv d a p b => Sys2Proof.Machine.execDsmulv d a p b s
  | .peq a b => Sys2Proof.Machine.execPeq a b s
  | .psmall a => Sys2Proof.Machine.execPsmall a s
  | .paff x y a => Sys2Proof.Machine.execPaff x y a s

end Sys2Proof.Machine
end

