-- ==== Sys2Proof/Machine/Cycle.lean ====
section
/-! DEFINITION. The core's instruction cycle (R130). -/

namespace Sys2Proof.Machine

/-- One turn of the core. IDLE, it executes nothing (R39). BUSY, it fetches IMEM[pc], decodes and executes; the
checks come in the order of R238, and those of the operands stand in the instruction's meaning. -/
def coreCycle (s : State) : Result :=
  match s.run with
  | .idle => .next s
  | .busy =>
    if s.pc.toNat < s.params.imemWords then
      match decode s.fetchWord with
      | some i => exec i s
      | none => .next (s.raise .illegal)
    else .next s.raiseFetch

/-- LAT(op), a positive number of cycles (R274). Of one opcode it is one number, whatever the state (R275), but for DSMULV
(R276). No step reads it: "a model represents no time". Log entry 13. -/
def latency (i : Instr) (s : State) : Nat :=
  match i with
  | .dsmulv _ a p b => 1 + Config.dsmulvExtraCycles (s.readS a) (s.readP p) (s.readS b)
  | other => 1 + Config.extraCycles (opcodeField (encode other))

/-- The index an instruction word is placed at so that the next core cycle fetches it: pc, or 0 when pc lies beyond
IMEM. -/
def State.fetchIndex (s : State) : Half := if s.pc.toNat < s.params.imemWords then s.pc else 0

/-- `w` at the index the next core cycle fetches from. -/
def State.placeWord (s : State) (w : Word) : State :=
  { s.setImem s.fetchIndex.toNat w with pc := s.fetchIndex }

/-- The core is put BUSY, by the host's START when it is IDLE (R44), and no host event comes before its next turn. -/
def State.readyToRun (s : State) : State :=
  match s.run with
  | .idle => { s.startRun with inputs := [] }
  | .busy => { s with inputs := [] }

end Sys2Proof.Machine
end

