-- ==== Sys2Proof/Machine/HostPort.lean ====
section
/-! DEFINITION. The host register block (10_state.md section 5, 20_memory.md section 4) and the reset input
(R260). -/

namespace Sys2Proof.Machine

/-- STATUS.BUSY (R39, R52). -/
def State.busy (s : State) : Bool := s.run = .busy

/-- The interrupt output (R242). -/
def State.irq (s : State) : Bool := s.irqEn && (s.done || s.err)

/-- The code of a cause (R233). -/
def Cause.code : Cause → Nat
  | .none => 0
  | .illegal => 1
  | .dmemRange => 2
  | .imemRange => 3
  | .aborted => 4

/-- CTRL as read: START, ABORT, ZEROIZE and the reserved bits read 0 (R43, R49). -/
def State.ctrlWord (s : State) : Word := BitVec.ofNat 32 (s.irqEn.toNat * 2 ^ 8 + s.soRej.toNat * 2 ^ 9)

/-- STATUS as read (R52). -/
def State.statusWord (s : State) : Word :=
  BitVec.ofNat 32 (s.busy.toNat + s.done.toNat * 2 + s.err.toNat * 2 ^ 2 + s.cf.toNat * 2 ^ 3 + s.herr.toNat * 2 ^ 4
    + s.cause.code * 2 ^ 8)

/-- A read of the registers at offsets 0x0000 to 0x3FFF (R41); a reserved offset reads 0 (R62). No read of a register
has a side effect (R42). -/
def State.registerWord (s : State) (offset : Nat) : Word :=
  match offset with
  | 0x0000 => Config.idWord
  | 0x0004 => s.ctrlWord
  | 0x0008 => s.statusWord
  | 0x000C => s.pc.zeroExtend 32
  | 0x0010 => s.faultPc.zeroExtend 32
  | 0x0014 => s.faultInsn
  | 0x0018 => s.retired
  | 0x001C => BitVec.ofNat 32 s.params.imemWords
  | 0x0020 => BitVec.ofNat 32 s.params.dmemSize
  | _ => 0

/-- The four bytes of a DMEM window word: byte 4j in bits 7:0 (R77). -/
def State.dmemWindowWord (s : State) (a : Nat) : Word := BitVec.ofNat 32 (leNat (s.memRead a 4))

/-- A read of the IMEM and DMEM windows while IDLE; beyond IMEM_WORDS or DMEM_SIZE it reads 0 (R80, R81). -/
def State.windowWord (s : State) (offset : Nat) : Word :=
  if offset < 0x8000 then
    if (offset - 0x4000) / 4 < s.params.imemWords then s.imemWord ((offset - 0x4000) / 4) else 0
  else
    if offset - 0x8000 < s.params.dmemSize then s.dmemWindowWord (offset - 0x8000) else 0

/-- STATUS.HERR is set by a host access the core ignores because it is BUSY (R54). -/
def State.setHerr (s : State) : State := { s with herr := true }

/-- A host read at a legal offset. A window read while BUSY returns 0 and sets HERR (R82). -/
def hostRead (s : State) (offset : Nat) : State :=
  if offset < 0x4000 then { s with readData := some (s.registerWord offset) }
  else if s.busy then { s.setHerr with readData := some 0 }
  else { s with readData := some (s.windowWord offset) }

/-- ZEROIZE: F, S and CF to 0, P to the identity, every DMEM byte to 0 (R46). -/
def State.zeroize (s : State) : State :=
  { s with
    fregs := Vector.replicate 16 (Fe.ofNat 0)
    sregs := Vector.replicate 8 0
    pregs := Vector.replicate 8 Config.identity
    cf := false
    dmem := (List.range s.params.dmemSize).map fun a => (a, 0) }

/-- A CTRL write while BUSY (R45, R47, R48): IRQEN is updated at once; a changed SOREJ, a START and a ZEROIZE are
ignored and set HERR; ABORT then stops the run. Log entry 5. -/
def State.ctrlWriteBusy (s : State) (w : Word) : State :=
  let s1 := { s with irqEn := w.getLsbD 8 }
  let s2 := if (w.getLsbD 9 != s.soRej) || w.getLsbD 0 || w.getLsbD 2 then s1.setHerr else s1
  if w.getLsbD 1 then s2.abort else s2

/-- A CTRL write while IDLE: IRQEN and SOREJ, then ZEROIZE, then START (R47); an ABORT is ignored (R45). -/
def State.ctrlWriteIdle (s : State) (w : Word) : State :=
  let s1 := { s with irqEn := w.getLsbD 8, soRej := w.getLsbD 9 }
  let s2 := if w.getLsbD 2 then s1.zeroize else s1
  if w.getLsbD 0 then s2.startRun else s2

/-- A STATUS write: 1 clears DONE, ERR (and CAUSE with it) and HERR (R42, R53, R54). -/
def State.statusWrite (s : State) (w : Word) : State :=
  { s with
    done := s.done && !w.getLsbD 1
    err := s.err && !w.getLsbD 2
    cause := if w.getLsbD 2 then .none else s.cause
    herr := s.herr && !w.getLsbD 4 }

/-- A PC write: pc takes bits 15:0 while IDLE; while BUSY it is ignored and sets HERR (R55). -/
def State.pcWrite (s : State) (w : Word) : State :=
  if s.busy then s.setHerr else { s with pc := w.extractLsb' 0 16 }

/-- A write of the registers at offsets 0x0000 to 0x3FFF; a read-only register (R42) and a reserved offset (R62)
ignore it. -/
def State.registerWrite (s : State) (offset : Nat) (w : Word) : State :=
  match offset with
  | 0x0004 => if s.busy then s.ctrlWriteBusy w else s.ctrlWriteIdle w
  | 0x0008 => s.statusWrite w
  | 0x000C => s.pcWrite w
  | _ => s

/-- A write of the windows while IDLE; beyond IMEM_WORDS or DMEM_SIZE it is ignored (R77, R79, R81). -/
def State.windowWrite (s : State) (offset : Nat) (w : Word) : State :=
  if offset < 0x8000 then
    if (offset - 0x4000) / 4 < s.params.imemWords then s.setImem ((offset - 0x4000) / 4) w else s
  else
    if offset - 0x8000 < s.params.dmemSize then s.memWrite (offset - 0x8000) (toLE 4 w.toNat) else s

/-- A host write at a legal offset. A window write while BUSY is ignored and sets HERR (R82). -/
def hostWrite (s : State) (offset : Nat) (w : Word) : State :=
  if offset < 0x4000 then s.registerWrite offset w
  else if s.busy then s.setHerr
  else s.windowWrite offset w

/-- Reset, at any time: every register takes its reset value, a run in progress is abandoned with no stop reported,
and the memories hold unknown values again (R260, R261, R262, item I14). What the host does next stays. -/
def State.resetNow (s : State) : State :=
  { State.afterReset s.params (s.epoch + 1) with inputs := s.inputs }

/-- A host access is 32 bits wide at a multiple of 4 (R83). -/
abbrev legalAccess (offset : Half) (bytes : Nat) : Prop := bytes = 4 ∧ offset.toNat % 4 = 0

/-- One event of the outside world: a core turn, one host access, or reset (R30, R84, R260). -/
def hostStep (e : HostEvent) (s : State) : Result :=
  match e with
  | .coreTurn => coreCycle s
  | .read offset bytes =>
    if legalAccess offset bytes then .next (hostRead s offset.toNat) else .refused .hostAccessForm
  | .write offset bytes data =>
    if legalAccess offset bytes then .next (hostWrite s offset.toNat data) else .refused .hostAccessForm
  | .reset => .next s.resetNow

/-- The offset in the block's 64 KiB window of a bus address, if it lies there (R41). BASE is OPEN (log entry 4). -/
def busOffset (address : Nat) : Option Half :=
  if Config.base ≤ address ∧ address < Config.base + 0x10000 then some (BitVec.ofNat 16 (address - Config.base))
  else none

end Sys2Proof.Machine
end

