-- ==== Sys2Proof/Machine/Step.lean ====
section
/-! DEFINITION. The step: the next event of the outside world, or the core's turn when there is none (R30). -/

namespace Sys2Proof.Machine

/-- One step. With no host event waiting it is a core cycle; else the first waiting event happens, and leaves the
list. -/
def step (s : State) : Host.Outcome State Fault Refusal :=
  match s.inputs with
  | [] => coreCycle s
  | e :: rest => hostStep e { s with inputs := rest }

/-- `s` with an instruction word where the next step fetches: the core is BUSY, no host event waits, and the word
stands at IMEM[pc]. Log entry 3 says how a program comes to run from reset. -/
def State.withFetchWord (s : State) (nbits w : Nat) : State :=
  s.readyToRun.placeWord (tableWord nbits w)

end Sys2Proof.Machine
end

