-- ==== Sys2Proof/Safety.lean ====
section
/-! DEFINITION. The terms in which claims speak of runs: the kinds of stop, the invariants of the machine, and what a
step leaves unchanged. -/

namespace Sys2Proof.Machine

/-! The three kinds of stop (R230). -/

/-- A run that ended by HALT. -/
abbrev State.Halted (s : State) : Prop := s.run = .idle ∧ s.done = true

/-- A run that ended by a fault (CAUSE 1 to 3). -/
abbrev State.Faulted (s : State) : Prop :=
  s.run = .idle ∧ s.err = true ∧ (s.cause = .illegal ∨ s.cause = .dmemRange ∨ s.cause = .imemRange)

/-- A run that the host aborted (CAUSE 4). -/
abbrev State.Aborted (s : State) : Prop := s.run = .idle ∧ s.err = true ∧ s.cause = .aborted

/-! Invariants. -/

/-- Every point register holds a point of the curve (R34, R191). -/
abbrev State.PointsOnCurve (s : State) : Prop := ∀ r : RegField, (s.readP r).OnCurve

/-- Both memories are in canonical form, and nothing is listed beyond their sizes (R70). -/
abbrev State.MemoryWf (s : State) : Prop :=
  Memory.wf s.dmem ∧ Memory.wf s.imem ∧ (∀ c ∈ s.dmem, c.1 < s.params.dmemSize)
    ∧ (∀ c ∈ s.imem, c.1 < s.params.imemWords)

/-- DONE and ERR are never both 1 (R52), both are 0 while BUSY (R53), and CAUSE is not 0 exactly when ERR is 1
(R44, R53, R232, R233). -/
abbrev State.StatusConsistent (s : State) : Prop :=
  ¬(s.done = true ∧ s.err = true) ∧ (s.run = .busy → s.done = false ∧ s.err = false)
    ∧ (s.err = true ↔ s.cause ≠ .none)

/-! Who acts in a step. -/

/-- The next step is the core's turn from `u`: no host event waits, or the first one leaves the step to the core and
has left the list. -/
def State.CoreTurn (s u : State) : Prop :=
  (s.inputs = [] ∧ u = s) ∨ ∃ rest, s.inputs = .coreTurn :: rest ∧ u = { s with inputs := rest }

/-- A host read at the offset returns `v` and has no other effect (R42). -/
def State.readsAs (s : State) (offset : Half) (v : Word) : Prop :=
  ∀ rest, s.inputs = .read offset 4 :: rest → step s = .next { s with inputs := rest, readData := some v }

/-- A host write at the offset has no effect: it changes nothing and sets no HERR (R42, R62, R81). -/
def State.ignoresWrite (s : State) (offset : Half) : Prop :=
  ∀ rest w, s.inputs = .write offset 4 w :: rest → step s = .next { s with inputs := rest }

/-- Every register, flag and field holds its reset value, and the read-only registers read their constants (R261). -/
def State.HasResetValues (t : State) : Prop :=
  (∀ r, (t.readF r).val = 0) ∧ (∀ r, (t.readS r).toNat = 0) ∧ (∀ r, t.readP r = Config.identity) ∧
    t.cf = false ∧ t.pc.toNat = 0 ∧ t.run = .idle ∧ t.irqEn = false ∧ t.soRej = false ∧
    t.statusWord = 0 ∧ t.faultPc.toNat = 0 ∧ t.faultInsn.toNat = 0 ∧ t.retired.toNat = 0 ∧ t.irq = false ∧
    t.registerWord 0x0000 = 0xED255190 ∧ t.registerWord 0x001C = BitVec.ofNat 32 t.params.imemWords ∧
    t.registerWord 0x0020 = BitVec.ofNat 32 t.params.dmemSize

/-! What stays unchanged. -/

/-- Every F register but the listed ones reads as before. -/
def keepsF (s t : State) (but : List RegField) : Prop := ∀ r, r ∉ but → t.readF r = s.readF r

/-- Every S register but the listed ones reads as before. -/
def keepsS (s t : State) (but : List RegField) : Prop :=
  ∀ r : RegField, r.toNat < 8 → r ∉ but → t.readS r = s.readS r

/-- Every P register but the listed ones reads as before. -/
def keepsP (s t : State) (but : List RegField) : Prop :=
  ∀ r : RegField, r.toNat < 8 → r ∉ but → t.readP r = s.readP r

/-- Every DMEM byte reads as before. -/
def keepsDmem (s t : State) : Prop := ∀ a, t.dmemByte a = s.dmemByte a

/-- Every DMEM byte outside the `n` bytes from `addr` reads as before. -/
def keepsDmemOutside (s t : State) (addr n : Nat) : Prop :=
  ∀ a, (a < addr ∨ addr + n ≤ a) → t.dmemByte a = s.dmemByte a

/-- IMEM, the control, status and fault registers, the run state and the model's own fields are as before. -/
def keepsControl (s t : State) : Prop :=
  (∀ i, t.imemWord i = s.imemWord i) ∧ t.run = s.run ∧ t.irqEn = s.irqEn ∧ t.soRej = s.soRej ∧ t.done = s.done
    ∧ t.err = s.err ∧ t.herr = s.herr ∧ t.cause = s.cause ∧ t.faultPc = s.faultPc ∧ t.faultInsn = s.faultInsn
    ∧ t.params = s.params ∧ t.epoch = s.epoch ∧ t.inputs = s.inputs ∧ t.readData = s.readData

/-- An instruction that completes and does not branch (R38, R61). -/
def advances (s t : State) : Prop := t.pc = s.pc + 1 ∧ t.retired = s.retired + 1

/-- The frame of an instruction that completes, does not branch and stores nothing: only the listed registers may
change, and CF does not. -/
def onlyWrites (s t : State) (f sc p : List RegField) : Prop :=
  keepsF s t f ∧ keepsS s t sc ∧ keepsP s t p ∧ t.cf = s.cf ∧ keepsDmem s t ∧ keepsControl s t ∧ advances s t

/-- As `onlyWrites`, but CF takes the value `b`. -/
def onlyWritesCf (s t : State) (f sc p : List RegField) (b : Bool) : Prop :=
  keepsF s t f ∧ keepsS s t sc ∧ keepsP s t p ∧ t.cf = b ∧ keepsDmem s t ∧ keepsControl s t ∧ advances s t

/-- The frame of a store of `n` bytes at `addr`: no register and no flag changes, and no byte outside. -/
def onlyStores (s t : State) (addr n : Nat) : Prop :=
  keepsF s t [] ∧ keepsS s t [] ∧ keepsP s t [] ∧ t.cf = s.cf ∧ keepsDmemOutside s t addr n ∧ keepsControl s t
    ∧ advances s t

/-- A fault entry written out field by field (R232): ERR, CAUSE, FAULTPC, FAULTINSN and the run state, nothing
else. -/
def entersFault (s t : State) (c : Cause) (insn : Word) : Prop :=
  t = { s with err := true, cause := c, faultPc := s.pc, faultInsn := insn, run := .idle }

/-- The quadruple represents the affine point: Z is not 0, x = X/Z, y = Y/Z and xy = T/Z (R35). -/
def ExtRepresents (e : ExtPoint) (q : Point) : Prop :=
  e.Z ≠ Fe.ofNat 0 ∧ e.X = Fe.mul q.x e.Z ∧ e.Y = Fe.mul q.y e.Z ∧ e.T = Fe.mul (Fe.mul q.x q.y) e.Z

end Sys2Proof.Machine
end

