-- ==== Sys2Proof/Certificates/Slice0/Obligations.lean ====
section
/-! DEFINITION. The statements about the machine, each a proposition to be settled. Every docstring names the rules it
formalises; a statement is about every state and every operand unless it says otherwise. -/

open Sys2Proof Sys2Proof.Machine

/-! ## Encoding -/

/-- The decoder gives back every well-formed instruction from its word (R102 to R109, R114): no bit of an operand is
dropped, and no word is read as another instruction. -/
def Obligations.EncodedInstructionDecodesBack : Prop :=
  ∀ i : Instr, i.wellFormed = true → decode (encode i) = some i

/-- The other direction (R110, R111, R114): a word that decodes is the encoding of the well-formed instruction it
decodes to, so every reserved bit and unused field of it is zero. -/
def Obligations.DecodedWordIsItsEncoding : Prop :=
  ∀ (w : Word) (i : Instr), decode w = some i → i.wellFormed = true ∧ encode i = w

/-- A word is legal exactly when it matches a row of the opcode map (R109, R110, R114); it then decodes to that row's
mnemonic, and no word matches two rows. -/
def Obligations.WordIsLegalExactlyWhenOneRowMatches : Prop :=
  (∀ w : Word, (decode w).isSome = true ↔ ∃ r ∈ opcodeRows, r.Matches w) ∧
  (∀ (w : Word) (i : Instr), decode w = some i → ∃ r ∈ opcodeRows, r.Matches w ∧ r.mnemonic = i.mnemonic) ∧
  (∀ w : Word, ∀ r ∈ opcodeRows, ∀ q ∈ opcodeRows, r.Matches w → q.Matches w → r = q)

/-- Words of the spec's own examples (R116, R117, R131, R134, R142, R143, R154, R176, R182, R206, R210; vectors
V-E01 to V-E14), at least one per family, decode to the instruction they stand for, and illegal ones to none. -/
def Obligations.ExampleWordsDecode : Prop :=
  decode 0x08000000 = some .halt ∧
  decode 0x1000000C = some (.bcs 12) ∧
  decode 0x20400000 = some (.fld 1 0) ∧
  decode 0x24800040 = some (.fst 2 0x40) ∧
  decode 0x48114000 = some (.fcswap 4 5) ∧
  decode 0x70C80400 = some (.smuladd 3 2 0 1) ∧
  decode 0x78040000 = some (.schk 1) ∧
  decode 0x9CC40800 = some (.dsmulv 3 1 0 2) ∧
  decode 0xABF9C000 = some (.paff 15 14 7) ∧
  decode 0x00000000 = none ∧ decode 0x04000001 = none ∧ decode 0x2C048400 = none ∧ decode 0x62000000 = none

/-! ## The step and its faults -/

/-- The core's turn runs the decoded instruction (R130), whether no host event waits or the host leaves the step to
the core; while IDLE the core executes nothing and all state holds its value (R39). That host events wait in a list of
the state is the model's choice, log entry 2. -/
def Obligations.StepRunsTheDecodedInstruction : Prop :=
  (∀ (s : State) (i : Instr), s.run = .busy → s.pc.toNat < s.params.imemWords → decode s.fetchWord = some i →
    (s.inputs = [] → step s = exec i s) ∧
    (∀ rest, s.inputs = .coreTurn :: rest → step s = exec i { s with inputs := rest })) ∧
  (∀ s : State, s.run = .idle → s.inputs = [] → step s = .next s)

/-- The checks come in the order fetch range, decoding, operand range, and the first that applies is reported
(R238), on every turn of the core. That host events wait in a list of the state is the model's choice, log entry 2. -/
def Obligations.FirstApplicableFaultIsReported : Prop :=
  (∀ i : Instr, ¬(i.dmemOperand.isSome = true ∧ i.branchTarget.isSome = true)) ∧
  ∀ s u : State, s.CoreTurn u → u.run = .busy →
    (u.params.imemWords ≤ u.pc.toNat → ∃ t, step s = .next t ∧ entersFault u t .imemRange 0) ∧
    (u.pc.toNat < u.params.imemWords → decode u.fetchWord = none →
      ∃ t, step s = .next t ∧ entersFault u t .illegal u.fetchWord) ∧
    (∀ i, u.pc.toNat < u.params.imemWords → decode u.fetchWord = some i →
      (∀ addr n, i.dmemOperand = some (addr, n) → u.params.dmemSize < addr.toNat + n →
        ∃ t, step s = .next t ∧ entersFault u t .dmemRange u.fetchWord) ∧
      (∀ target, i.branchTarget = some target → u.params.imemWords ≤ target.toNat →
        ∃ t, step s = .next t ∧ entersFault u t .imemRange u.fetchWord))

/-- Every instruction has an effect (R240): it either completes, counted in RETIRED and leaving the fault record alone, or
enters a fault that changes ERR, CAUSE, FAULTPC, FAULTINSN and the run state and nothing else (R232). -/
def Obligations.InstructionCompletesOrFaultsPrecisely : Prop :=
  ∀ (i : Instr) (s : State), ∃ t, exec i s = .next t ∧
    ((t.retired = s.retired + 1 ∧ t.err = s.err ∧ t.cause = s.cause ∧ t.faultPc = s.faultPc
        ∧ t.faultInsn = s.faultInsn) ∨
      ∃ c, (c = .illegal ∨ c = .dmemRange ∨ c = .imemRange) ∧ entersFault s t c s.fetchWord)

/-- A term of the syntax whose field names an S or P register above 7 raises ILLEGAL when executed and has no other
effect. The rules R107, R110 and R234 say so of WORDS, and the decoder yields no such term; that `exec` treats the term
as it treats the word is the model's choice, log entry 12. -/
def Obligations.IllFormedOperandRaisesIllegal : Prop :=
  ∀ (i : Instr) (s : State), i.wellFormed = false →
    ∃ t, exec i s = .next t ∧ entersFault s t .illegal s.fetchWord

/-- R74: out of range exactly when addr + n > DMEM_SIZE over unbounded integers; then DMEM_RANGE and nothing read or
written; else the instruction completes. -/
def Obligations.DmemAccessIsRangeChecked : Prop :=
  ∀ (i : Instr) (s : State) (addr : Half) (n : Nat), i.wellFormed = true → i.dmemOperand = some (addr, n) →
    (s.params.dmemSize < addr.toNat + n → ∃ t, exec i s = .next t ∧ entersFault s t .dmemRange s.fetchWord) ∧
    (addr.toNat + n ≤ s.params.dmemSize →
      ∃ t, exec i s = .next t ∧ t.err = s.err ∧ t.cause = s.cause ∧ t.run = s.run ∧ advances s t)

/-- R136: a target beyond IMEM faults at the branch, taken or not, and one in IMEM never does. -/
def Obligations.BranchTargetIsCheckedWhateverCf : Prop :=
  ∀ (i : Instr) (s : State) (target : Half), i.branchTarget = some target →
    (s.params.imemWords ≤ target.toNat → ∃ t, exec i s = .next t ∧ entersFault s t .imemRange s.fetchWord) ∧
    (target.toNat < s.params.imemWords →
      ∃ t, exec i s = .next t ∧ t.err = s.err ∧ t.cause = s.cause ∧ t.run = s.run)

/-- How pc advances on every turn of the core from a legal index (R38): to pc + 1 without wrapping, to a branch's target, or
not at all when the run stops. That host events wait in a list of the state is the model's choice, log entry 2. -/
def Obligations.CoreStepMovesPc : Prop :=
  ∀ s u : State, s.CoreTurn u → u.params.Legal → u.run = .busy → u.pc.toNat < u.params.imemWords →
    ∃ t, step s = .next t ∧
      ((t.run = .busy ∧ t.pc.toNat = u.pc.toNat + 1) ∨
        (t.run = .busy ∧ ∃ i target, decode u.fetchWord = some i ∧ i.branchTarget = some target ∧ t.pc = target) ∨
        (t.run = .idle ∧ t.pc = u.pc))

/-! ## Sequencing -/

/-- NOP (R132). -/
def Obligations.NopOnlyAdvances : Prop :=
  encode .nop = 0x04000000 ∧ ∀ s : State, ∃ t, exec .nop s = .next t ∧ onlyWrites s t [] [] []

/-- HALT (R131). -/
def Obligations.HaltEndsTheRun : Prop :=
  encode .halt = 0x08000000 ∧
  ∀ s : State, ∃ t, exec .halt s = .next t ∧
    t = { s with done := true, run := .idle, retired := s.retired + 1 } ∧ keepsDmem s t ∧
    (s.irqEn = true → t.irq = true)

/-- JMP, BCS and BCC (R133, R134, R135). -/
def Obligations.BranchesGoToTheirTargets : Prop :=
  ∀ (s : State) (target : Half),
    (encode (.jmp target) = packJ 0x03 target ∧ encode (.bcs target) = packJ 0x04 target
      ∧ encode (.bcc target) = packJ 0x05 target) ∧
    (target.toNat < s.params.imemWords →
      exec (.jmp target) s = .next { s with pc := target, retired := s.retired + 1 } ∧
      exec (.bcs target) s
        = .next { s with pc := if s.cf = true then target else s.pc + 1, retired := s.retired + 1 } ∧
      exec (.bcc target) s
        = .next { s with pc := if s.cf = false then target else s.pc + 1, retired := s.retired + 1 }) ∧
    (s.params.imemWords ≤ target.toNat → ∀ i ∈ [Instr.jmp target, Instr.bcs target, Instr.bcc target],
      ∃ t, exec i s = .next t ∧ entersFault s t .imemRange s.fetchWord)

/-! ## Field arithmetic -/

/-- FLD (R142): all 256 bits, reduced. -/
def Obligations.FieldLoadReducesAllBits : Prop :=
  ∀ (s : State) (d : RegField) (addr : Half),
    encode (.fld d addr) = packMI 0x08 d addr ∧
    (addr.toNat + 32 ≤ s.params.dmemSize → ∃ t, exec (.fld d addr) s = .next t ∧
      (t.readF d).val = leNat (s.memRead addr.toNat 32) % fieldPrime ∧ onlyWrites s t [d] [] []) ∧
    (s.params.dmemSize < addr.toNat + 32 →
      ∃ t, exec (.fld d addr) s = .next t ∧ entersFault s t .dmemRange s.fetchWord)

/-- FST (R143): the canonical little-endian bytes, whose top bit is 0. -/
def Obligations.FieldStoreWritesCanonicalBytes : Prop :=
  ∀ (s : State) (a : RegField) (addr : Half),
    encode (.fst a addr) = packMI 0x09 a addr ∧
    (addr.toNat + 32 ≤ s.params.dmemSize → ∃ t, exec (.fst a addr) s = .next t ∧
      t.memRead addr.toNat 32 = toLE 32 (s.readF a).val ∧ (t.dmemByte (addr.toNat + 31)).getLsbD 7 = false ∧
      onlyStores s t addr.toNat 32) ∧
    (s.params.dmemSize < addr.toNat + 32 →
      ∃ t, exec (.fst a addr) s = .next t ∧ entersFault s t .dmemRange s.fetchWord)

/-- FLDI (R144). -/
def Obligations.FieldImmediateIsZeroExtended : Prop :=
  ∀ (s : State) (d : RegField) (imm : Half),
    encode (.fldi d imm) = packMI 0x0A d imm ∧
    ∃ t, exec (.fldi d imm) s = .next t ∧ (t.readF d).val = imm.toNat ∧ onlyWrites s t [d] [] []

/-- FADD, FSUB, FMUL and FSQR (R145 to R148), the difference as the least non-negative residue of an integer (R8). -/
def Obligations.FieldArithmeticIsModular : Prop :=
  ∀ (s : State) (d a b : RegField),
    (encode (.fadd d a b) = packR 0x0B d a b 0 ∧ ∃ t, exec (.fadd d a b) s = .next t ∧
      (t.readF d).val = ((s.readF a).val + (s.readF b).val) % fieldPrime ∧ onlyWrites s t [d] [] []) ∧
    (encode (.fsub d a b) = packR 0x0C d a b 0 ∧ ∃ t, exec (.fsub d a b) s = .next t ∧
      ((t.readF d).val : Int) = (((s.readF a).val : Int) - (s.readF b).val) % fieldPrime ∧ onlyWrites s t [d] [] []) ∧
    (encode (.fmul d a b) = packR 0x0D d a b 0 ∧ ∃ t, exec (.fmul d a b) s = .next t ∧
      (t.readF d).val = (s.readF a).val * (s.readF b).val % fieldPrime ∧ onlyWrites s t [d] [] []) ∧
    (encode (.fsqr d a) = packR 0x0E d a 0 0 ∧ ∃ t, exec (.fsqr d a) s = .next t ∧
      (t.readF d).val = (s.readF a).val * (s.readF a).val % fieldPrime ∧ onlyWrites s t [d] [] [])

/-- FINV (R149): the power p - 2, which is the multiplicative inverse, and 0 for 0. -/
def Obligations.FieldInverseIsTheFermatPower : Prop :=
  ∀ (s : State) (d a : RegField),
    encode (.finv d a) = packR 0x0F d a 0 0 ∧
    ∃ t, exec (.finv d a) s = .next t ∧ (t.readF d).val = (s.readF a).val ^ (fieldPrime - 2) % fieldPrime ∧
      ((s.readF a).val ≠ 0 → (s.readF a).val * (t.readF d).val % fieldPrime = 1) ∧
      ((s.readF a).val = 0 → (t.readF d).val = 0) ∧ onlyWrites s t [d] [] []

/-- FSQRT (R152): `(ok, r) <- sqrt_ratio(F[u], F[v]); CF <- ok; F[d] <- r`, the sources read first; the result is
always even. -/
def Obligations.SquareRootWritesRootAndCf : Prop :=
  ∀ (s : State) (d u v : RegField),
    encode (.fsqrt d u v) = packR 0x10 d u v 0 ∧
    ∃ t, exec (.fsqrt d u v) s = .next t ∧ t.readF d = (Fe.sqrtRatio (s.readF u) (s.readF v)).2 ∧
      (t.readF d).val % 2 = 0 ∧ onlyWritesCf s t [d] [] [] (Fe.sqrtRatio (s.readF u) (s.readF v)).1

/-- `sqrt_ratio` (R151) is the function the rule defines by existence: for v = 0 the flag u = 0 with 0; else, with
w = u * v^(p-2) mod p, the even square root of w with flag 1 when w has a square root, and 0 with flag 0 when it has
none. -/
def Obligations.SqrtRatioIsTheSpecifiedFunction : Prop :=
  ∀ u v : Fe,
    (v.val = 0 → Fe.sqrtRatio u v = (decide (u.val = 0), Fe.ofNat 0)) ∧
    (v.val ≠ 0 → ∀ w : Fe, w.val = u.val * v.val ^ (fieldPrime - 2) % fieldPrime →
      ((∃ r : Fe, r.val * r.val % fieldPrime = w.val) →
        ∃ r : Fe, Fe.sqrtRatio u v = (true, r) ∧ r.val * r.val % fieldPrime = w.val ∧ r.val % 2 = 0) ∧
      ((¬∃ r : Fe, r.val * r.val % fieldPrime = w.val) → Fe.sqrtRatio u v = (false, Fe.ofNat 0)))

/-- FSEL and FCSWAP (R153, R154). -/
def Obligations.SelectAndSwapFollowCf : Prop :=
  ∀ (s : State) (d a b : RegField),
    (encode (.fsel d a b) = packR 0x11 d a b 0 ∧ ∃ t, exec (.fsel d a b) s = .next t ∧
      t.readF d = (if s.cf = true then s.readF b else s.readF a) ∧ onlyWrites s t [d] [] []) ∧
    (encode (.fcswap a b) = packR 0x12 0 a b 0 ∧ ∃ t, exec (.fcswap a b) s = .next t ∧
      (s.cf = true → t.readF a = s.readF b ∧ t.readF b = s.readF a ∧ onlyWrites s t [a, b] [] []) ∧
      (s.cf = false → onlyWrites s t [] [] []))

/-- FEQ (R155). -/
def Obligations.FieldEqualitySetsCf : Prop :=
  ∀ (s : State) (a b : RegField),
    encode (.feq a b) = packR 0x13 0 a b 0 ∧
    ∃ t, exec (.feq a b) s = .next t ∧ onlyWritesCf s t [] [] [] (decide ((s.readF a).val = (s.readF b).val))

/-! ## Scalar arithmetic -/

/-- SLD and SLDW (R172, R173): 256 bits kept whole, and 512 bits reduced mod L. -/
def Obligations.ScalarLoads : Prop :=
  ∀ (s : State) (d : RegField) (addr : Half), d.toNat < 8 →
    (encode (.sld d addr) = packMI 0x18 d addr ∧ encode (.sldw d addr) = packMI 0x19 d addr) ∧
    (addr.toNat + 32 ≤ s.params.dmemSize → ∃ t, exec (.sld d addr) s = .next t ∧
      (t.readS d).toNat = leNat (s.memRead addr.toNat 32) ∧ onlyWrites s t [] [d] []) ∧
    (addr.toNat + 64 ≤ s.params.dmemSize → ∃ t, exec (.sldw d addr) s = .next t ∧
      (t.readS d).toNat = leNat (s.memRead addr.toNat 64) % Config.groupOrder ∧ onlyWrites s t [] [d] []) ∧
    (s.params.dmemSize < addr.toNat + 32 →
      ∃ t, exec (.sld d addr) s = .next t ∧ entersFault s t .dmemRange s.fetchWord) ∧
    (s.params.dmemSize < addr.toNat + 64 →
      ∃ t, exec (.sldw d addr) s = .next t ∧ entersFault s t .dmemRange s.fetchWord)

/-- SST (R174): all 256 bits, not reduced. -/
def Obligations.ScalarStoreWritesAllBits : Prop :=
  ∀ (s : State) (a : RegField) (addr : Half), a.toNat < 8 →
    encode (.sst a addr) = packMI 0x1A a addr ∧
    (addr.toNat + 32 ≤ s.params.dmemSize → ∃ t, exec (.sst a addr) s = .next t ∧
      t.memRead addr.toNat 32 = toLE 32 (s.readS a).toNat ∧
      leNat (t.memRead addr.toNat 32) = (s.readS a).toNat ∧ onlyStores s t addr.toNat 32) ∧
    (s.params.dmemSize < addr.toNat + 32 →
      ∃ t, exec (.sst a addr) s = .next t ∧ entersFault s t .dmemRange s.fetchWord)

/-- SLDI (R175). -/
def Obligations.ScalarImmediateIsZeroExtended : Prop :=
  ∀ (s : State) (d : RegField) (imm : Half), d.toNat < 8 →
    encode (.sldi d imm) = packMI 0x1B d imm ∧
    ∃ t, exec (.sldi d imm) s = .next t ∧ (t.readS d).toNat = imm.toNat ∧ onlyWrites s t [] [d] []

/-- SMULADD (R176): over the full 256-bit values, only the result reduced. -/
def Obligations.ScalarMultiplyAddIsModular : Prop :=
  ∀ (s : State) (d a b c : RegField), d.toNat < 8 → a.toNat < 8 → b.toNat < 8 → c.toNat < 8 →
    encode (.smuladd d a b c) = packR 0x1C d a b c ∧
    ∃ t, exec (.smuladd d a b c) s = .next t ∧
      (t.readS d).toNat = ((s.readS a).toNat * (s.readS b).toNat + (s.readS c).toNat) % Config.groupOrder ∧
      onlyWrites s t [] [d] []

/-- The SMULADD laws (R177): the result depends on the residues of the operands only. -/
def Obligations.MultiplyAddDependsOnResiduesOnly : Prop :=
  ∀ (s : State) (d a b c : RegField), d.toNat < 8 → a.toNat < 8 → b.toNat < 8 → c.toNat < 8 →
    ∃ t, exec (.smuladd d a b c) s = .next t ∧
      (t.readS d).toNat = ((s.readS a).toNat % Config.groupOrder * ((s.readS b).toNat % Config.groupOrder)
        + (s.readS c).toNat % Config.groupOrder) % Config.groupOrder

/-- SCLAMP (R180, R181): bit 255 cleared, bit 254 set, bits 2:0 cleared, every other bit kept; the result is a multiple
of 8 in [2^254, 2^255), and clamping it again changes nothing. -/
def Obligations.ClampFixesTheFiveBits : Prop :=
  (∀ (s : State) (d a : RegField), d.toNat < 8 → a.toNat < 8 →
    encode (.sclamp d a) = packR 0x1D d a 0 0 ∧
    ∃ t, exec (.sclamp d a) s = .next t ∧
      (∀ k < 256, (t.readS d).getLsbD k
        = if k = 255 then false else if k = 254 then true else if k < 3 then false else (s.readS a).getLsbD k) ∧
      onlyWrites s t [] [d] []) ∧
  (∀ v : Scalar, 2 ^ 254 ≤ (Scalar.clamp v).toNat ∧ (Scalar.clamp v).toNat < 2 ^ 255 ∧ (Scalar.clamp v).toNat % 8 = 0
    ∧ Scalar.clamp (Scalar.clamp v) = Scalar.clamp v)

/-- SCHK (R182). -/
def Obligations.CanonicalScalarTestSetsCf : Prop :=
  ∀ (s : State) (a : RegField), a.toNat < 8 →
    encode (.schk a) = packR 0x1E 0 a 0 0 ∧
    ∃ t, exec (.schk a) s = .next t ∧ onlyWritesCf s t [] [] [] (decide ((s.readS a).toNat < Config.groupOrder))

/-! ## Points -/

/-- PLD (R199): a decoded point is written with CF = 1; an invalid encoding leaves P[d] alone with CF = 0. -/
def Obligations.PointLoadWritesPointOrNothing : Prop :=
  ∀ (s : State) (d : RegField) (addr : Half), d.toNat < 8 →
    encode (.pld d addr) = packMI 0x20 d addr ∧
    (addr.toNat + 32 ≤ s.params.dmemSize →
      (∀ q, Point.decompress (s.memRead addr.toNat 32) s.soRej = some q → ∃ t, exec (.pld d addr) s = .next t ∧
        t.readP d = q ∧ onlyWritesCf s t [] [] [d] true) ∧
      (Point.decompress (s.memRead addr.toNat 32) s.soRej = none → ∃ t, exec (.pld d addr) s = .next t ∧
        onlyWritesCf s t [] [] [] false)) ∧
    (s.params.dmemSize < addr.toNat + 32 →
      ∃ t, exec (.pld d addr) s = .next t ∧ entersFault s t .dmemRange s.fetchWord)

/-- PST (R200): the compressed point. -/
def Obligations.PointStoreWritesTheCompressedPoint : Prop :=
  ∀ (s : State) (a : RegField) (addr : Half), a.toNat < 8 →
    encode (.pst a addr) = packMI 0x21 a addr ∧
    (addr.toNat + 32 ≤ s.params.dmemSize → ∃ t, exec (.pst a addr) s = .next t ∧
      t.memRead addr.toNat 32 = (s.readP a).compress ∧ onlyStores s t addr.toNat 32) ∧
    (s.params.dmemSize < addr.toNat + 32 →
      ∃ t, exec (.pst a addr) s = .next t ∧ entersFault s t .dmemRange s.fetchWord)

/-- compress (R197): 32 bytes, y in bits 254:0 and the sign of x in bit 7 of byte 31. -/
def Obligations.CompressedPointHoldsYAndSign : Prop :=
  ∀ q : Point, q.compress.length = 32 ∧ leNat q.compress = q.y.val + 2 ^ 255 * (q.x.val % 2) ∧
    leNat q.compress % 2 ^ 255 = q.y.val ∧
    ∀ b, q.compress[31]? = some b → b.getLsbD 7 = decide (q.x.val % 2 = 1)

/-- decompress (R198) accepts exactly the compressions of points of the curve, and under SOREJ = 1 exactly those not of
small order; so compressing and decompressing is the identity on the curve (R200). -/
def Obligations.DecompressAcceptsExactlyCompressions : Prop :=
  ∀ (b : List Byte) (sorej : Bool) (q : Point), b.length = 32 →
    (Point.decompress b sorej = some q ↔
      q.OnCurve ∧ q.compress = b ∧ ¬(sorej = true ∧ Point.mul 8 q = Config.identity))

/-- PIDENT and PBASE (R201, R202). -/
def Obligations.PointConstantsAreLoaded : Prop :=
  ∀ (s : State) (d : RegField), d.toNat < 8 →
    (encode (.pident d) = packR 0x22 d 0 0 0 ∧ ∃ t, exec (.pident d) s = .next t ∧
      (t.readP d).x.val = 0 ∧ (t.readP d).y.val = 1 ∧ onlyWrites s t [] [] [d]) ∧
    (encode (.pbase d) = packR 0x23 d 0 0 0 ∧ ∃ t, exec (.pbase d) s = .next t ∧
      (t.readP d).x.val = 0x216936d3cd6e53fec0a4e231fdd6dc5c692cc7609525a7b2c9562d608f25d51a ∧
      (t.readP d).y.val = 0x6666666666666666666666666666666666666666666666666666666666666658 ∧
      onlyWrites s t [] [] [d])

/-- PADD, PDBL, SMUL and DSMULV (R203 to R206), the scalars unreduced. `Point.mul` is the model's algorithm, log entry 6; that
it is the multiple of R195 is `ScalarMultipleIsRepeatedAddition`. -/
def Obligations.GroupInstructionsWriteTheirResult : Prop :=
  ∀ (s : State) (d a b k m : RegField), d.toNat < 8 → a.toNat < 8 → b.toNat < 8 → k.toNat < 8 → m.toNat < 8 →
    (encode (.padd d a b) = packR 0x24 d a b 0 ∧ ∃ t, exec (.padd d a b) s = .next t ∧
      t.readP d = Point.add (s.readP a) (s.readP b) ∧ onlyWrites s t [] [] [d]) ∧
    (encode (.pdbl d a) = packR 0x25 d a 0 0 ∧ ∃ t, exec (.pdbl d a) s = .next t ∧
      t.readP d = Point.add (s.readP a) (s.readP a) ∧ onlyWrites s t [] [] [d]) ∧
    (encode (.smul d k a) = packR 0x26 d k a 0 ∧ ∃ t, exec (.smul d k a) s = .next t ∧
      t.readP d = Point.mul (s.readS k).toNat (s.readP a) ∧ onlyWrites s t [] [] [d]) ∧
    (encode (.dsmulv d k a m) = packR 0x27 d k a m ∧ ∃ t, exec (.dsmulv d k a m) s = .next t ∧
      t.readP d = Point.add (Point.mul (s.readS k).toNat (s.readP a))
        (Point.mul (s.readS m).toNat Config.basePoint) ∧ onlyWrites s t [] [] [d])

/-- The group law of R192 on the curve: both denominators are nonzero, the sum's coordinates are the quotients the rule
gives, the sum lies on the curve (R191), the identity is neutral and the negation is the inverse. -/
def Obligations.GroupLawIsCompleteOnTheCurve : Prop :=
  ∀ a b : Point, a.OnCurve → b.OnCurve → ∀ t : Fe,
    t.val = Config.curveD.val * a.x.val * b.x.val * a.y.val * b.y.val % fieldPrime →
    (Fe.add (Fe.ofNat 1) t).val ≠ 0 ∧ (Fe.sub (Fe.ofNat 1) t).val ≠ 0 ∧
    (Point.add a b).x.val * (1 + t.val) % fieldPrime
      = (a.x.val * b.y.val + a.y.val * b.x.val) % fieldPrime ∧
    (Point.add a b).y.val * (1 + (fieldPrime - t.val)) % fieldPrime
      = (a.y.val * b.y.val + a.x.val * b.x.val) % fieldPrime ∧
    (Point.add a b).OnCurve ∧ Point.add a Config.identity = a ∧ Point.add Config.identity a = a ∧
    (Point.neg a).x.val = (fieldPrime - a.x.val) % fieldPrime ∧ (Point.neg a).y = a.y ∧
    Point.add a (Point.neg a) = Config.identity

/-- Scalar multiplication (R195): 0*Q = O and (k+1)*Q = k*Q + Q, for every point of the curve and every k. The
algorithm is the model's choice, log entry 6. -/
def Obligations.ScalarMultipleIsRepeatedAddition : Prop :=
  ∀ q : Point, q.OnCurve →
    Point.mul 0 q = Config.identity ∧ ∀ k : Nat, Point.mul (k + 1) q = Point.add (Point.mul k q) q

/-- The reference datapaths (R193, R194) represent the sum and the double of R192. -/
def Obligations.ExtendedDatapathsRepresentTheGroupLaw : Prop :=
  ∀ (a b : Point) (e f : ExtPoint), a.OnCurve → b.OnCurve → ExtRepresents e a → ExtRepresents f b →
    ExtRepresents (ExtPoint.add e f) (Point.add a b) ∧ ExtRepresents (ExtPoint.double e) (Point.add a a)

/-- The group laws of R211. -/
def Obligations.GroupLawProperties : Prop :=
  (∀ q : Point, q.OnCurve →
    Point.add q Config.identity = q ∧ Point.double q = Point.add q q ∧
    Point.mul 0 q = Config.identity ∧ Point.mul 1 q = q ∧
    Point.decompress q.compress false = some q ∧
    (Point.mul 8 q ≠ Config.identity → Point.decompress q.compress true = some q)) ∧
  Point.mul Config.groupOrder Config.basePoint = Config.identity

/-- PEQ and PSMALL (R207, R209). -/
def Obligations.PointChecksSetCf : Prop :=
  ∀ (s : State) (a b : RegField), a.toNat < 8 → b.toNat < 8 →
    (encode (.peq a b) = packR 0x28 0 a b 0 ∧ ∃ t, exec (.peq a b) s = .next t ∧
      onlyWritesCf s t [] [] [] (decide (s.readP a = s.readP b))) ∧
    (encode (.psmall a) = packR 0x29 0 a 0 0 ∧ ∃ t, exec (.psmall a) s = .next t ∧
      onlyWritesCf s t [] [] [] (decide (Point.mul 8 (s.readP a) = Config.identity)))

/-- The eight encodings of R208's table, written as the table writes them (the first byte leftmost), each with the order of
its row: it decodes to a point of exactly that order, which is of small order, and the strict policy rejects it (R199,
R51). The multiples are those of `Point.mul`, the model's algorithm, log entry 6. -/
def Obligations.SmallOrderEncodingsFollowThePolicy : Prop :=
  ∀ row ∈
    [(1, 0x0100000000000000000000000000000000000000000000000000000000000000),
     (8, 0xc7176a703d4dd84fba3c0b760d10670f2a2053fa2c39ccc64ec7fd7792ac037a),
     (4, 0x0000000000000000000000000000000000000000000000000000000000000080),
     (8, 0x26e8958fc2b227b045c3f489f2ef98f0d5dfac05d3c63339b13802886d53fc05),
     (2, 0xecffffffffffffffffffffffffffffffffffffffffffffffffffffffffffff7f),
     (8, 0x26e8958fc2b227b045c3f489f2ef98f0d5dfac05d3c63339b13802886d53fc85),
     (4, 0x0000000000000000000000000000000000000000000000000000000000000000),
     (8, 0xc7176a703d4dd84fba3c0b760d10670f2a2053fa2c39ccc64ec7fd7792ac03fa)],
    (∃ q, Point.decompress (toLE 32 row.2).reverse false = some q ∧ q.OnCurve ∧
      Point.mul row.1 q = Config.identity ∧ (∀ m < row.1, 0 < m → Point.mul m q ≠ Config.identity) ∧
      Point.mul 8 q = Config.identity) ∧
    Point.decompress (toLE 32 row.2).reverse true = none

/-- PAFF (R210): x is written first, so y wins when both name one register. -/
def Obligations.AffineCoordinatesAreWritten : Prop :=
  ∀ (s : State) (x y a : RegField), a.toNat < 8 →
    encode (.paff x y a) = packR 0x2A x y a 0 ∧
    ∃ t, exec (.paff x y a) s = .next t ∧ t.readF y = (s.readP a).y ∧ (x ≠ y → t.readF x = (s.readP a).x) ∧
      onlyWrites s t [x, y] [] []

/-! ## The whole machine -/

/-- Every step keeps every point register on the curve (R34, R191). -/
def Obligations.StepKeepsPointsOnCurve : Prop :=
  ∀ s t : State, s.PointsOnCurve → step s = .next t → t.PointsOnCurve

/-- Every step keeps the sizes legal (R7) and both memories in canonical form and within their sizes (R70, R74,
R81). The canonical form is the model's choice, log entry 1. -/
def Obligations.StepKeepsMemoryCanonical : Prop :=
  ∀ s t : State, s.params.Legal → s.MemoryWf → step s = .next t → t.params.Legal ∧ t.MemoryWf

/-- Every step keeps DONE and ERR exclusive, both 0 while BUSY, and CAUSE nonzero exactly with ERR (R44, R52, R53,
R232). -/
def Obligations.StepKeepsStatusConsistent : Prop :=
  ∀ s t : State, s.StatusConsistent → step s = .next t → t.StatusConsistent

/-- The state after reset meets every invariant. Its sizes are the defaults, the model's choice, log entry 7. -/
def Obligations.ResetMeetsTheInvariants : Prop :=
  State.reset.PointsOnCurve ∧ State.reset.MemoryWf ∧ State.reset.StatusConsistent ∧ State.reset.params.Legal

/-- What reset leaves (R260, R261): at power-on, and whenever the platform asserts it, BUSY or IDLE; the sizes that
IMEMWORDS and DMEMSIZE read are then those from before the reset. -/
def Obligations.ResetGivesEveryResetValue : Prop :=
  State.reset.HasResetValues ∧
  ∀ (s : State) (rest : List HostEvent), s.inputs = .reset :: rest →
    ∃ t, step s = .next t ∧ t.HasResetValues ∧ t.params = s.params

/-- Only FSQRT, FEQ, SCHK, PLD, PEQ and PSMALL write CF (R36), and not when they fault. -/
def Obligations.OnlySixInstructionsWriteCf : Prop :=
  ∀ (i : Instr) (s t : State), exec i s = .next t →
    (i.writesCf = false → t.cf = s.cf) ∧ (t.retired = s.retired → t.cf = s.cf)

/-- No instruction writes IMEM (R71), CTRL's policy bits or HERR (R246), and only FST, SST and PST write DMEM (R72,
R73). -/
def Obligations.InstructionsKeepImemAndHostRegisters : Prop :=
  ∀ (i : Instr) (s t : State), exec i s = .next t →
    t.imem = s.imem ∧ t.irqEn = s.irqEn ∧ t.soRej = s.soRej ∧ t.herr = s.herr ∧ t.params = s.params ∧
    (i.mnemonic ∉ ["FST", "SST", "PST"] → keepsDmem s t)

/-! ## The host's side -/

/-- START (R44): IDLE, it clears DONE, ERR, CAUSE and RETIRED and the core goes BUSY; BUSY, it is ignored and sets
HERR. The other bits of the write: an ABORT is ignored while IDLE; START with ZEROIZE, and START with ABORT while BUSY,
are in `ControlWriteActsInOrder`. -/
def Obligations.StartBeginsARun : Prop :=
  ∀ (s : State) (rest : List HostEvent) (w : Word), s.inputs = .write 0x0004 4 w :: rest → w.getLsbD 0 = true →
    (s.run = .idle → w.getLsbD 2 = false → step s = .next { s with
      inputs := rest, irqEn := w.getLsbD 8, soRej := w.getLsbD 9,
      done := false, err := false, cause := .none, retired := 0, run := .busy }) ∧
    (s.run = .busy → w.getLsbD 1 = false →
      step s = .next { s with inputs := rest, irqEn := w.getLsbD 8, herr := true })

/-- ABORT (R45, R237): BUSY, it stops the run at the boundary before the instruction at pc; IDLE, it is ignored and does
not set HERR. ABORT with a changed SOREJ or another action while BUSY is in `ControlWriteActsInOrder`. -/
def Obligations.AbortStopsTheRun : Prop :=
  ∀ (s : State) (rest : List HostEvent) (w : Word), s.inputs = .write 0x0004 4 w :: rest →
    w.getLsbD 0 = false → w.getLsbD 1 = true → w.getLsbD 2 = false →
    (s.run = .busy → w.getLsbD 9 = s.soRej → step s = .next { s with
      inputs := rest, irqEn := w.getLsbD 8, err := true, cause := .aborted, faultPc := s.pc, faultInsn := 0,
      run := .idle }) ∧
    (s.run = .idle → step s = .next { s with inputs := rest, irqEn := w.getLsbD 8, soRej := w.getLsbD 9 })

/-- ZEROIZE (R46): IDLE, it clears F, S, P, CF and every DMEM byte and nothing else; BUSY, it is ignored and sets
HERR. ZEROIZE with START while IDLE, and with ABORT while BUSY, are in `ControlWriteActsInOrder`. -/
def Obligations.ZeroizeClearsSecrets : Prop :=
  ∀ (s : State) (rest : List HostEvent) (w : Word), s.inputs = .write 0x0004 4 w :: rest → w.getLsbD 2 = true →
    (s.run = .idle → w.getLsbD 0 = false → ∃ t, step s = .next t ∧
      (∀ r, (t.readF r).val = 0) ∧ (∀ r, (t.readS r).toNat = 0) ∧ (∀ r, t.readP r = Config.identity) ∧ t.cf = false ∧
      (∀ a < s.params.dmemSize, t.dmemByte a = 0) ∧
      t = { s with
        inputs := rest, irqEn := w.getLsbD 8, soRej := w.getLsbD 9,
        fregs := t.fregs, sregs := t.sregs, pregs := t.pregs, cf := t.cf, dmem := t.dmem }) ∧
    (s.run = .busy → w.getLsbD 1 = false →
      step s = .next { s with inputs := rest, irqEn := w.getLsbD 8, herr := true })

/-- The order of one CTRL write (R47): IRQEN and SOREJ first, then ABORT if BUSY; otherwise ZEROIZE and then START, so one
write clears the state, sets the policy and starts a run. What HERR becomes when ABORT comes with another bit is not
claimed here (log entry 5). -/
def Obligations.ControlWriteActsInOrder : Prop :=
  ∀ (s : State) (rest : List HostEvent) (w : Word), s.inputs = .write 0x0004 4 w :: rest →
    (s.run = .idle → w.getLsbD 2 = true → w.getLsbD 0 = true → ∃ t, step s = .next t ∧
      (∀ r, (t.readF r).val = 0) ∧ (∀ r, (t.readS r).toNat = 0) ∧ (∀ r, t.readP r = Config.identity) ∧ t.cf = false ∧
      (∀ a < s.params.dmemSize, t.dmemByte a = 0) ∧
      t = { s with
        inputs := rest, irqEn := w.getLsbD 8, soRej := w.getLsbD 9,
        done := false, err := false, cause := .none, retired := 0, run := .busy,
        fregs := t.fregs, sregs := t.sregs, pregs := t.pregs, cf := t.cf, dmem := t.dmem }) ∧
    (s.run = .busy → w.getLsbD 1 = true → ∃ t, step s = .next t ∧
      t = { s with
        inputs := rest, irqEn := w.getLsbD 8, err := true, cause := .aborted, faultPc := s.pc, faultInsn := 0,
        run := .idle, herr := t.herr })

/-- CTRL's RW fields while BUSY (R48): IRQEN is updated at once, a changed SOREJ is left and sets HERR, the same SOREJ
sets nothing; and no step from a BUSY state changes SOREJ, reset apart. -/
def Obligations.SorejIsConstantDuringARun : Prop :=
  (∀ (s : State) (rest : List HostEvent) (w : Word), s.run = .busy → s.inputs = .write 0x0004 4 w :: rest →
    w.getLsbD 0 = false → w.getLsbD 1 = false → w.getLsbD 2 = false →
    step s = .next { s with
      inputs := rest, irqEn := w.getLsbD 8, herr := if w.getLsbD 9 = s.soRej then s.herr else true }) ∧
  (∀ s t : State, s.run = .busy → (∀ rest, s.inputs ≠ .reset :: rest) → step s = .next t → t.soRej = s.soRej)

/-- The memory windows are closed while BUSY (R82): a read returns 0, a write is ignored, and each sets HERR. The PC
register (R55): a write takes bits 15:0 while IDLE, whatever they are, and while BUSY it is ignored and sets HERR; a read
returns pc, BUSY or IDLE, with bits 31:16 zero; the range check comes at the fetch; reset leaves 0. -/
def Obligations.BusyWindowsAreClosed : Prop :=
  (∀ (s : State) (rest : List HostEvent) (offset : Half) (w : Word), s.run = .busy → 0x4000 ≤ offset.toNat →
    offset.toNat % 4 = 0 →
    (s.inputs = .read offset 4 :: rest →
      step s = .next { s with inputs := rest, herr := true, readData := some 0 }) ∧
    (s.inputs = .write offset 4 w :: rest → step s = .next { s with inputs := rest, herr := true })) ∧
  (∀ (s : State) (rest : List HostEvent) (w : Word), s.inputs = .write 0x000C 4 w :: rest →
    (s.run = .idle → step s = .next { s with inputs := rest, pc := w.extractLsb' 0 16 }) ∧
    (s.run = .busy → step s = .next { s with inputs := rest, herr := true })) ∧
  (∀ s : State, ∃ v : Word, v.toNat = s.pc.toNat ∧ s.readsAs 0x000C v) ∧
  (∀ s u : State, s.CoreTurn u → u.run = .busy → u.params.imemWords ≤ u.pc.toNat →
    ∃ t, step s = .next t ∧ entersFault u t .imemRange 0) ∧
  State.reset.pc.toNat = 0

/-- The memory windows while IDLE (R77, R79, R80, R81). A write of w at 0x8000 + 4j sets byte 4j + i to bits 8i+7:8i of w
and no other byte, and a read there returns the four bytes as a little-endian integer. A write of w at 0x4000 + 4i sets
IMEM word i to w and no other word, and a read there returns word i. Beyond IMEM_WORDS or DMEM_SIZE a read returns 0 and
a write is ignored, with no HERR. BUSY, every window offset is in `BusyWindowsAreClosed`. -/
def Obligations.HostWindowLanesAreLittleEndian : Prop :=
  ∀ s : State, s.run = .idle → s.params.Legal →
    (∀ j : Nat, 4 * j < s.params.dmemSize →
      (∀ (rest : List HostEvent) (w : Word), s.inputs = .write (BitVec.ofNat 16 (0x8000 + 4 * j)) 4 w :: rest →
        ∃ t, step s = .next t ∧ (∀ i < 4, t.dmemByte (4 * j + i) = w.extractLsb' (8 * i) 8) ∧
          keepsDmemOutside s t (4 * j) 4 ∧ t = { s with inputs := rest, dmem := t.dmem }) ∧
      ∃ v : Word, v.toNat = leNat (s.memRead (4 * j) 4) ∧ s.readsAs (BitVec.ofNat 16 (0x8000 + 4 * j)) v) ∧
    (∀ i < s.params.imemWords,
      (∀ (rest : List HostEvent) (w : Word), s.inputs = .write (BitVec.ofNat 16 (0x4000 + 4 * i)) 4 w :: rest →
        ∃ t, step s = .next t ∧ t.imemWord i = w ∧ (∀ k, k ≠ i → t.imemWord k = s.imemWord k) ∧
          t = { s with inputs := rest, imem := t.imem }) ∧
      s.readsAs (BitVec.ofNat 16 (0x4000 + 4 * i)) (s.imemWord i)) ∧
    (∀ i < 4096, s.params.imemWords ≤ i →
      s.readsAs (BitVec.ofNat 16 (0x4000 + 4 * i)) 0 ∧ s.ignoresWrite (BitVec.ofNat 16 (0x4000 + 4 * i))) ∧
    (∀ j < 8192, s.params.dmemSize ≤ 4 * j →
      s.readsAs (BitVec.ofNat 16 (0x8000 + 4 * j)) 0 ∧ s.ignoresWrite (BitVec.ofNat 16 (0x8000 + 4 * j)))

/-- STATUS is written by clearing bits (R53, R54), and the interrupt output follows DONE and ERR (R242). -/
def Obligations.StatusWriteClearsAndIrqFollows : Prop :=
  (∀ (s : State) (rest : List HostEvent) (w : Word), s.inputs = .write 0x0008 4 w :: rest →
    step s = .next { s with
      inputs := rest
      done := if w.getLsbD 1 = true then false else s.done
      err := if w.getLsbD 2 = true then false else s.err
      cause := if w.getLsbD 2 = true then .none else s.cause
      herr := if w.getLsbD 4 = true then false else s.herr }) ∧
  (∀ s : State, s.irq = true ↔ s.irqEn = true ∧ (s.done = true ∨ s.err = true))

/-- A host access of another width or alignment has no meaning (R83): the model refuses it, whatever the state. -/
def Obligations.OtherHostAccessesAreRefused : Prop :=
  ∀ (s : State) (rest : List HostEvent) (offset : Half) (bytes : Nat) (w : Word),
    bytes ≠ 4 ∨ offset.toNat % 4 ≠ 0 →
    (s.inputs = .read offset bytes :: rest → step s = .refused .hostAccessForm) ∧
    (s.inputs = .write offset bytes w :: rest → step s = .refused .hostAccessForm)

/-- The register block as the host reads it, BUSY or IDLE: offset by offset (R41), CTRL and STATUS bit by bit (R43, R49, R52)
with the cause codes of R233, PC, FAULTPC, FAULTINSN, RETIRED and the constants (R55 to R61). A reserved offset reads 0
and ignores writes (R62), and a read-only register ignores writes (R42). No read reveals a register file (R31, R33, R34,
R244): two states that differ in the register files alone give every host read the same answer, and still differ in the
register files alone. -/
def Obligations.HostReadsDoNotRevealRegisters : Prop :=
  (∀ s : State,
    s.readsAs 0x0000 0xED255190 ∧
    (∃ ctrl : Word, s.readsAs 0x0004 ctrl ∧ ctrl.getLsbD 8 = s.irqEn ∧ ctrl.getLsbD 9 = s.soRej ∧
      ∀ k, k ≠ 8 → k ≠ 9 → ctrl.getLsbD k = false) ∧
    (∃ status : Word, s.readsAs 0x0008 status ∧ status.getLsbD 0 = decide (s.run = .busy) ∧
      status.getLsbD 1 = s.done ∧ status.getLsbD 2 = s.err ∧ status.getLsbD 3 = s.cf ∧ status.getLsbD 4 = s.herr ∧
      (∀ row ∈ [(Cause.none, 0), (.illegal, 1), (.dmemRange, 2), (.imemRange, 3), (.aborted, 4)],
        s.cause = row.1 → (status.extractLsb' 8 4).toNat = row.2) ∧
      ∀ k, (5 ≤ k ∧ k < 8) ∨ 12 ≤ k → status.getLsbD k = false) ∧
    (∃ v : Word, v.toNat = s.pc.toNat ∧ s.readsAs 0x000C v) ∧
    (∃ v : Word, v.toNat = s.faultPc.toNat ∧ s.readsAs 0x0010 v) ∧
    s.readsAs 0x0014 s.faultInsn ∧ s.readsAs 0x0018 s.retired ∧
    (s.params.Legal → (∃ v : Word, v.toNat = s.params.imemWords ∧ s.readsAs 0x001C v) ∧
      ∃ v : Word, v.toNat = s.params.dmemSize ∧ s.readsAs 0x0020 v) ∧
    (∀ offset : Half, 0x0024 ≤ offset.toNat → offset.toNat < 0x4000 → offset.toNat % 4 = 0 →
      s.readsAs offset 0 ∧ s.ignoresWrite offset) ∧
    ∀ offset ∈ [0x0000, 0x0010, 0x0014, 0x0018, 0x001C, 0x0020], s.ignoresWrite offset) ∧
  (∀ (s u t : State) (rest : List HostEvent) (offset : Half), s.inputs = .read offset 4 :: rest →
    u = { s with fregs := u.fregs, sregs := u.sregs, pregs := u.pregs } → step s = .next t →
    step u = .next { t with fregs := u.fregs, sregs := u.sregs, pregs := u.pregs })
end

