-- ==== Sys2Proof/Laws/Arith.lean ====
section
/-! SUPPORT. What the field and scalar units compute, as integers: one lemma per operation. -/

namespace Sys2Proof

@[simp] theorem Fe.ofNat_val (n : Nat) : (Fe.ofNat n).val = n % fieldPrime := rfl

theorem Fe.ofNat_of_lt {n : Nat} (h : n < fieldPrime) : (Fe.ofNat n).val = n := Nat.mod_eq_of_lt h

@[simp] theorem Fe.ofNat_val_self (a : Fe) : Fe.ofNat a.val = a := Fin.ext (Nat.mod_eq_of_lt a.isLt)

theorem Fe.add_val (a b : Fe) : (Fe.add a b).val = (a.val + b.val) % fieldPrime := rfl

theorem Fe.mul_val (a b : Fe) : (Fe.mul a b).val = a.val * b.val % fieldPrime := rfl

theorem Fe.sqr_eq_mul (a : Fe) : Fe.sqr a = Fe.mul a a := rfl

/-- Subtraction is the least non-negative residue of the integer difference (R8, R146). -/
theorem Fe.sub_val (a b : Fe) : ((Fe.sub a b).val : Int) = ((a.val : Int) - b.val) % fieldPrime := by
  have hb := Nat.le_of_lt b.isLt
  simp only [Fe.sub, Fe.ofNat_val, Int.natCast_emod, Int.natCast_add, Int.natCast_sub hb]
  rw [show (a.val : Int) + (fieldPrime - b.val) = (a.val - b.val) + fieldPrime by ring, Int.add_emod_right]

theorem Fe.neg_val (a : Fe) : (Fe.neg a).val = (fieldPrime - a.val) % fieldPrime := rfl

theorem Fe.powBits_val (a : Fe) (n e : Nat) (h : e < 2 ^ n) : (Fe.powBits a n e).val = a.val ^ e % fieldPrime := by
  induction n generalizing e with
  | zero =>
    obtain rfl : e = 0 := by simpa using h
    simp [Fe.powBits]
  | succ n ih =>
    unfold Fe.powBits
    split
    · subst e; simp
    · have hh := ih (e / 2) (by rw [Nat.pow_succ] at h; omega)
      have hsq : (Fe.sqr (Fe.powBits a n (e / 2))).val = a.val ^ (e / 2 + e / 2) % fieldPrime := by
        simp only [Fe.sqr, Fe.ofNat_val, hh]
        rw [← Nat.mul_mod, pow_add]
      dsimp only
      split
      · have he : e = e / 2 + e / 2 + 1 := by omega
        rw [Fe.mul_val, hsq]
        conv_rhs => rw [he, pow_succ]
        rw [Nat.mod_mul_mod]
      · have he : e = e / 2 + e / 2 := by omega
        rw [hsq]
        conv_rhs => rw [he]

/-- `Fe.pow` is the power, reduced. -/
theorem Fe.pow_val (a : Fe) (e : Nat) : (Fe.pow a e).val = a.val ^ e % fieldPrime :=
  Fe.powBits_val a _ e Nat.lt_log2_self

theorem Scalar.reduce_toNat (n : Nat) : (Scalar.reduce n).toNat = n % Config.groupOrder := by
  have h : n % Config.groupOrder < 2 ^ 256 :=
    Nat.lt_trans (Nat.mod_lt n (by decide)) (by decide)
  simp only [Scalar.reduce, BitVec.toNat_ofNat]
  exact Nat.mod_eq_of_lt h

end Sys2Proof
end

