-- ==== Sys2Proof/Laws/Encoding.lean ====
section
/-! SUPPORT. The fields of a packed word, one lemma per field and format. -/

namespace Sys2Proof

theorem bitsAt_toNat (w : Word) (lo n : Nat) : (bitsAt w lo n).toNat = w.toNat / 2 ^ lo % 2 ^ n := by
  simp [bitsAt, Nat.shiftRight_eq_div_pow]

section R
variable {op : Nat} (h : op < 64) (rd ra rb rc : RegField)
include h

theorem packR_toNat : (packR op rd ra rb rc).toNat =
    op * 2 ^ 26 + rd.toNat * 2 ^ 22 + ra.toNat * 2 ^ 18 + rb.toNat * 2 ^ 14 + rc.toNat * 2 ^ 10 := by
  have := rd.isLt; have := ra.isLt; have := rb.isLt; have := rc.isLt
  simp only [packR, BitVec.toNat_ofNat]
  omega

theorem opcodeField_packR : opcodeField (packR op rd ra rb rc) = op := by
  have := rd.isLt; have := ra.isLt; have := rb.isLt; have := rc.isLt
  simp only [opcodeField, bitsAt_toNat, packR_toNat h]
  omega

theorem rdField_packR : rdField (packR op rd ra rb rc) = rd := by
  have := rd.isLt; have := ra.isLt; have := rb.isLt; have := rc.isLt
  apply BitVec.eq_of_toNat_eq
  simp only [rdField, bitsAt_toNat, packR_toNat h]
  omega

theorem raField_packR : raField (packR op rd ra rb rc) = ra := by
  have := rd.isLt; have := ra.isLt; have := rb.isLt; have := rc.isLt
  apply BitVec.eq_of_toNat_eq
  simp only [raField, bitsAt_toNat, packR_toNat h]
  omega

theorem rbField_packR : rbField (packR op rd ra rb rc) = rb := by
  have := rd.isLt; have := ra.isLt; have := rb.isLt; have := rc.isLt
  apply BitVec.eq_of_toNat_eq
  simp only [rbField, bitsAt_toNat, packR_toNat h]
  omega

theorem rcField_packR : rcField (packR op rd ra rb rc) = rc := by
  have := rd.isLt; have := ra.isLt; have := rb.isLt; have := rc.isLt
  apply BitVec.eq_of_toNat_eq
  simp only [rcField, bitsAt_toNat, packR_toNat h]
  omega

theorem low10_packR : bitsAt (packR op rd ra rb rc) 0 10 = 0#10 := by
  have := rd.isLt; have := ra.isLt; have := rb.isLt; have := rc.isLt
  apply BitVec.eq_of_toNat_eq
  simp only [bitsAt_toNat, packR_toNat h, BitVec.toNat_ofNat]
  omega

theorem low14_packR : bitsAt (packR op rd ra rb 0#4) 0 14 = 0#14 := by
  have := rd.isLt; have := ra.isLt; have := rb.isLt
  apply BitVec.eq_of_toNat_eq
  simp only [bitsAt_toNat, packR_toNat h, BitVec.toNat_ofNat]
  omega

theorem low18_packR : bitsAt (packR op rd ra 0#4 0#4) 0 18 = 0#18 := by
  have := rd.isLt; have := ra.isLt
  apply BitVec.eq_of_toNat_eq
  simp only [bitsAt_toNat, packR_toNat h, BitVec.toNat_ofNat]
  omega

theorem low22_packR : bitsAt (packR op rd 0#4 0#4 0#4) 0 22 = 0#22 := by
  have := rd.isLt
  apply BitVec.eq_of_toNat_eq
  simp only [bitsAt_toNat, packR_toNat h, BitVec.toNat_ofNat]
  omega

end R

section MI
variable {op : Nat} (h : op < 64) (r : RegField) (v : Half)
include h

theorem packMI_toNat : (packMI op r v).toNat = op * 2 ^ 26 + r.toNat * 2 ^ 22 + v.toNat := by
  have := r.isLt; have := v.isLt
  simp only [packMI, BitVec.toNat_ofNat]
  omega

theorem opcodeField_packMI : opcodeField (packMI op r v) = op := by
  have := r.isLt; have := v.isLt
  simp only [opcodeField, bitsAt_toNat, packMI_toNat h]
  omega

theorem rdField_packMI : rdField (packMI op r v) = r := by
  have := r.isLt; have := v.isLt
  apply BitVec.eq_of_toNat_eq
  simp only [rdField, bitsAt_toNat, packMI_toNat h]
  omega

theorem lowHalf_packMI : lowHalf (packMI op r v) = v := by
  have := r.isLt; have := v.isLt
  apply BitVec.eq_of_toNat_eq
  simp only [lowHalf, bitsAt_toNat, packMI_toNat h]
  omega

theorem mid6_packMI : bitsAt (packMI op r v) 16 6 = 0#6 := by
  have := r.isLt; have := v.isLt
  apply BitVec.eq_of_toNat_eq
  simp only [bitsAt_toNat, packMI_toNat h, BitVec.toNat_ofNat]
  omega

end MI

section J
variable {op : Nat} (h : op < 64) (t : Half)
include h

theorem packJ_toNat : (packJ op t).toNat = op * 2 ^ 26 + t.toNat := by
  have := t.isLt
  simp only [packJ, BitVec.toNat_ofNat]
  omega

theorem opcodeField_packJ : opcodeField (packJ op t) = op := by
  have := t.isLt
  simp only [opcodeField, bitsAt_toNat, packJ_toNat h]
  omega

theorem lowHalf_packJ : lowHalf (packJ op t) = t := by
  have := t.isLt
  apply BitVec.eq_of_toNat_eq
  simp only [lowHalf, bitsAt_toNat, packJ_toNat h]
  omega

theorem mid10_packJ : bitsAt (packJ op t) 16 10 = 0#10 := by
  have := t.isLt
  apply BitVec.eq_of_toNat_eq
  simp only [bitsAt_toNat, packJ_toNat h, BitVec.toNat_ofNat]
  omega

theorem low26_packJ : bitsAt (packJ op 0#16) 0 26 = 0#26 := by
  apply BitVec.eq_of_toNat_eq
  simp only [bitsAt_toNat, packJ_toNat h, BitVec.toNat_ofNat]
  omega

end J

end Sys2Proof
end

