-- ==== Sys2Proof/Laws/State.lean ====
section
/-! SUPPORT. One lemma per field per update of the state, so that no later proof unfolds a record update. -/

namespace Sys2Proof.Machine

/-! `writeF`. -/

@[simp] theorem State.writeF_fregs (s : State) (r : RegField) (v : Fe) :
    (s.writeF r v).fregs = s.fregs.set r.toNat v r.isLt := rfl
@[simp] theorem State.writeF_sregs (s : State) (r : RegField) (v : Fe) : (s.writeF r v).sregs = s.sregs := rfl
@[simp] theorem State.writeF_pregs (s : State) (r : RegField) (v : Fe) : (s.writeF r v).pregs = s.pregs := rfl
@[simp] theorem State.writeF_cf (s : State) (r : RegField) (v : Fe) : (s.writeF r v).cf = s.cf := rfl
@[simp] theorem State.writeF_pc (s : State) (r : RegField) (v : Fe) : (s.writeF r v).pc = s.pc := rfl
@[simp] theorem State.writeF_run (s : State) (r : RegField) (v : Fe) : (s.writeF r v).run = s.run := rfl
@[simp] theorem State.writeF_irqEn (s : State) (r : RegField) (v : Fe) : (s.writeF r v).irqEn = s.irqEn := rfl
@[simp] theorem State.writeF_soRej (s : State) (r : RegField) (v : Fe) : (s.writeF r v).soRej = s.soRej := rfl
@[simp] theorem State.writeF_done (s : State) (r : RegField) (v : Fe) : (s.writeF r v).done = s.done := rfl
@[simp] theorem State.writeF_err (s : State) (r : RegField) (v : Fe) : (s.writeF r v).err = s.err := rfl
@[simp] theorem State.writeF_herr (s : State) (r : RegField) (v : Fe) : (s.writeF r v).herr = s.herr := rfl
@[simp] theorem State.writeF_cause (s : State) (r : RegField) (v : Fe) : (s.writeF r v).cause = s.cause := rfl
@[simp] theorem State.writeF_faultPc (s : State) (r : RegField) (v : Fe) :
    (s.writeF r v).faultPc = s.faultPc := rfl
@[simp] theorem State.writeF_faultInsn (s : State) (r : RegField) (v : Fe) :
    (s.writeF r v).faultInsn = s.faultInsn := rfl
@[simp] theorem State.writeF_retired (s : State) (r : RegField) (v : Fe) :
    (s.writeF r v).retired = s.retired := rfl
@[simp] theorem State.writeF_imem (s : State) (r : RegField) (v : Fe) : (s.writeF r v).imem = s.imem := rfl
@[simp] theorem State.writeF_dmem (s : State) (r : RegField) (v : Fe) : (s.writeF r v).dmem = s.dmem := rfl
@[simp] theorem State.writeF_params (s : State) (r : RegField) (v : Fe) : (s.writeF r v).params = s.params := rfl
@[simp] theorem State.writeF_epoch (s : State) (r : RegField) (v : Fe) : (s.writeF r v).epoch = s.epoch := rfl
@[simp] theorem State.writeF_inputs (s : State) (r : RegField) (v : Fe) : (s.writeF r v).inputs = s.inputs := rfl
@[simp] theorem State.writeF_readData (s : State) (r : RegField) (v : Fe) :
    (s.writeF r v).readData = s.readData := rfl

/-! `writeS`. -/

@[simp] theorem State.writeS_fregs (s : State) (r : RegField) (v : Scalar) : (s.writeS r v).fregs = s.fregs := rfl
@[simp] theorem State.writeS_sregs (s : State) (r : RegField) (v : Scalar) :
    (s.writeS r v).sregs = s.sregs.set (r.toNat % 8) v (Nat.mod_lt _ (by decide)) := rfl
@[simp] theorem State.writeS_pregs (s : State) (r : RegField) (v : Scalar) : (s.writeS r v).pregs = s.pregs := rfl
@[simp] theorem State.writeS_cf (s : State) (r : RegField) (v : Scalar) : (s.writeS r v).cf = s.cf := rfl
@[simp] theorem State.writeS_pc (s : State) (r : RegField) (v : Scalar) : (s.writeS r v).pc = s.pc := rfl
@[simp] theorem State.writeS_run (s : State) (r : RegField) (v : Scalar) : (s.writeS r v).run = s.run := rfl
@[simp] theorem State.writeS_irqEn (s : State) (r : RegField) (v : Scalar) : (s.writeS r v).irqEn = s.irqEn := rfl
@[simp] theorem State.writeS_soRej (s : State) (r : RegField) (v : Scalar) : (s.writeS r v).soRej = s.soRej := rfl
@[simp] theorem State.writeS_done (s : State) (r : RegField) (v : Scalar) : (s.writeS r v).done = s.done := rfl
@[simp] theorem State.writeS_err (s : State) (r : RegField) (v : Scalar) : (s.writeS r v).err = s.err := rfl
@[simp] theorem State.writeS_herr (s : State) (r : RegField) (v : Scalar) : (s.writeS r v).herr = s.herr := rfl
@[simp] theorem State.writeS_cause (s : State) (r : RegField) (v : Scalar) : (s.writeS r v).cause = s.cause := rfl
@[simp] theorem State.writeS_faultPc (s : State) (r : RegField) (v : Scalar) :
    (s.writeS r v).faultPc = s.faultPc := rfl
@[simp] theorem State.writeS_faultInsn (s : State) (r : RegField) (v : Scalar) :
    (s.writeS r v).faultInsn = s.faultInsn := rfl
@[simp] theorem State.writeS_retired (s : State) (r : RegField) (v : Scalar) :
    (s.writeS r v).retired = s.retired := rfl
@[simp] theorem State.writeS_imem (s : State) (r : RegField) (v : Scalar) : (s.writeS r v).imem = s.imem := rfl
@[simp] theorem State.writeS_dmem (s : State) (r : RegField) (v : Scalar) : (s.writeS r v).dmem = s.dmem := rfl
@[simp] theorem State.writeS_params (s : State) (r : RegField) (v : Scalar) :
    (s.writeS r v).params = s.params := rfl
@[simp] theorem State.writeS_epoch (s : State) (r : RegField) (v : Scalar) : (s.writeS r v).epoch = s.epoch := rfl
@[simp] theorem State.writeS_inputs (s : State) (r : RegField) (v : Scalar) :
    (s.writeS r v).inputs = s.inputs := rfl
@[simp] theorem State.writeS_readData (s : State) (r : RegField) (v : Scalar) :
    (s.writeS r v).readData = s.readData := rfl

/-! `writeP`. -/

@[simp] theorem State.writeP_fregs (s : State) (r : RegField) (v : Point) : (s.writeP r v).fregs = s.fregs := rfl
@[simp] theorem State.writeP_sregs (s : State) (r : RegField) (v : Point) : (s.writeP r v).sregs = s.sregs := rfl
@[simp] theorem State.writeP_pregs (s : State) (r : RegField) (v : Point) :
    (s.writeP r v).pregs = s.pregs.set (r.toNat % 8) v (Nat.mod_lt _ (by decide)) := rfl
@[simp] theorem State.writeP_cf (s : State) (r : RegField) (v : Point) : (s.writeP r v).cf = s.cf := rfl
@[simp] theorem State.writeP_pc (s : State) (r : RegField) (v : Point) : (s.writeP r v).pc = s.pc := rfl
@[simp] theorem State.writeP_run (s : State) (r : RegField) (v : Point) : (s.writeP r v).run = s.run := rfl
@[simp] theorem State.writeP_irqEn (s : State) (r : RegField) (v : Point) : (s.writeP r v).irqEn = s.irqEn := rfl
@[simp] theorem State.writeP_soRej (s : State) (r : RegField) (v : Point) : (s.writeP r v).soRej = s.soRej := rfl
@[simp] theorem State.writeP_done (s : State) (r : RegField) (v : Point) : (s.writeP r v).done = s.done := rfl
@[simp] theorem State.writeP_err (s : State) (r : RegField) (v : Point) : (s.writeP r v).err = s.err := rfl
@[simp] theorem State.writeP_herr (s : State) (r : RegField) (v : Point) : (s.writeP r v).herr = s.herr := rfl
@[simp] theorem State.writeP_cause (s : State) (r : RegField) (v : Point) : (s.writeP r v).cause = s.cause := rfl
@[simp] theorem State.writeP_faultPc (s : State) (r : RegField) (v : Point) :
    (s.writeP r v).faultPc = s.faultPc := rfl
@[simp] theorem State.writeP_faultInsn (s : State) (r : RegField) (v : Point) :
    (s.writeP r v).faultInsn = s.faultInsn := rfl
@[simp] theorem State.writeP_retired (s : State) (r : RegField) (v : Point) :
    (s.writeP r v).retired = s.retired := rfl
@[simp] theorem State.writeP_imem (s : State) (r : RegField) (v : Point) : (s.writeP r v).imem = s.imem := rfl
@[simp] theorem State.writeP_dmem (s : State) (r : RegField) (v : Point) : (s.writeP r v).dmem = s.dmem := rfl
@[simp] theorem State.writeP_params (s : State) (r : RegField) (v : Point) :
    (s.writeP r v).params = s.params := rfl
@[simp] theorem State.writeP_epoch (s : State) (r : RegField) (v : Point) : (s.writeP r v).epoch = s.epoch := rfl
@[simp] theorem State.writeP_inputs (s : State) (r : RegField) (v : Point) :
    (s.writeP r v).inputs = s.inputs := rfl
@[simp] theorem State.writeP_readData (s : State) (r : RegField) (v : Point) :
    (s.writeP r v).readData = s.readData := rfl

/-! `setCf`. -/

@[simp] theorem State.setCf_fregs (s : State) (b : Bool) : (s.setCf b).fregs = s.fregs := rfl
@[simp] theorem State.setCf_sregs (s : State) (b : Bool) : (s.setCf b).sregs = s.sregs := rfl
@[simp] theorem State.setCf_pregs (s : State) (b : Bool) : (s.setCf b).pregs = s.pregs := rfl
@[simp] theorem State.setCf_cf (s : State) (b : Bool) : (s.setCf b).cf = b := rfl
@[simp] theorem State.setCf_pc (s : State) (b : Bool) : (s.setCf b).pc = s.pc := rfl
@[simp] theorem State.setCf_run (s : State) (b : Bool) : (s.setCf b).run = s.run := rfl
@[simp] theorem State.setCf_irqEn (s : State) (b : Bool) : (s.setCf b).irqEn = s.irqEn := rfl
@[simp] theorem State.setCf_soRej (s : State) (b : Bool) : (s.setCf b).soRej = s.soRej := rfl
@[simp] theorem State.setCf_done (s : State) (b : Bool) : (s.setCf b).done = s.done := rfl
@[simp] theorem State.setCf_err (s : State) (b : Bool) : (s.setCf b).err = s.err := rfl
@[simp] theorem State.setCf_herr (s : State) (b : Bool) : (s.setCf b).herr = s.herr := rfl
@[simp] theorem State.setCf_cause (s : State) (b : Bool) : (s.setCf b).cause = s.cause := rfl
@[simp] theorem State.setCf_faultPc (s : State) (b : Bool) : (s.setCf b).faultPc = s.faultPc := rfl
@[simp] theorem State.setCf_faultInsn (s : State) (b : Bool) : (s.setCf b).faultInsn = s.faultInsn := rfl
@[simp] theorem State.setCf_retired (s : State) (b : Bool) : (s.setCf b).retired = s.retired := rfl
@[simp] theorem State.setCf_imem (s : State) (b : Bool) : (s.setCf b).imem = s.imem := rfl
@[simp] theorem State.setCf_dmem (s : State) (b : Bool) : (s.setCf b).dmem = s.dmem := rfl
@[simp] theorem State.setCf_params (s : State) (b : Bool) : (s.setCf b).params = s.params := rfl
@[simp] theorem State.setCf_epoch (s : State) (b : Bool) : (s.setCf b).epoch = s.epoch := rfl
@[simp] theorem State.setCf_inputs (s : State) (b : Bool) : (s.setCf b).inputs = s.inputs := rfl
@[simp] theorem State.setCf_readData (s : State) (b : Bool) : (s.setCf b).readData = s.readData := rfl

/-! `memWrite`. -/

@[simp] theorem State.memWrite_fregs (s : State) (a : Nat) (b : List Byte) :
    (s.memWrite a b).fregs = s.fregs := rfl
@[simp] theorem State.memWrite_sregs (s : State) (a : Nat) (b : List Byte) :
    (s.memWrite a b).sregs = s.sregs := rfl
@[simp] theorem State.memWrite_pregs (s : State) (a : Nat) (b : List Byte) :
    (s.memWrite a b).pregs = s.pregs := rfl
@[simp] theorem State.memWrite_cf (s : State) (a : Nat) (b : List Byte) : (s.memWrite a b).cf = s.cf := rfl
@[simp] theorem State.memWrite_pc (s : State) (a : Nat) (b : List Byte) : (s.memWrite a b).pc = s.pc := rfl
@[simp] theorem State.memWrite_run (s : State) (a : Nat) (b : List Byte) : (s.memWrite a b).run = s.run := rfl
@[simp] theorem State.memWrite_irqEn (s : State) (a : Nat) (b : List Byte) :
    (s.memWrite a b).irqEn = s.irqEn := rfl
@[simp] theorem State.memWrite_soRej (s : State) (a : Nat) (b : List Byte) :
    (s.memWrite a b).soRej = s.soRej := rfl
@[simp] theorem State.memWrite_done (s : State) (a : Nat) (b : List Byte) : (s.memWrite a b).done = s.done := rfl
@[simp] theorem State.memWrite_err (s : State) (a : Nat) (b : List Byte) : (s.memWrite a b).err = s.err := rfl
@[simp] theorem State.memWrite_herr (s : State) (a : Nat) (b : List Byte) : (s.memWrite a b).herr = s.herr := rfl
@[simp] theorem State.memWrite_cause (s : State) (a : Nat) (b : List Byte) :
    (s.memWrite a b).cause = s.cause := rfl
@[simp] theorem State.memWrite_faultPc (s : State) (a : Nat) (b : List Byte) :
    (s.memWrite a b).faultPc = s.faultPc := rfl
@[simp] theorem State.memWrite_faultInsn (s : State) (a : Nat) (b : List Byte) :
    (s.memWrite a b).faultInsn = s.faultInsn := rfl
@[simp] theorem State.memWrite_retired (s : State) (a : Nat) (b : List Byte) :
    (s.memWrite a b).retired = s.retired := rfl
@[simp] theorem State.memWrite_imem (s : State) (a : Nat) (b : List Byte) : (s.memWrite a b).imem = s.imem := rfl
@[simp] theorem State.memWrite_dmem (s : State) (a : Nat) (b : List Byte) :
    (s.memWrite a b).dmem = setCells s.dmem a b := rfl
@[simp] theorem State.memWrite_params (s : State) (a : Nat) (b : List Byte) :
    (s.memWrite a b).params = s.params := rfl
@[simp] theorem State.memWrite_epoch (s : State) (a : Nat) (b : List Byte) :
    (s.memWrite a b).epoch = s.epoch := rfl
@[simp] theorem State.memWrite_inputs (s : State) (a : Nat) (b : List Byte) :
    (s.memWrite a b).inputs = s.inputs := rfl
@[simp] theorem State.memWrite_readData (s : State) (a : Nat) (b : List Byte) :
    (s.memWrite a b).readData = s.readData := rfl

/-! `setImem`. -/

@[simp] theorem State.setImem_fregs (s : State) (i : Nat) (w : Word) : (s.setImem i w).fregs = s.fregs := rfl
@[simp] theorem State.setImem_sregs (s : State) (i : Nat) (w : Word) : (s.setImem i w).sregs = s.sregs := rfl
@[simp] theorem State.setImem_pregs (s : State) (i : Nat) (w : Word) : (s.setImem i w).pregs = s.pregs := rfl
@[simp] theorem State.setImem_cf (s : State) (i : Nat) (w : Word) : (s.setImem i w).cf = s.cf := rfl
@[simp] theorem State.setImem_pc (s : State) (i : Nat) (w : Word) : (s.setImem i w).pc = s.pc := rfl
@[simp] theorem State.setImem_run (s : State) (i : Nat) (w : Word) : (s.setImem i w).run = s.run := rfl
@[simp] theorem State.setImem_irqEn (s : State) (i : Nat) (w : Word) : (s.setImem i w).irqEn = s.irqEn := rfl
@[simp] theorem State.setImem_soRej (s : State) (i : Nat) (w : Word) : (s.setImem i w).soRej = s.soRej := rfl
@[simp] theorem State.setImem_done (s : State) (i : Nat) (w : Word) : (s.setImem i w).done = s.done := rfl
@[simp] theorem State.setImem_err (s : State) (i : Nat) (w : Word) : (s.setImem i w).err = s.err := rfl
@[simp] theorem State.setImem_herr (s : State) (i : Nat) (w : Word) : (s.setImem i w).herr = s.herr := rfl
@[simp] theorem State.setImem_cause (s : State) (i : Nat) (w : Word) : (s.setImem i w).cause = s.cause := rfl
@[simp] theorem State.setImem_faultPc (s : State) (i : Nat) (w : Word) : (s.setImem i w).faultPc = s.faultPc := rfl
@[simp] theorem State.setImem_faultInsn (s : State) (i : Nat) (w : Word) :
    (s.setImem i w).faultInsn = s.faultInsn := rfl
@[simp] theorem State.setImem_retired (s : State) (i : Nat) (w : Word) : (s.setImem i w).retired = s.retired := rfl
@[simp] theorem State.setImem_imem (s : State) (i : Nat) (w : Word) :
    (s.setImem i w).imem = setCell s.imem i w := rfl
@[simp] theorem State.setImem_dmem (s : State) (i : Nat) (w : Word) : (s.setImem i w).dmem = s.dmem := rfl
@[simp] theorem State.setImem_params (s : State) (i : Nat) (w : Word) : (s.setImem i w).params = s.params := rfl
@[simp] theorem State.setImem_epoch (s : State) (i : Nat) (w : Word) : (s.setImem i w).epoch = s.epoch := rfl
@[simp] theorem State.setImem_inputs (s : State) (i : Nat) (w : Word) : (s.setImem i w).inputs = s.inputs := rfl
@[simp] theorem State.setImem_readData (s : State) (i : Nat) (w : Word) :
    (s.setImem i w).readData = s.readData := rfl

/-! `count`. -/

@[simp] theorem State.count_fregs (s : State) : (s.count).fregs = s.fregs := rfl
@[simp] theorem State.count_sregs (s : State) : (s.count).sregs = s.sregs := rfl
@[simp] theorem State.count_pregs (s : State) : (s.count).pregs = s.pregs := rfl
@[simp] theorem State.count_cf (s : State) : (s.count).cf = s.cf := rfl
@[simp] theorem State.count_pc (s : State) : (s.count).pc = s.pc := rfl
@[simp] theorem State.count_run (s : State) : (s.count).run = s.run := rfl
@[simp] theorem State.count_irqEn (s : State) : (s.count).irqEn = s.irqEn := rfl
@[simp] theorem State.count_soRej (s : State) : (s.count).soRej = s.soRej := rfl
@[simp] theorem State.count_done (s : State) : (s.count).done = s.done := rfl
@[simp] theorem State.count_err (s : State) : (s.count).err = s.err := rfl
@[simp] theorem State.count_herr (s : State) : (s.count).herr = s.herr := rfl
@[simp] theorem State.count_cause (s : State) : (s.count).cause = s.cause := rfl
@[simp] theorem State.count_faultPc (s : State) : (s.count).faultPc = s.faultPc := rfl
@[simp] theorem State.count_faultInsn (s : State) : (s.count).faultInsn = s.faultInsn := rfl
@[simp] theorem State.count_retired (s : State) : (s.count).retired = s.retired + 1 := rfl
@[simp] theorem State.count_imem (s : State) : (s.count).imem = s.imem := rfl
@[simp] theorem State.count_dmem (s : State) : (s.count).dmem = s.dmem := rfl
@[simp] theorem State.count_params (s : State) : (s.count).params = s.params := rfl
@[simp] theorem State.count_epoch (s : State) : (s.count).epoch = s.epoch := rfl
@[simp] theorem State.count_inputs (s : State) : (s.count).inputs = s.inputs := rfl
@[simp] theorem State.count_readData (s : State) : (s.count).readData = s.readData := rfl

/-! `complete`. -/

@[simp] theorem State.complete_fregs (s : State) : (s.complete).fregs = s.fregs := rfl
@[simp] theorem State.complete_sregs (s : State) : (s.complete).sregs = s.sregs := rfl
@[simp] theorem State.complete_pregs (s : State) : (s.complete).pregs = s.pregs := rfl
@[simp] theorem State.complete_cf (s : State) : (s.complete).cf = s.cf := rfl
@[simp] theorem State.complete_pc (s : State) : (s.complete).pc = s.pc + 1 := rfl
@[simp] theorem State.complete_run (s : State) : (s.complete).run = s.run := rfl
@[simp] theorem State.complete_irqEn (s : State) : (s.complete).irqEn = s.irqEn := rfl
@[simp] theorem State.complete_soRej (s : State) : (s.complete).soRej = s.soRej := rfl
@[simp] theorem State.complete_done (s : State) : (s.complete).done = s.done := rfl
@[simp] theorem State.complete_err (s : State) : (s.complete).err = s.err := rfl
@[simp] theorem State.complete_herr (s : State) : (s.complete).herr = s.herr := rfl
@[simp] theorem State.complete_cause (s : State) : (s.complete).cause = s.cause := rfl
@[simp] theorem State.complete_faultPc (s : State) : (s.complete).faultPc = s.faultPc := rfl
@[simp] theorem State.complete_faultInsn (s : State) : (s.complete).faultInsn = s.faultInsn := rfl
@[simp] theorem State.complete_retired (s : State) : (s.complete).retired = s.retired + 1 := rfl
@[simp] theorem State.complete_imem (s : State) : (s.complete).imem = s.imem := rfl
@[simp] theorem State.complete_dmem (s : State) : (s.complete).dmem = s.dmem := rfl
@[simp] theorem State.complete_params (s : State) : (s.complete).params = s.params := rfl
@[simp] theorem State.complete_epoch (s : State) : (s.complete).epoch = s.epoch := rfl
@[simp] theorem State.complete_inputs (s : State) : (s.complete).inputs = s.inputs := rfl
@[simp] theorem State.complete_readData (s : State) : (s.complete).readData = s.readData := rfl

/-! `completeAt`. -/

@[simp] theorem State.completeAt_fregs (s : State) (t : Half) : (s.completeAt t).fregs = s.fregs := rfl
@[simp] theorem State.completeAt_sregs (s : State) (t : Half) : (s.completeAt t).sregs = s.sregs := rfl
@[simp] theorem State.completeAt_pregs (s : State) (t : Half) : (s.completeAt t).pregs = s.pregs := rfl
@[simp] theorem State.completeAt_cf (s : State) (t : Half) : (s.completeAt t).cf = s.cf := rfl
@[simp] theorem State.completeAt_pc (s : State) (t : Half) : (s.completeAt t).pc = t := rfl
@[simp] theorem State.completeAt_run (s : State) (t : Half) : (s.completeAt t).run = s.run := rfl
@[simp] theorem State.completeAt_irqEn (s : State) (t : Half) : (s.completeAt t).irqEn = s.irqEn := rfl
@[simp] theorem State.completeAt_soRej (s : State) (t : Half) : (s.completeAt t).soRej = s.soRej := rfl
@[simp] theorem State.completeAt_done (s : State) (t : Half) : (s.completeAt t).done = s.done := rfl
@[simp] theorem State.completeAt_err (s : State) (t : Half) : (s.completeAt t).err = s.err := rfl
@[simp] theorem State.completeAt_herr (s : State) (t : Half) : (s.completeAt t).herr = s.herr := rfl
@[simp] theorem State.completeAt_cause (s : State) (t : Half) : (s.completeAt t).cause = s.cause := rfl
@[simp] theorem State.completeAt_faultPc (s : State) (t : Half) : (s.completeAt t).faultPc = s.faultPc := rfl
@[simp] theorem State.completeAt_faultInsn (s : State) (t : Half) : (s.completeAt t).faultInsn = s.faultInsn := rfl
@[simp] theorem State.completeAt_retired (s : State) (t : Half) : (s.completeAt t).retired = s.retired + 1 := rfl
@[simp] theorem State.completeAt_imem (s : State) (t : Half) : (s.completeAt t).imem = s.imem := rfl
@[simp] theorem State.completeAt_dmem (s : State) (t : Half) : (s.completeAt t).dmem = s.dmem := rfl
@[simp] theorem State.completeAt_params (s : State) (t : Half) : (s.completeAt t).params = s.params := rfl
@[simp] theorem State.completeAt_epoch (s : State) (t : Half) : (s.completeAt t).epoch = s.epoch := rfl
@[simp] theorem State.completeAt_inputs (s : State) (t : Half) : (s.completeAt t).inputs = s.inputs := rfl
@[simp] theorem State.completeAt_readData (s : State) (t : Half) : (s.completeAt t).readData = s.readData := rfl

/-! `faultEntry`. -/

@[simp] theorem State.faultEntry_fregs (s : State) (c : Cause) (w : Word) :
    (s.faultEntry c w).fregs = s.fregs := rfl
@[simp] theorem State.faultEntry_sregs (s : State) (c : Cause) (w : Word) :
    (s.faultEntry c w).sregs = s.sregs := rfl
@[simp] theorem State.faultEntry_pregs (s : State) (c : Cause) (w : Word) :
    (s.faultEntry c w).pregs = s.pregs := rfl
@[simp] theorem State.faultEntry_cf (s : State) (c : Cause) (w : Word) : (s.faultEntry c w).cf = s.cf := rfl
@[simp] theorem State.faultEntry_pc (s : State) (c : Cause) (w : Word) : (s.faultEntry c w).pc = s.pc := rfl
@[simp] theorem State.faultEntry_run (s : State) (c : Cause) (w : Word) : (s.faultEntry c w).run = .idle := rfl
@[simp] theorem State.faultEntry_irqEn (s : State) (c : Cause) (w : Word) :
    (s.faultEntry c w).irqEn = s.irqEn := rfl
@[simp] theorem State.faultEntry_soRej (s : State) (c : Cause) (w : Word) :
    (s.faultEntry c w).soRej = s.soRej := rfl
@[simp] theorem State.faultEntry_done (s : State) (c : Cause) (w : Word) : (s.faultEntry c w).done = s.done := rfl
@[simp] theorem State.faultEntry_err (s : State) (c : Cause) (w : Word) : (s.faultEntry c w).err = true := rfl
@[simp] theorem State.faultEntry_herr (s : State) (c : Cause) (w : Word) : (s.faultEntry c w).herr = s.herr := rfl
@[simp] theorem State.faultEntry_cause (s : State) (c : Cause) (w : Word) : (s.faultEntry c w).cause = c := rfl
@[simp] theorem State.faultEntry_faultPc (s : State) (c : Cause) (w : Word) :
    (s.faultEntry c w).faultPc = s.pc := rfl
@[simp] theorem State.faultEntry_faultInsn (s : State) (c : Cause) (w : Word) :
    (s.faultEntry c w).faultInsn = w := rfl
@[simp] theorem State.faultEntry_retired (s : State) (c : Cause) (w : Word) :
    (s.faultEntry c w).retired = s.retired := rfl
@[simp] theorem State.faultEntry_imem (s : State) (c : Cause) (w : Word) : (s.faultEntry c w).imem = s.imem := rfl
@[simp] theorem State.faultEntry_dmem (s : State) (c : Cause) (w : Word) : (s.faultEntry c w).dmem = s.dmem := rfl
@[simp] theorem State.faultEntry_params (s : State) (c : Cause) (w : Word) :
    (s.faultEntry c w).params = s.params := rfl
@[simp] theorem State.faultEntry_epoch (s : State) (c : Cause) (w : Word) :
    (s.faultEntry c w).epoch = s.epoch := rfl
@[simp] theorem State.faultEntry_inputs (s : State) (c : Cause) (w : Word) :
    (s.faultEntry c w).inputs = s.inputs := rfl
@[simp] theorem State.faultEntry_readData (s : State) (c : Cause) (w : Word) :
    (s.faultEntry c w).readData = s.readData := rfl

/-! `startRun`. -/

@[simp] theorem State.startRun_fregs (s : State) : (s.startRun).fregs = s.fregs := rfl
@[simp] theorem State.startRun_sregs (s : State) : (s.startRun).sregs = s.sregs := rfl
@[simp] theorem State.startRun_pregs (s : State) : (s.startRun).pregs = s.pregs := rfl
@[simp] theorem State.startRun_cf (s : State) : (s.startRun).cf = s.cf := rfl
@[simp] theorem State.startRun_pc (s : State) : (s.startRun).pc = s.pc := rfl
@[simp] theorem State.startRun_run (s : State) : (s.startRun).run = .busy := rfl
@[simp] theorem State.startRun_irqEn (s : State) : (s.startRun).irqEn = s.irqEn := rfl
@[simp] theorem State.startRun_soRej (s : State) : (s.startRun).soRej = s.soRej := rfl
@[simp] theorem State.startRun_done (s : State) : (s.startRun).done = false := rfl
@[simp] theorem State.startRun_err (s : State) : (s.startRun).err = false := rfl
@[simp] theorem State.startRun_herr (s : State) : (s.startRun).herr = s.herr := rfl
@[simp] theorem State.startRun_cause (s : State) : (s.startRun).cause = .none := rfl
@[simp] theorem State.startRun_faultPc (s : State) : (s.startRun).faultPc = s.faultPc := rfl
@[simp] theorem State.startRun_faultInsn (s : State) : (s.startRun).faultInsn = s.faultInsn := rfl
@[simp] theorem State.startRun_retired (s : State) : (s.startRun).retired = 0 := rfl
@[simp] theorem State.startRun_imem (s : State) : (s.startRun).imem = s.imem := rfl
@[simp] theorem State.startRun_dmem (s : State) : (s.startRun).dmem = s.dmem := rfl
@[simp] theorem State.startRun_params (s : State) : (s.startRun).params = s.params := rfl
@[simp] theorem State.startRun_epoch (s : State) : (s.startRun).epoch = s.epoch := rfl
@[simp] theorem State.startRun_inputs (s : State) : (s.startRun).inputs = s.inputs := rfl
@[simp] theorem State.startRun_readData (s : State) : (s.startRun).readData = s.readData := rfl

/-! `halt`. -/

@[simp] theorem State.halt_fregs (s : State) : (s.halt).fregs = s.fregs := rfl
@[simp] theorem State.halt_sregs (s : State) : (s.halt).sregs = s.sregs := rfl
@[simp] theorem State.halt_pregs (s : State) : (s.halt).pregs = s.pregs := rfl
@[simp] theorem State.halt_cf (s : State) : (s.halt).cf = s.cf := rfl
@[simp] theorem State.halt_pc (s : State) : (s.halt).pc = s.pc := rfl
@[simp] theorem State.halt_run (s : State) : (s.halt).run = .idle := rfl
@[simp] theorem State.halt_irqEn (s : State) : (s.halt).irqEn = s.irqEn := rfl
@[simp] theorem State.halt_soRej (s : State) : (s.halt).soRej = s.soRej := rfl
@[simp] theorem State.halt_done (s : State) : (s.halt).done = true := rfl
@[simp] theorem State.halt_err (s : State) : (s.halt).err = s.err := rfl
@[simp] theorem State.halt_herr (s : State) : (s.halt).herr = s.herr := rfl
@[simp] theorem State.halt_cause (s : State) : (s.halt).cause = s.cause := rfl
@[simp] theorem State.halt_faultPc (s : State) : (s.halt).faultPc = s.faultPc := rfl
@[simp] theorem State.halt_faultInsn (s : State) : (s.halt).faultInsn = s.faultInsn := rfl
@[simp] theorem State.halt_retired (s : State) : (s.halt).retired = s.retired + 1 := rfl
@[simp] theorem State.halt_imem (s : State) : (s.halt).imem = s.imem := rfl
@[simp] theorem State.halt_dmem (s : State) : (s.halt).dmem = s.dmem := rfl
@[simp] theorem State.halt_params (s : State) : (s.halt).params = s.params := rfl
@[simp] theorem State.halt_epoch (s : State) : (s.halt).epoch = s.epoch := rfl
@[simp] theorem State.halt_inputs (s : State) : (s.halt).inputs = s.inputs := rfl
@[simp] theorem State.halt_readData (s : State) : (s.halt).readData = s.readData := rfl

/-! The three fault entries are one operation (R232, R237). -/

theorem State.raise_eq (s : State) (c : Cause) : s.raise c = s.faultEntry c s.fetchWord := rfl

theorem State.raiseFetch_eq (s : State) : s.raiseFetch = s.faultEntry .imemRange 0 := rfl

theorem State.abort_eq (s : State) : s.abort = s.faultEntry .aborted 0 := rfl

end Sys2Proof.Machine
end

