-- ==== Sys2Proof/Laws/Memory.lean ====
section
/-! SUPPORT. The laws of memory cells: a read after a write, writes leave other addresses alone, and every write keeps
the canonical form. -/

namespace Sys2Proof.Machine

section Cells
variable {α : Type}

@[simp] theorem cellAt_setCell_same (cells : List (Nat × α)) (a : Nat) (v : α) :
    cellAt (setCell cells a v) a = some v := by
  induction cells with
  | nil => simp [setCell, cellAt]
  | cons c rest ih =>
    obtain ⟨k, w⟩ := c
    unfold setCell
    split
    · simp [cellAt]
    · split
      · simp [cellAt]
      · rename_i h
        simp [cellAt, Ne.symm h, ih]

theorem cellAt_setCell_ne (cells : List (Nat × α)) {a x : Nat} (v : α) (h : x ≠ a) :
    cellAt (setCell cells a v) x = cellAt cells x := by
  induction cells with
  | nil => simp [setCell, cellAt, Ne.symm h]
  | cons c rest ih =>
    obtain ⟨k, w⟩ := c
    unfold setCell
    split
    · simp [cellAt, Ne.symm h]
    · split
      · rename_i e
        subst e
        simp [cellAt, Ne.symm h]
      · simp [cellAt, ih]

/-- The addresses after a write are the old ones and the one written. -/
theorem mem_setCell {cells : List (Nat × α)} {a : Nat} {v : α} {c : Nat × α} (h : c ∈ setCell cells a v) :
    c = (a, v) ∨ c ∈ cells := by
  induction cells with
  | nil => left; simpa [setCell] using h
  | cons d rest ih =>
    obtain ⟨k, w⟩ := d
    unfold setCell at h
    split at h
    · simpa using h
    · split at h
      · rcases List.mem_cons.1 h with h | h
        · exact .inl h
        · exact .inr (List.mem_cons_of_mem _ h)
      · rcases List.mem_cons.1 h with h | h
        · exact .inr (h ▸ List.mem_cons_self)
        · exact (ih h).imp_right (List.mem_cons_of_mem _)

/-- A write keeps the canonical form. -/
theorem setCell_wf {cells : List (Nat × α)} (hw : Memory.wf cells) (a : Nat) (v : α) :
    Memory.wf (setCell cells a v) := by
  induction cells with
  | nil => simp [setCell, Memory.wf]
  | cons d rest ih =>
    obtain ⟨k, w⟩ := d
    obtain ⟨hk, hr⟩ := List.pairwise_cons.1 hw
    unfold setCell
    split
    · refine List.pairwise_cons.2 ⟨fun c hc => ?_, hw⟩
      rcases List.mem_cons.1 hc with rfl | hc
      · assumption
      · exact Nat.lt_trans ‹a < k› (hk c hc)
    · split
      · rename_i e
        subst e
        exact List.pairwise_cons.2 ⟨hk, hr⟩
      · refine List.pairwise_cons.2 ⟨fun c hc => ?_, ih hr⟩
        rcases mem_setCell hc with rfl | hc
        · show k < a
          omega
        · exact hk c hc

/-- Two memories in canonical form that read alike everywhere are the same list. -/
theorem Memory.wf_ext {c d : List (Nat × α)} (hc : Memory.wf c) (hd : Memory.wf d)
    (h : ∀ a, cellAt c a = cellAt d a) : c = d := by
  have none_of_lt : ∀ {l : List (Nat × α)} {x : Nat}, (∀ e ∈ l, x < e.1) → cellAt l x = none := by
    intro l x hl
    induction l with
    | nil => rfl
    | cons e r ih =>
      have hx := hl e List.mem_cons_self
      have hne : ¬ e.1 = x := by omega
      simp only [cellAt, hne, if_false]
      exact ih fun f hf => hl f (List.mem_cons_of_mem _ hf)
  induction c generalizing d with
  | nil =>
    cases d with
    | nil => rfl
    | cons e r =>
      have := h e.1
      simp [cellAt] at this
  | cons e r ih =>
    obtain ⟨k, v⟩ := e
    obtain ⟨hk, hr⟩ := List.pairwise_cons.1 hc
    cases d with
    | nil =>
      have := h k
      simp [cellAt] at this
    | cons e' r' =>
      obtain ⟨k', v'⟩ := e'
      obtain ⟨hk', hr'⟩ := List.pairwise_cons.1 hd
      have hkk : k = k' := by
        rcases Nat.lt_trichotomy k k' with hlt | heq | hgt
        · have hs : cellAt ((k, v) :: r) k = some v := by simp [cellAt]
          rw [h k, none_of_lt fun e he => ?_] at hs
          · cases hs
          · rcases List.mem_cons.1 he with rfl | he
            · exact hlt
            · exact Nat.lt_trans hlt (hk' e he)
        · exact heq
        · have hs : cellAt ((k', v') :: r') k' = some v' := by simp [cellAt]
          rw [← h k', none_of_lt fun e he => ?_] at hs
          · cases hs
          · rcases List.mem_cons.1 he with rfl | he
            · exact hgt
            · exact Nat.lt_trans hgt (hk e he)
      subst hkk
      have hv : v = v' := by simpa [cellAt] using h k
      subst hv
      congr 1
      refine ih hr hr' fun a => ?_
      by_cases ha : k = a
      · subst ha
        rw [none_of_lt hk, none_of_lt hk']
      · simpa [cellAt, ha] using h a

end Cells

/-! Byte strings. -/

theorem cellAt_setCells_outside (cells : List Host.Cell) (a : Nat) (b : List Byte) {x : Nat}
    (h : x < a ∨ a + b.length ≤ x) : cellAt (setCells cells a b) x = cellAt cells x := by
  induction b generalizing cells a with
  | nil => rfl
  | cons v bs ih =>
    simp only [List.length_cons] at h
    rw [setCells, ih _ _ (by omega), cellAt_setCell_ne _ _ (by omega)]

theorem cellAt_setCells_inside (cells : List Host.Cell) (a : Nat) (b : List Byte) {i : Nat} (h : i < b.length) :
    cellAt (setCells cells a b) (a + i) = some b[i] := by
  induction b generalizing cells a i with
  | nil => simp at h
  | cons v bs ih =>
    cases i with
    | zero => rw [setCells, cellAt_setCells_outside _ _ _ (by omega)]; simp
    | succ j =>
      have := ih (setCell cells a v) (a + 1) (i := j) (by simpa using h)
      rw [setCells, ← Nat.add_assoc, Nat.add_right_comm]
      simpa using this

theorem setCells_wf {cells : List Host.Cell} (hw : Memory.wf cells) (a : Nat) (b : List Byte) :
    Memory.wf (setCells cells a b) := by
  induction b generalizing cells a with
  | nil => exact hw
  | cons v bs ih => exact ih (setCell_wf hw a v) (a + 1)

theorem mem_setCells {cells : List Host.Cell} {a : Nat} {b : List Byte} {c : Host.Cell}
    (h : c ∈ setCells cells a b) : (a ≤ c.1 ∧ c.1 < a + b.length) ∨ c ∈ cells := by
  induction b generalizing cells a with
  | nil => exact .inr h
  | cons v bs ih =>
    simp only [List.length_cons]
    rcases ih h with h | h
    · exact .inl (by omega)
    · rcases mem_setCell h with rfl | h
      · exact .inl ⟨Nat.le_refl _, by show a < _; omega⟩
      · exact .inr h

/-! The same, of DMEM. -/

@[simp] theorem State.imemWord_setImem_same (s : State) (i : Nat) (w : Word) : (s.setImem i w).imemWord i = w := by
  simp [State.imemWord, State.setImem]

theorem State.imemWord_setImem_ne (s : State) {i k : Nat} (w : Word) (h : k ≠ i) :
    (s.setImem i w).imemWord k = s.imemWord k := by
  simp [State.imemWord, State.setImem, cellAt_setCell_ne _ _ h]

theorem State.dmemByte_memWrite_outside (s : State) (addr : Nat) (b : List Byte) {x : Nat}
    (h : x < addr ∨ addr + b.length ≤ x) : (s.memWrite addr b).dmemByte x = s.dmemByte x := by
  simp [State.dmemByte, cellAt_setCells_outside _ _ _ h]

theorem State.dmemByte_memWrite_inside (s : State) (addr : Nat) (b : List Byte) {i : Nat} (h : i < b.length) :
    (s.memWrite addr b).dmemByte (addr + i) = b[i] := by
  simp [State.dmemByte, cellAt_setCells_inside _ _ _ h]

/-- A read of what was just written (R88). -/
theorem State.memRead_memWrite (s : State) (addr : Nat) (b : List Byte) :
    (s.memWrite addr b).memRead addr b.length = b := by
  apply List.ext_getElem
  · simp [State.memRead]
  · intro i h1 h2
    simp [State.memRead, State.dmemByte_memWrite_inside _ _ _ h2]

@[simp] theorem State.memRead_length (s : State) (a n : Nat) : (s.memRead a n).length = n := by
  simp [State.memRead]

end Sys2Proof.Machine
end

