-- ==== Sys2Proof/Laws/Registers.lean ====
section
/-! SUPPORT. Reading a register after a write, and which reads an update leaves alone. -/

namespace Sys2Proof.Machine

/-! F registers. -/

@[simp] theorem State.readF_writeF_same (s : State) (r : RegField) (v : Fe) : (s.writeF r v).readF r = v := by
  simp [State.readF]

theorem State.readF_writeF_ne (s : State) {r q : RegField} (v : Fe) (h : q ≠ r) :
    (s.writeF r v).readF q = s.readF q := by
  have : r.toNat ≠ q.toNat := fun e => h (BitVec.eq_of_toNat_eq e).symm
  simp [State.readF, Vector.getElem_set_ne, this]

theorem State.readF_writeF (s : State) (r q : RegField) (v : Fe) :
    (s.writeF r v).readF q = if q = r then v else s.readF q := by
  split
  · subst q; simp
  · exact s.readF_writeF_ne v ‹_›

@[simp] theorem State.readS_writeF (s : State) (r q : RegField) (v : Fe) : (s.writeF r v).readS q = s.readS q := rfl
@[simp] theorem State.readP_writeF (s : State) (r q : RegField) (v : Fe) : (s.writeF r v).readP q = s.readP q := rfl

/-! S registers. -/

@[simp] theorem State.readS_writeS_same (s : State) (r : RegField) (v : Scalar) : (s.writeS r v).readS r = v := by
  simp [State.readS]

theorem State.readS_writeS_ne (s : State) {r q : RegField} (v : Scalar) (hr : r.toNat < 8) (hq : q.toNat < 8)
    (h : q ≠ r) : (s.writeS r v).readS q = s.readS q := by
  have : r.toNat % 8 ≠ q.toNat % 8 := by
    rw [Nat.mod_eq_of_lt hr, Nat.mod_eq_of_lt hq]
    exact fun e => h (BitVec.eq_of_toNat_eq e).symm
  simp [State.readS, Vector.getElem_set_ne, this]

@[simp] theorem State.readF_writeS (s : State) (r q : RegField) (v : Scalar) : (s.writeS r v).readF q = s.readF q := rfl
@[simp] theorem State.readP_writeS (s : State) (r q : RegField) (v : Scalar) : (s.writeS r v).readP q = s.readP q := rfl

/-! P registers. -/

@[simp] theorem State.readP_writeP_same (s : State) (r : RegField) (v : Point) : (s.writeP r v).readP r = v := by
  simp [State.readP]

theorem State.readP_writeP_ne (s : State) {r q : RegField} (v : Point) (hr : r.toNat < 8) (hq : q.toNat < 8)
    (h : q ≠ r) : (s.writeP r v).readP q = s.readP q := by
  have : r.toNat % 8 ≠ q.toNat % 8 := by
    rw [Nat.mod_eq_of_lt hr, Nat.mod_eq_of_lt hq]
    exact fun e => h (BitVec.eq_of_toNat_eq e).symm
  simp [State.readP, Vector.getElem_set_ne, this]

/-- Every P register read after a write is the value written or an old one. -/
theorem State.readP_writeP_cases (s : State) (r q : RegField) (v : Point) :
    (s.writeP r v).readP q = v ∨ (s.writeP r v).readP q = s.readP q := by
  by_cases h : r.toNat % 8 = q.toNat % 8
  · left; simp [State.readP, h]
  · right; simp [State.readP, Vector.getElem_set_ne, h]

@[simp] theorem State.readF_writeP (s : State) (r q : RegField) (v : Point) : (s.writeP r v).readF q = s.readF q := rfl
@[simp] theorem State.readS_writeP (s : State) (r q : RegField) (v : Point) : (s.writeP r v).readS q = s.readS q := rfl

/-! `setCf` leaves every register file alone. -/

@[simp] theorem State.readF_setCf (s : State) (b : Bool) (q : RegField) :
    (s.setCf b).readF q = s.readF q := rfl
@[simp] theorem State.readS_setCf (s : State) (b : Bool) (q : RegField) :
    (s.setCf b).readS q = s.readS q := rfl
@[simp] theorem State.readP_setCf (s : State) (b : Bool) (q : RegField) :
    (s.setCf b).readP q = s.readP q := rfl

/-! `memWrite` leaves every register file alone. -/

@[simp] theorem State.readF_memWrite (s : State) (a : Nat) (b : List Byte) (q : RegField) :
    (s.memWrite a b).readF q = s.readF q := rfl
@[simp] theorem State.readS_memWrite (s : State) (a : Nat) (b : List Byte) (q : RegField) :
    (s.memWrite a b).readS q = s.readS q := rfl
@[simp] theorem State.readP_memWrite (s : State) (a : Nat) (b : List Byte) (q : RegField) :
    (s.memWrite a b).readP q = s.readP q := rfl

/-! `setImem` leaves every register file alone. -/

@[simp] theorem State.readF_setImem (s : State) (i : Nat) (w : Word) (q : RegField) :
    (s.setImem i w).readF q = s.readF q := rfl
@[simp] theorem State.readS_setImem (s : State) (i : Nat) (w : Word) (q : RegField) :
    (s.setImem i w).readS q = s.readS q := rfl
@[simp] theorem State.readP_setImem (s : State) (i : Nat) (w : Word) (q : RegField) :
    (s.setImem i w).readP q = s.readP q := rfl

/-! `count` leaves every register file alone. -/

@[simp] theorem State.readF_count (s : State) (q : RegField) :
    (s.count).readF q = s.readF q := rfl
@[simp] theorem State.readS_count (s : State) (q : RegField) :
    (s.count).readS q = s.readS q := rfl
@[simp] theorem State.readP_count (s : State) (q : RegField) :
    (s.count).readP q = s.readP q := rfl

/-! `complete` leaves every register file alone. -/

@[simp] theorem State.readF_complete (s : State) (q : RegField) :
    (s.complete).readF q = s.readF q := rfl
@[simp] theorem State.readS_complete (s : State) (q : RegField) :
    (s.complete).readS q = s.readS q := rfl
@[simp] theorem State.readP_complete (s : State) (q : RegField) :
    (s.complete).readP q = s.readP q := rfl

/-! `completeAt` leaves every register file alone. -/

@[simp] theorem State.readF_completeAt (s : State) (t : Half) (q : RegField) :
    (s.completeAt t).readF q = s.readF q := rfl
@[simp] theorem State.readS_completeAt (s : State) (t : Half) (q : RegField) :
    (s.completeAt t).readS q = s.readS q := rfl
@[simp] theorem State.readP_completeAt (s : State) (t : Half) (q : RegField) :
    (s.completeAt t).readP q = s.readP q := rfl

/-! `faultEntry` leaves every register file alone. -/

@[simp] theorem State.readF_faultEntry (s : State) (c : Cause) (w : Word) (q : RegField) :
    (s.faultEntry c w).readF q = s.readF q := rfl
@[simp] theorem State.readS_faultEntry (s : State) (c : Cause) (w : Word) (q : RegField) :
    (s.faultEntry c w).readS q = s.readS q := rfl
@[simp] theorem State.readP_faultEntry (s : State) (c : Cause) (w : Word) (q : RegField) :
    (s.faultEntry c w).readP q = s.readP q := rfl

/-! `startRun` leaves every register file alone. -/

@[simp] theorem State.readF_startRun (s : State) (q : RegField) :
    (s.startRun).readF q = s.readF q := rfl
@[simp] theorem State.readS_startRun (s : State) (q : RegField) :
    (s.startRun).readS q = s.readS q := rfl
@[simp] theorem State.readP_startRun (s : State) (q : RegField) :
    (s.startRun).readP q = s.readP q := rfl

/-! `halt` leaves every register file alone. -/

@[simp] theorem State.readF_halt (s : State) (q : RegField) :
    (s.halt).readF q = s.readF q := rfl
@[simp] theorem State.readS_halt (s : State) (q : RegField) :
    (s.halt).readS q = s.readS q := rfl
@[simp] theorem State.readP_halt (s : State) (q : RegField) :
    (s.halt).readP q = s.readP q := rfl

/-! Reads of memory after an update that does not write memory. -/

@[simp] theorem State.dmemByte_writeF (s : State) (r : RegField) (v : Fe) (x : Nat) :
    (s.writeF r v).dmemByte x = s.dmemByte x := rfl
@[simp] theorem State.imemWord_writeF (s : State) (r : RegField) (v : Fe) (x : Nat) :
    (s.writeF r v).imemWord x = s.imemWord x := rfl
@[simp] theorem State.dmemByte_writeS (s : State) (r : RegField) (v : Scalar) (x : Nat) :
    (s.writeS r v).dmemByte x = s.dmemByte x := rfl
@[simp] theorem State.imemWord_writeS (s : State) (r : RegField) (v : Scalar) (x : Nat) :
    (s.writeS r v).imemWord x = s.imemWord x := rfl
@[simp] theorem State.dmemByte_writeP (s : State) (r : RegField) (v : Point) (x : Nat) :
    (s.writeP r v).dmemByte x = s.dmemByte x := rfl
@[simp] theorem State.imemWord_writeP (s : State) (r : RegField) (v : Point) (x : Nat) :
    (s.writeP r v).imemWord x = s.imemWord x := rfl
@[simp] theorem State.dmemByte_setCf (s : State) (b : Bool) (x : Nat) :
    (s.setCf b).dmemByte x = s.dmemByte x := rfl
@[simp] theorem State.imemWord_setCf (s : State) (b : Bool) (x : Nat) :
    (s.setCf b).imemWord x = s.imemWord x := rfl
@[simp] theorem State.imemWord_memWrite (s : State) (a : Nat) (b : List Byte) (x : Nat) :
    (s.memWrite a b).imemWord x = s.imemWord x := rfl
@[simp] theorem State.dmemByte_setImem (s : State) (i : Nat) (w : Word) (x : Nat) :
    (s.setImem i w).dmemByte x = s.dmemByte x := rfl
@[simp] theorem State.dmemByte_count (s : State) (x : Nat) :
    (s.count).dmemByte x = s.dmemByte x := rfl
@[simp] theorem State.imemWord_count (s : State) (x : Nat) :
    (s.count).imemWord x = s.imemWord x := rfl
@[simp] theorem State.dmemByte_complete (s : State) (x : Nat) :
    (s.complete).dmemByte x = s.dmemByte x := rfl
@[simp] theorem State.imemWord_complete (s : State) (x : Nat) :
    (s.complete).imemWord x = s.imemWord x := rfl
@[simp] theorem State.dmemByte_completeAt (s : State) (t : Half) (x : Nat) :
    (s.completeAt t).dmemByte x = s.dmemByte x := rfl
@[simp] theorem State.imemWord_completeAt (s : State) (t : Half) (x : Nat) :
    (s.completeAt t).imemWord x = s.imemWord x := rfl
@[simp] theorem State.dmemByte_faultEntry (s : State) (c : Cause) (w : Word) (x : Nat) :
    (s.faultEntry c w).dmemByte x = s.dmemByte x := rfl
@[simp] theorem State.imemWord_faultEntry (s : State) (c : Cause) (w : Word) (x : Nat) :
    (s.faultEntry c w).imemWord x = s.imemWord x := rfl
@[simp] theorem State.dmemByte_startRun (s : State) (x : Nat) :
    (s.startRun).dmemByte x = s.dmemByte x := rfl
@[simp] theorem State.imemWord_startRun (s : State) (x : Nat) :
    (s.startRun).imemWord x = s.imemWord x := rfl
@[simp] theorem State.dmemByte_halt (s : State) (x : Nat) :
    (s.halt).dmemByte x = s.dmemByte x := rfl
@[simp] theorem State.imemWord_halt (s : State) (x : Nat) :
    (s.halt).imemWord x = s.imemWord x := rfl

end Sys2Proof.Machine
end

