-- ==== Sys2Proof/Laws/Exec.lean ====
section
/-! SUPPORT. What each shared operation of a meaning does, said once: the guards, and the frame of each way an
instruction completes. -/

namespace Sys2Proof.Machine

/-! The guards. -/

theorem whenLegal_of_wf {i : Instr} (h : i.wellFormed = true) (s t : State) : whenLegal i s t = .next t := by
  simp [whenLegal, h]

theorem whenLegal_of_ill {i : Instr} (h : i.wellFormed = false) (s t : State) :
    whenLegal i s t = .next (s.raise .illegal) := by
  simp [whenLegal, h]

theorem withDmem_inside {s : State} {addr : Half} {n : Nat} (h : s.inDmem addr n) (t : State) :
    withDmem s addr n t = t := if_pos h

theorem withDmem_outside {s : State} {addr : Half} {n : Nat} (h : ¬ s.inDmem addr n) (t : State) :
    withDmem s addr n t = s.raise .dmemRange := if_neg h

theorem withTarget_inside {s : State} {target : Half} (h : target.toNat < s.params.imemWords) (t : State) :
    withTarget s target t = t := if_pos h

theorem withTarget_outside {s : State} {target : Half} (h : ¬ target.toNat < s.params.imemWords) (t : State) :
    withTarget s target t = s.raise .imemRange := if_neg h

/-! A fault entry, field by field. -/

theorem raise_entersFault (s : State) (c : Cause) : entersFault s (s.raise c) c s.fetchWord := rfl

theorem raiseFetch_entersFault (s : State) : entersFault s s.raiseFetch .imemRange 0 := rfl

theorem abort_entersFault (s : State) : entersFault s s.abort .aborted 0 := rfl

/-! Frames: one lemma per way to complete. -/

theorem keepsControl_refl (s : State) : keepsControl s s := by simp [keepsControl]

/-- Nothing but pc and RETIRED. -/
theorem complete_frame (s : State) : onlyWrites s s.complete [] [] [] := by
  simp [onlyWrites, keepsF, keepsS, keepsP, keepsDmem, keepsControl, advances]

/-- One F register. -/
theorem writeF_complete_frame (s : State) (d : RegField) (v : Fe) :
    onlyWrites s (s.writeF d v).complete [d] [] [] := by
  refine ⟨fun r hr => ?_, by simp [keepsS], by simp [keepsP], rfl, fun _ => rfl, by simp [keepsControl], rfl, rfl⟩
  simpa using s.readF_writeF_ne v (by simpa using hr)

/-- One S register. -/
theorem writeS_complete_frame (s : State) (d : RegField) (hd : d.toNat < 8) (v : Scalar) :
    onlyWrites s (s.writeS d v).complete [] [d] [] := by
  refine ⟨by simp [keepsF], fun r h8 hr => ?_, by simp [keepsP], rfl, fun _ => rfl, by simp [keepsControl], rfl, rfl⟩
  simpa using s.readS_writeS_ne v hd h8 (by simpa using hr)

/-- One P register. -/
theorem writeP_complete_frame (s : State) (d : RegField) (hd : d.toNat < 8) (v : Point) :
    onlyWrites s (s.writeP d v).complete [] [] [d] := by
  refine ⟨by simp [keepsF], by simp [keepsS], fun r h8 hr => ?_, rfl, fun _ => rfl, by simp [keepsControl], rfl, rfl⟩
  simpa using s.readP_writeP_ne v hd h8 (by simpa using hr)

/-- CF only. -/
theorem setCf_complete_frame (s : State) (b : Bool) : onlyWritesCf s (s.setCf b).complete [] [] [] b := by
  simp [onlyWritesCf, keepsF, keepsS, keepsP, keepsDmem, keepsControl, advances]

/-- The stored bytes only. -/
theorem memWrite_complete_frame (s : State) (addr : Nat) (b : List Byte) :
    onlyStores s (s.memWrite addr b).complete addr b.length := by
  refine ⟨by simp [keepsF], by simp [keepsS], by simp [keepsP], rfl, fun a ha => ?_, by simp [keepsControl], rfl, rfl⟩
  simpa using s.dmemByte_memWrite_outside addr b ha

/-- What a store wrote is what a read of those bytes gives. -/
theorem memRead_memWrite_complete (s : State) (addr : Nat) (b : List Byte) :
    (s.memWrite addr b).complete.memRead addr b.length = b := s.memRead_memWrite addr b

end Sys2Proof.Machine
end

