-- ==== Sys2Proof/Laws/Prime.lean ====
section
/-! SUPPORT. p = 2^255 - 19 (R12) is prime, by a chain of Lucas certificates: a primitive root and the factors of
n - 1 for each n of the chain. -/

namespace Sys2Proof

-- One theorem at a time, as in Tests/Slice0.lean.
set_option Elab.async false

/-- `a^e mod n` for an exponent of at most `k` bits. -/
def powMod (n a : Nat) : Nat → Nat → Nat
  | 0, _ => 1 % n
  | k + 1, e =>
    let h := powMod n a k (e / 2)
    if e % 2 = 1 then h * h % n * a % n else h * h % n

theorem powMod_eq (n a k e : Nat) (h : e < 2 ^ k) : powMod n a k e = a ^ e % n := by
  induction k generalizing e with
  | zero =>
    obtain rfl : e = 0 := by simpa using h
    simp [powMod]
  | succ k ih =>
    have hh := ih (e / 2) (by rw [Nat.pow_succ] at h; omega)
    simp only [powMod, hh]
    have h2 : a ^ (e / 2) % n * (a ^ (e / 2) % n) % n = a ^ (e / 2 + e / 2) % n := by
      rw [← Nat.mul_mod, pow_add]
    rw [h2]
    split
    · conv_rhs => rw [show e = e / 2 + e / 2 + 1 by omega, pow_succ]
      rw [Nat.mod_mul_mod]
    · conv_rhs => rw [show e = e / 2 + e / 2 by omega]

/-- `a` is a primitive root mod `n`, and `fs` are the prime factors of n - 1 with their multiplicities. -/
abbrev LucasCert (n a : Nat) (fs : List Nat) : Prop :=
  1 < n ∧ fs.prod = n - 1 ∧ n < 2 ^ 256 ∧ powMod n a 256 (n - 1) = 1 ∧ ∀ f ∈ fs, powMod n a 256 ((n - 1) / f) ≠ 1

theorem prime_of_lucasCert {n a : Nat} {fs : List Nat} (h : LucasCert n a fs) (hp : ∀ f ∈ fs, f.Prime) :
    n.Prime := by
  obtain ⟨h1, hprod, hlt, hone, hne⟩ := h
  have key : ∀ e, e < 2 ^ 256 → ((a : ZMod n) ^ e = 1 ↔ powMod n a 256 e = 1) := by
    intro e he
    rw [powMod_eq n a 256 e he, ← Nat.cast_pow, ← Nat.cast_one, ZMod.natCast_eq_natCast_iff, Nat.ModEq,
      Nat.mod_eq_of_lt h1]
  refine lucas_primality n a ((key _ (by omega)).2 hone) fun q hq hd => ?_
  rw [← hprod, hq.prime.dvd_prod_iff] at hd
  obtain ⟨f, hf, hqf⟩ := hd
  obtain rfl := (Nat.prime_dvd_prime_iff_eq hq (hp f hf)).1 hqf
  have hle : (n - 1) / q ≤ n - 1 := Nat.div_le_self _ _
  rw [Ne, key _ (by omega)]
  exact hne q hf

theorem prime_cert0 : Nat.Prime 2773320623 :=
  prime_of_lucasCert (a := 5) (fs := [2, 2437, 569003]) (by decide +kernel) (by norm_num)

theorem prime_cert1 : Nat.Prime 72106336199 :=
  prime_of_lucasCert (a := 7) (fs := [2, 13, 2773320623]) (by decide +kernel)
    (by simp only [List.forall_mem_cons, prime_cert0]; norm_num)

theorem prime_cert2 : Nat.Prime 1919519569386763 :=
  prime_of_lucasCert (a := 2) (fs := [2, 3, 7, 19, 47, 47, 127, 8574133]) (by decide +kernel) (by norm_num)

theorem prime_cert3 : Nat.Prime 75445702479781427272750846543864801 :=
  prime_of_lucasCert (a := 7) (fs := [2, 2, 2, 2, 2, 3, 3, 5, 5, 75707, 72106336199, 1919519569386763])
    (by decide +kernel)
    (by simp only [List.forall_mem_cons, prime_cert1, prime_cert2]; norm_num)

theorem prime_cert4 : Nat.Prime 31757755568855353 :=
  prime_of_lucasCert (a := 10) (fs := [2, 2, 2, 3, 31, 107, 223, 4153, 430751]) (by decide +kernel) (by norm_num)

theorem prime_cert5 : Nat.Prime 74058212732561358302231226437062788676166966415465897661863160754340907 :=
  prime_of_lucasCert (a := 2)
    (fs := [2, 3, 353, 57467, 132049, 1923133, 31757755568855353, 75445702479781427272750846543864801])
    (by decide +kernel)
    (by simp only [List.forall_mem_cons, prime_cert3, prime_cert4]; norm_num)

/-- The field prime is prime (R12). -/
theorem fieldPrime_prime : fieldPrime.Prime :=
  prime_of_lucasCert (a := 2)
    (fs := [2, 2, 3, 65147, 74058212732561358302231226437062788676166966415465897661863160754340907])
    (by decide +kernel)
    (by simp only [List.forall_mem_cons, prime_cert5]; norm_num)

end Sys2Proof
end

