-- ==== Sys2Proof/Laws/FieldZMod.lean ====
section
/-! SUPPORT. The field unit computes in the field of p elements: `Fe.toZ` carries every operation of FieldArith.lean to
Mathlib's `ZMod fieldPrime`, and the curve constant is not a square there. -/

namespace Sys2Proof

-- One theorem at a time, as in Tests/Slice0.lean.
set_option Elab.async false

/-- A field register's value as an element of the field of p elements. -/
def Fe.toZ (a : Fe) : ZMod fieldPrime := (a.val : ZMod fieldPrime)

theorem fieldPrime_fact : Fact fieldPrime.Prime := ⟨fieldPrime_prime⟩

theorem Fe.toZ_inj {a b : Fe} : Fe.toZ a = Fe.toZ b ↔ a = b := by
  simp only [Fe.toZ, ZMod.natCast_eq_natCast_iff, Nat.ModEq, Nat.mod_eq_of_lt a.isLt, Nat.mod_eq_of_lt b.isLt]
  exact Fin.ext_iff.symm

@[simp] theorem Fe.toZ_ofNat (n : Nat) : Fe.toZ (Fe.ofNat n) = (n : ZMod fieldPrime) := by
  simp [Fe.toZ]

@[simp] theorem Fe.toZ_add (a b : Fe) : Fe.toZ (Fe.add a b) = Fe.toZ a + Fe.toZ b := by
  simp [Fe.toZ, Fe.add]

@[simp] theorem Fe.toZ_mul (a b : Fe) : Fe.toZ (Fe.mul a b) = Fe.toZ a * Fe.toZ b := by
  simp [Fe.toZ, Fe.mul]

@[simp] theorem Fe.toZ_sqr (a : Fe) : Fe.toZ (Fe.sqr a) = Fe.toZ a * Fe.toZ a := by
  simp [Fe.toZ, Fe.sqr]

@[simp] theorem Fe.toZ_neg (a : Fe) : Fe.toZ (Fe.neg a) = -Fe.toZ a := by
  simp [Fe.toZ, Fe.neg, Nat.cast_sub (Nat.le_of_lt a.isLt)]

@[simp] theorem Fe.toZ_sub (a b : Fe) : Fe.toZ (Fe.sub a b) = Fe.toZ a - Fe.toZ b := by
  simp [Fe.toZ, Fe.sub, Nat.cast_sub (Nat.le_of_lt b.isLt), sub_eq_add_neg]

theorem Fe.toZ_pow (a : Fe) (e : Nat) : Fe.toZ (Fe.pow a e) = Fe.toZ a ^ e := by
  simp only [Fe.toZ, Fe.pow_val, ZMod.natCast_mod, Nat.cast_pow]

/-- FINV's power is the inverse of the field, and 0 for 0 (R149). -/
@[simp] theorem Fe.toZ_inv (a : Fe) : Fe.toZ (Fe.inv a) = (Fe.toZ a)⁻¹ := by
  have := fieldPrime_fact
  have hp : fieldPrime - 2 ≠ 0 := by decide
  rw [Fe.inv, Fe.toZ_pow]
  by_cases h : Fe.toZ a = 0
  · rw [h, inv_zero, zero_pow hp]
  · refine eq_inv_of_mul_eq_one_left ?_
    rw [← pow_succ, show fieldPrime - 2 + 1 = fieldPrime - 1 by decide]
    exact ZMod.pow_card_sub_one_eq_one h

@[simp] theorem Fe.toZ_div (a b : Fe) : Fe.toZ (Fe.div a b) = Fe.toZ a * (Fe.toZ b)⁻¹ := by
  simp [Fe.div]

theorem Fe.toZ_eq_zero {a : Fe} : Fe.toZ a = 0 ↔ a.val = 0 := by
  have h := Fe.toZ_inj (a := a) (b := Fe.ofNat 0)
  rw [Fe.toZ_ofNat, Nat.cast_zero] at h
  rw [h, Fin.ext_iff, Fe.ofNat_val, Nat.zero_mod]

/-- Euler's criterion, with the power computed by the field unit: an element whose power (p-1)/2 is not 1 has no
square root. -/
theorem Fe.no_root {a : Fe} (ha : a.val ≠ 0) (h : Fe.pow a (fieldPrime / 2) ≠ Fe.ofNat 1) :
    ∀ r : Fe, Fe.sqr r ≠ a := by
  have := fieldPrime_fact
  intro r hr
  refine h (Fe.toZ_inj.1 ?_)
  rw [Fe.toZ_pow, Fe.toZ_ofNat, Nat.cast_one]
  refine (ZMod.euler_criterion fieldPrime (mt Fe.toZ_eq_zero.1 ha)).1 ⟨Fe.toZ r, ?_⟩
  rw [← hr, Fe.toZ_sqr]

/-- d is not a square (R14), which is what makes the group law complete (R192). -/
theorem curveD_no_root : ∀ r : Fe, Fe.sqr r ≠ Config.curveD :=
  Fe.no_root (by decide) (by decide +kernel)

/-- SQRT_M1 is a square root of -1 (R17). -/
theorem sqrtM1_sqr : Fe.sqr Config.sqrtM1 = Fe.neg (Fe.ofNat 1) := by decide +kernel

end Sys2Proof
end

