-- ==== Sys2Proof/Laws/Meanings.lean ====
section
/-! SUPPORT. The effect of each instruction once its guards have passed: one equation per instruction. The guards'
other outcomes are the lemmas of Laws/Exec.lean. -/

namespace Sys2Proof.Machine

variable (s : State)

theorem exec_nop :
    exec .nop s = .next s.complete := rfl

theorem exec_halt :
    exec .halt s = .next s.halt := rfl

theorem exec_fldi (d : RegField) (imm : Half) :
    exec (.fldi d imm) s = .next (s.writeF d (fieldImm imm)).complete := rfl

theorem exec_fadd (d a b : RegField) :
    exec (.fadd d a b) s = .next (s.writeF d (Fe.add (s.readF a) (s.readF b))).complete := rfl

theorem exec_fsub (d a b : RegField) :
    exec (.fsub d a b) s = .next (s.writeF d (Fe.sub (s.readF a) (s.readF b))).complete := rfl

theorem exec_fmul (d a b : RegField) :
    exec (.fmul d a b) s = .next (s.writeF d (Fe.mul (s.readF a) (s.readF b))).complete := rfl

theorem exec_fsqr (d a : RegField) :
    exec (.fsqr d a) s = .next (s.writeF d (Fe.sqr (s.readF a))).complete := rfl

theorem exec_finv (d a : RegField) :
    exec (.finv d a) s = .next (s.writeF d (Fe.inv (s.readF a))).complete := rfl

theorem exec_fsqrt (d u v : RegField) :
    exec (.fsqrt d u v) s = .next ((s.setCf (cfOfRoot (s.readF u) (s.readF v))).writeF d
      (Fe.sqrtRatio (s.readF u) (s.readF v)).2).complete := rfl

theorem exec_fsel (d a b : RegField) :
    exec (.fsel d a b) s = .next (s.writeF d (selectByCf s.cf (s.readF a) (s.readF b))).complete := rfl

theorem exec_fcswap (a b : RegField) :
    exec (.fcswap a b) s = .next (if s.cf then ((s.writeF a (s.readF b)).writeF b (s.readF a)).complete else s.complete) := rfl

theorem exec_feq (a b : RegField) :
    exec (.feq a b) s = .next (s.setCf (cfOfFieldEq (s.readF a) (s.readF b))).complete := rfl

theorem exec_jmp (target : Half) (h : target.toNat < s.params.imemWords) :
    exec (.jmp target) s = .next (s.completeAt target) := by
  simp only [exec, execJmp, withTarget_inside h]

theorem exec_bcs (target : Half) (h : target.toNat < s.params.imemWords) :
    exec (.bcs target) s = .next (if s.cf then s.completeAt target else s.complete) := by
  simp only [exec, execBcs, withTarget_inside h]

theorem exec_bcc (target : Half) (h : target.toNat < s.params.imemWords) :
    exec (.bcc target) s = .next (if s.cf then s.complete else s.completeAt target) := by
  simp only [exec, execBcc, withTarget_inside h]

theorem exec_fld (d : RegField) (addr : Half) (h : s.inDmem addr 32) :
    exec (.fld d addr) s = .next (s.writeF d (Fe.ofNat (loadOperand s addr 32))).complete := by
  simp only [exec, execFld, withDmem_inside h]

theorem exec_fst (a : RegField) (addr : Half) (h : s.inDmem addr 32) :
    exec (.fst a addr) s = .next (storeOperand s addr (s.readF a).val).complete := by
  simp only [exec, execFst, withDmem_inside h]

theorem exec_sld (d : RegField) (addr : Half) (hw : Instr.wellFormed (.sld d addr) = true)
    (h : s.inDmem addr 32) :
    exec (.sld d addr) s = .next (s.writeS d (BitVec.ofNat 256 (loadOperand s addr 32))).complete := by
  simp only [exec, execSld, whenLegal_of_wf hw, withDmem_inside h]

theorem exec_sldw (d : RegField) (addr : Half) (hw : Instr.wellFormed (.sldw d addr) = true)
    (h : s.inDmem addr 64) :
    exec (.sldw d addr) s = .next (s.writeS d (Scalar.reduce (loadOperand s addr 64))).complete := by
  simp only [exec, execSldw, whenLegal_of_wf hw, withDmem_inside h]

theorem exec_sst (a : RegField) (addr : Half) (hw : Instr.wellFormed (.sst a addr) = true)
    (h : s.inDmem addr 32) :
    exec (.sst a addr) s = .next (storeOperand s addr (s.readS a).toNat).complete := by
  simp only [exec, execSst, whenLegal_of_wf hw, withDmem_inside h]

theorem exec_pld (d : RegField) (addr : Half) (hw : Instr.wellFormed (.pld d addr) = true)
    (h : s.inDmem addr 32) :
    exec (.pld d addr) s = .next (s.takeDecoding d (Point.decompress (s.memRead addr.toNat 32) s.soRej)).complete := by
  simp only [exec, execPld, whenLegal_of_wf hw, withDmem_inside h]

theorem exec_pst (a : RegField) (addr : Half) (hw : Instr.wellFormed (.pst a addr) = true)
    (h : s.inDmem addr 32) :
    exec (.pst a addr) s = .next (s.memWrite addr.toNat (s.readP a).compress).complete := by
  simp only [exec, execPst, whenLegal_of_wf hw, withDmem_inside h]

theorem exec_sldi (d : RegField) (imm : Half) (hw : Instr.wellFormed (.sldi d imm) = true) :
    exec (.sldi d imm) s = .next (s.writeS d (scalarImm imm)).complete := whenLegal_of_wf hw s _

theorem exec_smuladd (d a b c : RegField) (hw : Instr.wellFormed (.smuladd d a b c) = true) :
    exec (.smuladd d a b c) s = .next (s.writeS d (Scalar.mulAdd (s.readS a) (s.readS b) (s.readS c))).complete := whenLegal_of_wf hw s _

theorem exec_sclamp (d a : RegField) (hw : Instr.wellFormed (.sclamp d a) = true) :
    exec (.sclamp d a) s = .next (s.writeS d (Scalar.clamp (s.readS a))).complete := whenLegal_of_wf hw s _

theorem exec_schk (a : RegField) (hw : Instr.wellFormed (.schk a) = true) :
    exec (.schk a) s = .next (s.setCf (cfOfCanonical (s.readS a))).complete := whenLegal_of_wf hw s _

theorem exec_pident (d : RegField) (hw : Instr.wellFormed (.pident d) = true) :
    exec (.pident d) s = .next (s.writeP d Config.identity).complete := whenLegal_of_wf hw s _

theorem exec_pbase (d : RegField) (hw : Instr.wellFormed (.pbase d) = true) :
    exec (.pbase d) s = .next (s.writeP d Config.basePoint).complete := whenLegal_of_wf hw s _

theorem exec_padd (d a b : RegField) (hw : Instr.wellFormed (.padd d a b) = true) :
    exec (.padd d a b) s = .next (s.writeP d (Point.add (s.readP a) (s.readP b))).complete := whenLegal_of_wf hw s _

theorem exec_pdbl (d a : RegField) (hw : Instr.wellFormed (.pdbl d a) = true) :
    exec (.pdbl d a) s = .next (s.writeP d (Point.double (s.readP a))).complete := whenLegal_of_wf hw s _

theorem exec_smul (d k a : RegField) (hw : Instr.wellFormed (.smul d k a) = true) :
    exec (.smul d k a) s = .next (s.writeP d (Point.mul (s.readS k).toNat (s.readP a))).complete := whenLegal_of_wf hw s _

theorem exec_dsmulv (d a p b : RegField) (hw : Instr.wellFormed (.dsmulv d a p b) = true) :
    exec (.dsmulv d a p b) s = .next (s.writeP d (Point.add (Point.mul (s.readS a).toNat (s.readP p))
      (Point.mul (s.readS b).toNat Config.basePoint))).complete := whenLegal_of_wf hw s _

theorem exec_peq (a b : RegField) (hw : Instr.wellFormed (.peq a b) = true) :
    exec (.peq a b) s = .next (s.setCf (cfOfPointEq (s.readP a) (s.readP b))).complete := whenLegal_of_wf hw s _

theorem exec_psmall (a : RegField) (hw : Instr.wellFormed (.psmall a) = true) :
    exec (.psmall a) s = .next (s.setCf (cfOfSmallOrder (s.readP a))).complete := whenLegal_of_wf hw s _

theorem exec_paff (x y a : RegField) (hw : Instr.wellFormed (.paff x y a) = true) :
    exec (.paff x y a) s = .next ((s.writeF x (s.readP a).x).writeF y (s.readP a).y).complete := whenLegal_of_wf hw s _

/-! ## Everything an instruction can do -/

/-- Where the value of a point register can come from (R191). -/
inductive PointSource (s : State) : Point → Prop
  | identity : PointSource s Config.identity
  | base : PointSource s Config.basePoint
  | sum (a b : RegField) : PointSource s (Point.add (s.readP a) (s.readP b))
  | multiple (k : Nat) (a : RegField) : PointSource s (Point.mul k (s.readP a))
  | combination (k : Nat) (a : RegField) (m : Nat) :
    PointSource s (Point.add (Point.mul k (s.readP a)) (Point.mul m Config.basePoint))
  | decoded (b : List Byte) (sorej : Bool) (q : Point) (h : Point.decompress b sorej = some q) : PointSource s q

/-- What an instruction that completes does besides advancing: the one register it writes, CF, or the bytes it stores,
which lie in DMEM. -/
inductive Effect (s : State) : State → Prop
  | nothing : Effect s s
  | field (d : RegField) (v : Fe) : Effect s (s.writeF d v)
  | fields (d e : RegField) (v w : Fe) : Effect s ((s.writeF d v).writeF e w)
  | flag (b : Bool) : Effect s (s.setCf b)
  | flagField (b : Bool) (d : RegField) (v : Fe) : Effect s ((s.setCf b).writeF d v)
  | scalar (d : RegField) (v : Scalar) : Effect s (s.writeS d v)
  | point (d : RegField) (q : Point) (h : PointSource s q) : Effect s (s.writeP d q)
  | pointFlag (d : RegField) (q : Point) (b : Bool) (h : PointSource s q) : Effect s ((s.writeP d q).setCf b)
  | store (addr : Nat) (b : List Byte) (h : addr + b.length ≤ s.params.dmemSize) : Effect s (s.memWrite addr b)

/-- An outcome of the instruction: a fault entry, HALT's own, its branch taken, or an effect and the advance. -/
inductive ExecResult (i : Instr) (s : State) : State → Prop
  | fault (c : Cause) (h : c = .illegal ∨ c = .dmemRange ∨ c = .imemRange) : ExecResult i s (s.raise c)
  | halt (h : i = .halt) : ExecResult i s s.halt
  | branch (target : Half) (h : i.branchTarget = some target) : ExecResult i s (s.completeAt target)
  | effect (u : State) (h : Effect s u) : ExecResult i s u.complete

theorem ExecResult.whenLegal {s t : State} {i : Instr} (h : ExecResult i s t) :
    ∃ t', Sys2Proof.Machine.whenLegal i s t = .next t' ∧ ExecResult i s t' := by
  unfold Sys2Proof.Machine.whenLegal
  split
  · exact ⟨_, rfl, h⟩
  · exact ⟨_, rfl, .fault .illegal (.inl rfl)⟩

theorem ExecResult.withDmem {i : Instr} {s t : State} {addr : Half} {n : Nat} (h : s.inDmem addr n → ExecResult i s t) :
    ExecResult i s (Sys2Proof.Machine.withDmem s addr n t) := by
  unfold Sys2Proof.Machine.withDmem
  split
  · exact h ‹_›
  · exact .fault .dmemRange (.inr (.inl rfl))

theorem ExecResult.withTarget {i : Instr} {s t : State} {target : Half} (h : ExecResult i s t) :
    ExecResult i s (Sys2Proof.Machine.withTarget s target t) := by
  unfold Sys2Proof.Machine.withTarget
  split
  · exact h
  · exact .fault .imemRange (.inr (.inr rfl))

@[simp] theorem compress_length (q : Point) : q.compress.length = 32 := toLE_length 32 _

theorem Effect.takeDecoding (s : State) (d : RegField) (b : List Byte) (sorej : Bool) :
    Effect s (s.takeDecoding d (Point.decompress b sorej)) := by
  unfold State.takeDecoding
  cases h : Point.decompress b sorej with
  | some q => exact .pointFlag d q _ (.decoded b sorej q h)
  | none => exact .flag _

/-- THE INVERSION OF `exec`: every instruction answers a next state, and it is one of these outcomes. -/
theorem exec_outcome (i : Instr) (s : State) : ∃ t, exec i s = .next t ∧ ExecResult i s t := by
  cases i with
  | nop => exact ⟨_, rfl, .effect _ .nothing⟩
  | halt => exact ⟨_, rfl, .halt rfl⟩
  | jmp target => exact ⟨_, rfl, ExecResult.withTarget (.branch _ rfl)⟩
  | bcs target =>
    refine ⟨_, rfl, ExecResult.withTarget ?_⟩
    cases s.cf
    · exact .effect _ .nothing
    · exact .branch _ rfl
  | bcc target =>
    refine ⟨_, rfl, ExecResult.withTarget ?_⟩
    cases s.cf
    · exact .branch _ rfl
    · exact .effect _ .nothing
  | fld d addr => exact ⟨_, rfl, ExecResult.withDmem fun _ => .effect _ (.field _ _)⟩
  | fst a addr => exact ⟨_, rfl, ExecResult.withDmem fun h => .effect _ (.store _ _ (by simpa using h))⟩
  | fldi d imm => exact ⟨_, rfl, .effect _ (.field _ _)⟩
  | fadd d a b => exact ⟨_, rfl, .effect _ (.field _ _)⟩
  | fsub d a b => exact ⟨_, rfl, .effect _ (.field _ _)⟩
  | fmul d a b => exact ⟨_, rfl, .effect _ (.field _ _)⟩
  | fsqr d a => exact ⟨_, rfl, .effect _ (.field _ _)⟩
  | finv d a => exact ⟨_, rfl, .effect _ (.field _ _)⟩
  | fsqrt d u v => exact ⟨_, rfl, .effect _ (.flagField _ _ _)⟩
  | fsel d a b => exact ⟨_, rfl, .effect _ (.field _ _)⟩
  | fcswap a b =>
    refine ⟨_, rfl, ?_⟩
    cases s.cf
    · exact .effect _ .nothing
    · exact .effect _ (.fields _ _ _ _)
  | feq a b => exact ⟨_, rfl, .effect _ (.flag _)⟩
  | sld d addr => exact ExecResult.whenLegal (ExecResult.withDmem fun _ => .effect _ (.scalar _ _))
  | sldw d addr => exact ExecResult.whenLegal (ExecResult.withDmem fun _ => .effect _ (.scalar _ _))
  | sst a addr => exact ExecResult.whenLegal (ExecResult.withDmem fun h => .effect _ (.store _ _ (by simpa using h)))
  | sldi d imm => exact ExecResult.whenLegal (.effect _ (.scalar _ _))
  | smuladd d a b c => exact ExecResult.whenLegal (.effect _ (.scalar _ _))
  | sclamp d a => exact ExecResult.whenLegal (.effect _ (.scalar _ _))
  | schk a => exact ExecResult.whenLegal (.effect _ (.flag _))
  | pld d addr => exact ExecResult.whenLegal (ExecResult.withDmem fun _ => .effect _ (.takeDecoding _ _ _ _))
  | pst a addr => exact ExecResult.whenLegal (ExecResult.withDmem fun h => .effect _ (.store _ _ (by simpa using h)))
  | pident d => exact ExecResult.whenLegal (.effect _ (.point _ _ .identity))
  | pbase d => exact ExecResult.whenLegal (.effect _ (.point _ _ .base))
  | padd d a b => exact ExecResult.whenLegal (.effect _ (.point _ _ (.sum _ _)))
  | pdbl d a => exact ExecResult.whenLegal (.effect _ (.point _ _ (.sum _ _)))
  | smul d k a => exact ExecResult.whenLegal (.effect _ (.point _ _ (.multiple _ _)))
  | dsmulv d a p b => exact ExecResult.whenLegal (.effect _ (.point _ _ (.combination _ _ _)))
  | peq a b => exact ExecResult.whenLegal (.effect _ (.flag _))
  | psmall a => exact ExecResult.whenLegal (.effect _ (.flag _))
  | paff x y a => exact ExecResult.whenLegal (.effect _ (.fields _ _ _ _))

end Sys2Proof.Machine
end

