-- ==== Sys2Proof/Laws/PerInstr.lean ====
section
/-! SUPPORT. Statements made per instruction, one lemma per constructor of `Instr`. -/

namespace Sys2Proof.Laws.OpcodeInMap

/-- An instruction's word carries the opcode that its row of the opcode map has (R101, R109). -/
def Statement (i : Instr) : Prop :=
  ∃ row ∈ opcodeRows, row.mnemonic = i.mnemonic ∧ opcodeField (encode i) = row.opcode

theorem nop : Statement .nop :=
  ⟨opcodeRows[0], List.getElem_mem _, rfl, opcodeField_packJ (by decide) _⟩

theorem halt : Statement .halt :=
  ⟨opcodeRows[1], List.getElem_mem _, rfl, opcodeField_packJ (by decide) _⟩

theorem jmp (t : Half) : Statement (.jmp t) :=
  ⟨opcodeRows[2], List.getElem_mem _, rfl, opcodeField_packJ (by decide) _⟩

theorem bcs (t : Half) : Statement (.bcs t) :=
  ⟨opcodeRows[3], List.getElem_mem _, rfl, opcodeField_packJ (by decide) _⟩

theorem bcc (t : Half) : Statement (.bcc t) :=
  ⟨opcodeRows[4], List.getElem_mem _, rfl, opcodeField_packJ (by decide) _⟩

theorem fld (d : RegField) (v : Half) : Statement (.fld d v) :=
  ⟨opcodeRows[5], List.getElem_mem _, rfl, opcodeField_packMI (by decide) _ _⟩

theorem fst (d : RegField) (v : Half) : Statement (.fst d v) :=
  ⟨opcodeRows[6], List.getElem_mem _, rfl, opcodeField_packMI (by decide) _ _⟩

theorem fldi (d : RegField) (v : Half) : Statement (.fldi d v) :=
  ⟨opcodeRows[7], List.getElem_mem _, rfl, opcodeField_packMI (by decide) _ _⟩

theorem fadd (d a b : RegField) : Statement (.fadd d a b) :=
  ⟨opcodeRows[8], List.getElem_mem _, rfl, opcodeField_packR (by decide) _ _ _ _⟩

theorem fsub (d a b : RegField) : Statement (.fsub d a b) :=
  ⟨opcodeRows[9], List.getElem_mem _, rfl, opcodeField_packR (by decide) _ _ _ _⟩

theorem fmul (d a b : RegField) : Statement (.fmul d a b) :=
  ⟨opcodeRows[10], List.getElem_mem _, rfl, opcodeField_packR (by decide) _ _ _ _⟩

theorem fsqr (d a : RegField) : Statement (.fsqr d a) :=
  ⟨opcodeRows[11], List.getElem_mem _, rfl, opcodeField_packR (by decide) _ _ _ _⟩

theorem finv (d a : RegField) : Statement (.finv d a) :=
  ⟨opcodeRows[12], List.getElem_mem _, rfl, opcodeField_packR (by decide) _ _ _ _⟩

theorem fsqrt (d a b : RegField) : Statement (.fsqrt d a b) :=
  ⟨opcodeRows[13], List.getElem_mem _, rfl, opcodeField_packR (by decide) _ _ _ _⟩

theorem fsel (d a b : RegField) : Statement (.fsel d a b) :=
  ⟨opcodeRows[14], List.getElem_mem _, rfl, opcodeField_packR (by decide) _ _ _ _⟩

theorem fcswap (a b : RegField) : Statement (.fcswap a b) :=
  ⟨opcodeRows[15], List.getElem_mem _, rfl, opcodeField_packR (by decide) _ _ _ _⟩

theorem feq (a b : RegField) : Statement (.feq a b) :=
  ⟨opcodeRows[16], List.getElem_mem _, rfl, opcodeField_packR (by decide) _ _ _ _⟩

theorem sld (d : RegField) (v : Half) : Statement (.sld d v) :=
  ⟨opcodeRows[17], List.getElem_mem _, rfl, opcodeField_packMI (by decide) _ _⟩

theorem sldw (d : RegField) (v : Half) : Statement (.sldw d v) :=
  ⟨opcodeRows[18], List.getElem_mem _, rfl, opcodeField_packMI (by decide) _ _⟩

theorem sst (d : RegField) (v : Half) : Statement (.sst d v) :=
  ⟨opcodeRows[19], List.getElem_mem _, rfl, opcodeField_packMI (by decide) _ _⟩

theorem sldi (d : RegField) (v : Half) : Statement (.sldi d v) :=
  ⟨opcodeRows[20], List.getElem_mem _, rfl, opcodeField_packMI (by decide) _ _⟩

theorem smuladd (d a b c : RegField) : Statement (.smuladd d a b c) :=
  ⟨opcodeRows[21], List.getElem_mem _, rfl, opcodeField_packR (by decide) _ _ _ _⟩

theorem sclamp (d a : RegField) : Statement (.sclamp d a) :=
  ⟨opcodeRows[22], List.getElem_mem _, rfl, opcodeField_packR (by decide) _ _ _ _⟩

theorem schk (a : RegField) : Statement (.schk a) :=
  ⟨opcodeRows[23], List.getElem_mem _, rfl, opcodeField_packR (by decide) _ _ _ _⟩

theorem pld (d : RegField) (v : Half) : Statement (.pld d v) :=
  ⟨opcodeRows[24], List.getElem_mem _, rfl, opcodeField_packMI (by decide) _ _⟩

theorem pst (d : RegField) (v : Half) : Statement (.pst d v) :=
  ⟨opcodeRows[25], List.getElem_mem _, rfl, opcodeField_packMI (by decide) _ _⟩

theorem pident (d : RegField) : Statement (.pident d) :=
  ⟨opcodeRows[26], List.getElem_mem _, rfl, opcodeField_packR (by decide) _ _ _ _⟩

theorem pbase (d : RegField) : Statement (.pbase d) :=
  ⟨opcodeRows[27], List.getElem_mem _, rfl, opcodeField_packR (by decide) _ _ _ _⟩

theorem padd (d a b : RegField) : Statement (.padd d a b) :=
  ⟨opcodeRows[28], List.getElem_mem _, rfl, opcodeField_packR (by decide) _ _ _ _⟩

theorem pdbl (d a : RegField) : Statement (.pdbl d a) :=
  ⟨opcodeRows[29], List.getElem_mem _, rfl, opcodeField_packR (by decide) _ _ _ _⟩

theorem smul (d a b : RegField) : Statement (.smul d a b) :=
  ⟨opcodeRows[30], List.getElem_mem _, rfl, opcodeField_packR (by decide) _ _ _ _⟩

theorem dsmulv (d a b c : RegField) : Statement (.dsmulv d a b c) :=
  ⟨opcodeRows[31], List.getElem_mem _, rfl, opcodeField_packR (by decide) _ _ _ _⟩

theorem peq (a b : RegField) : Statement (.peq a b) :=
  ⟨opcodeRows[32], List.getElem_mem _, rfl, opcodeField_packR (by decide) _ _ _ _⟩

theorem psmall (a : RegField) : Statement (.psmall a) :=
  ⟨opcodeRows[33], List.getElem_mem _, rfl, opcodeField_packR (by decide) _ _ _ _⟩

theorem paff (d a b : RegField) : Statement (.paff d a b) :=
  ⟨opcodeRows[34], List.getElem_mem _, rfl, opcodeField_packR (by decide) _ _ _ _⟩

end Sys2Proof.Laws.OpcodeInMap
end

