-- ==== Sys2Proof/Laws/Step.lean ====
section
/-! SUPPORT. What a step can do: the cases of `step` and of the core's cycle, and the canonical form of the memories
that reset and ZEROIZE leave. -/

namespace Sys2Proof.Machine

theorem step_of_no_input {s : State} (h : s.inputs = []) : step s = coreCycle s := by simp [step, h]

theorem step_of_input {s : State} {e : HostEvent} {rest : List HostEvent} (h : s.inputs = e :: rest) :
    step s = hostStep e { s with inputs := rest } := by simp [step, h]

/-- The core's turn is one core cycle, whether or not host events wait behind it. -/
theorem step_of_coreTurn {s u : State} (h : s.CoreTurn u) : step s = coreCycle u := by
  obtain ⟨hi, rfl⟩ | ⟨rest, hi, rfl⟩ := h
  · exact step_of_no_input hi
  · exact step_of_input hi

/-- A 32-bit read at a multiple of 4 is the host's read. -/
theorem step_of_read {s : State} {offset : Half} {rest : List HostEvent} (h : s.inputs = .read offset 4 :: rest)
    (ha : offset.toNat % 4 = 0) : step s = .next (hostRead { s with inputs := rest } offset.toNat) := by
  rw [step_of_input h]; exact if_pos ⟨rfl, ha⟩

/-- A 32-bit write at a multiple of 4 is the host's write. -/
theorem step_of_write {s : State} {offset : Half} {w : Word} {rest : List HostEvent}
    (h : s.inputs = .write offset 4 w :: rest) (ha : offset.toNat % 4 = 0) :
    step s = .next (hostWrite { s with inputs := rest } offset.toNat w) := by
  rw [step_of_input h]; exact if_pos ⟨rfl, ha⟩

/-- Below 0x4000 a read returns the register's word and has no other effect (R42). -/
theorem readsAs_register (s : State) {offset : Half} (ho : offset.toNat < 0x4000) (ha : offset.toNat % 4 = 0) :
    s.readsAs offset (s.registerWord offset.toNat) := fun rest h => by
  rw [step_of_read h ha, hostRead, if_pos ho]; rfl

/-- IDLE, a read of a window returns the window's word and has no other effect (R80, R81). -/
theorem readsAs_window (s : State) {offset : Half} (hr : s.run = .idle) (ho : ¬ offset.toNat < 0x4000)
    (ha : offset.toNat % 4 = 0) : s.readsAs offset (s.windowWord offset.toNat) := fun rest h => by
  rw [step_of_read h ha, hostRead, if_neg ho, if_neg (by simp [State.busy, hr])]; rfl

/-- IDLE, a write of a window is the window's write (R79, R81). -/
theorem step_of_window_write {s : State} {offset : Half} {w : Word} {rest : List HostEvent}
    (h : s.inputs = .write offset 4 w :: rest) (hr : s.run = .idle) (ho : ¬ offset.toNat < 0x4000)
    (ha : offset.toNat % 4 = 0) : step s = .next (State.windowWrite { s with inputs := rest } offset.toNat w) := by
  rw [step_of_write h ha, hostWrite, if_neg ho, if_neg (by simp [State.busy, hr])]

theorem coreCycle_idle {s : State} (h : s.run = .idle) : coreCycle s = .next s := by simp [coreCycle, h]

theorem coreCycle_beyond {s : State} (h : s.run = .busy) (hp : ¬ s.pc.toNat < s.params.imemWords) :
    coreCycle s = .next s.raiseFetch := by simp [coreCycle, h, hp]

theorem coreCycle_illegal {s : State} (h : s.run = .busy) (hp : s.pc.toNat < s.params.imemWords)
    (hd : decode s.fetchWord = none) : coreCycle s = .next (s.raise .illegal) := by simp [coreCycle, h, hp, hd]

theorem coreCycle_decoded {s : State} {i : Instr} (h : s.run = .busy) (hp : s.pc.toNat < s.params.imemWords)
    (hd : decode s.fetchWord = some i) : coreCycle s = exec i s := by simp [coreCycle, h, hp, hd]

/-- The decoder yields well-formed instructions only (R110, condition 4). -/
theorem decode_wellFormed {w : Word} {i : Instr} (h : decode w = some i) : i.wellFormed = true := by
  simp only [decode, Option.filter_eq_some_iff] at h
  exact h.2

/-- Both memories are empty after reset, and so in canonical form. -/
theorem afterReset_memoryWf (c : Params) (n : Nat) : (State.afterReset c n).MemoryWf := by
  simp [State.MemoryWf, State.afterReset]

theorem zeroize_dmem_wf (s : State) : Memory.wf s.zeroize.dmem := by
  simp only [State.zeroize, Memory.wf, List.pairwise_map]
  exact List.pairwise_lt_range

end Sys2Proof.Machine
end

