-- ==== Sys2Proof/Machine/Assembler.lean ====
section
/-! DEFINITION. The assembler (rules R115 to R117): the text of a program to lines, and lines to (IMEM index, word)
pairs. Printing an instruction is `Instr.asm` in Syntax.lean. -/

namespace Sys2Proof.Machine

/-- Which J-format instruction a line with a label operand is. -/
inductive BranchOp where
  | jmp
  | bcs
  | bcc
deriving DecidableEq, Repr

/-- One line of a program (R115). -/
inductive AsmLine where
  /-- `name:` names the index of the next instruction. -/
  | label (name : String)
  /-- An instruction with no label operand. -/
  | insn (i : Instr)
  /-- `JMP name`, `BCS name` or `BCC name`: target = the label's IMEM index (R116). -/
  | branch (op : BranchOp) (name : String)
  /-- `.org n`: the next instruction stands at index n. -/
  | org (n : Nat)
  /-- `.word v`: the 32-bit value v. -/
  | word (v : Word)
deriving DecidableEq, Repr

/-! From lines to words. -/

/-- The IMEM index after a line that starts at index `at0`. -/
def AsmLine.nextIndex (at0 : Nat) : AsmLine → Nat
  | .label _ => at0
  | .insn _ | .branch _ _ | .word _ => at0 + 1
  | .org n => n

/-- The index each label names (R115). A label directly before an `.org`, or with no instruction after it, names the
index that holds at the label, not the one the `.org` sets: DESIGN CHOICE, safe, log entry 15. -/
def labelTable : Nat → List AsmLine → List (String × Nat)
  | _, [] => []
  | at0, .label name :: rest => (name, at0) :: labelTable at0 rest
  | at0, line :: rest => labelTable (line.nextIndex at0) rest

/-- The branch instruction with its target filled in. -/
def BranchOp.instr (op : BranchOp) (target : Half) : Instr :=
  match op with
  | .jmp => .jmp target
  | .bcs => .bcs target
  | .bcc => .bcc target

/-- The word of one line: none for a label that is not defined or has no 16-bit index, or an operand that is not well
formed, and no word for a label or an `.org`. -/
def AsmLine.wordOf (labels : List (String × Nat)) : AsmLine → Option (Option Word)
  | .label _ | .org _ => some none
  | .word v => some (some v)
  | .insn i => if i.wellFormed then some (some (encode i)) else none
  | .branch op name =>
    (labels.lookup name).bind fun n =>
      if n < 2 ^ 16 then some (some (encode (op.instr (BitVec.ofNat 16 n)))) else none

/-- The words of the lines from index `at0` on. -/
def assembleFrom (labels : List (String × Nat)) : Nat → List AsmLine → Option (List (Nat × Word))
  | _, [] => some []
  | at0, line :: rest =>
    match line.wordOf labels, assembleFrom labels (line.nextIndex at0) rest with
    | some (some w), some ws => some ((at0, w) :: ws)
    | some none, some ws => some ws
    | _, _ => none

/-- A program's words with their IMEM indexes, from index 0 (R115). -/
def assemble (program : List AsmLine) : Option (List (Nat × Word)) :=
  assembleFrom (labelTable 0 program) 0 program

/-! From text to lines. -/

/-- A token of a line: a run of letters, digits, points and underscores, or one other character. -/
inductive AsmToken where
  | text (s : String)
  | mark (c : Char)
deriving DecidableEq, Repr

/-- A character of a name or a number. -/
def isNameChar (c : Char) : Bool := c.isAlphanum || c == '_' || c == '.'

/-- A finished run of name characters, which is held in reverse. -/
def endName (rev : List Char) (rest : List AsmToken) : List AsmToken :=
  if rev.isEmpty then rest else .text (String.ofList rev.reverse) :: rest

/-- The tokens of a line; `;` begins a comment (R115). -/
def tokens : List Char → List Char → List AsmToken
  | rev, [] => endName rev []
  | rev, c :: cs =>
    if isNameChar c then tokens (c :: rev) cs
    else if c == ';' then endName rev []
    else if c == ' ' || c == '\t' || c == '\r' then endName rev (tokens [] cs)
    else endName rev (.mark c :: tokens [] cs)

/-- The value of a digit below `base`. -/
def digitValue (base : Nat) (c : Char) : Option Nat :=
  let v :=
    if '0' ≤ c ∧ c ≤ '9' then c.toNat - '0'.toNat
    else if 'a' ≤ c ∧ c ≤ 'f' then c.toNat - 'a'.toNat + 10
    else if 'A' ≤ c ∧ c ≤ 'F' then c.toNat - 'A'.toNat + 10
    else 16
  if v < base then some v else none

/-- The value of a string of digits. -/
def digitsValue (base : Nat) : Nat → List Char → Option Nat
  | acc, [] => some acc
  | acc, c :: cs => (digitValue base c).bind fun v => digitsValue base (acc * base + v) cs

/-- A number: decimal or `0x` hexadecimal (R115). -/
def parseNumber (s : String) : Option Nat :=
  match s.toList with
  | '0' :: 'x' :: c :: cs => digitsValue 16 0 (c :: cs)
  | c :: cs => digitsValue 10 0 (c :: cs)
  | [] => none

/-- A number below 2^16. -/
def parseHalf (s : String) : Option Half :=
  (parseNumber s).bind fun n => if n < 2 ^ 16 then some (BitVec.ofNat 16 n) else none

/-- A register name: `F0` to `F15`, `S0` to `S7`, `P0` to `P7` (R115). -/
def parseReg (file : String) : List AsmToken → Option RegField
  | [.text s] =>
    ((List.range (if file = "F" then 16 else 8)).find? fun k => s = regName file (BitVec.ofNat 4 k)).map
      (BitVec.ofNat 4)
  | _ => none

/-- A memory operand `[addr]` (R116). -/
def parseMem : List AsmToken → Option Half
  | [.mark '[', .text s, .mark ']'] => parseHalf s
  | _ => none

/-- An immediate operand `#imm` (R116). -/
def parseImm : List AsmToken → Option Half
  | [.mark '#', .text s] => parseHalf s
  | _ => none

/-- A branch operand: a number, or else a label (R116). -/
def parseTarget (op : BranchOp) : List AsmToken → Option AsmLine
  | [.text s] =>
    match s.toList with
    | c :: _ => if c.isDigit then (parseHalf s).map fun t => .insn (op.instr t) else some (.branch op s)
    | [] => none
  | _ => none

/-- The operands, separated by commas. -/
def splitCommas : List AsmToken → List (List AsmToken)
  | [] => [[]]
  | t :: ts =>
    match splitCommas ts with
    | [] => [[t]]
    | h :: rest => if t = .mark ',' then [] :: h :: rest else (t :: h) :: rest

/-- `MNEM R, [addr]`. -/
def parseLoad (file : String) (mk : RegField → Half → Instr) : List (List AsmToken) → Option Instr
  | [a, b] => (parseReg file a).bind fun r => (parseMem b).map (mk r)
  | _ => none

/-- `MNEM [addr], R`. -/
def parseStore (file : String) (mk : RegField → Half → Instr) : List (List AsmToken) → Option Instr
  | [a, b] => (parseReg file b).bind fun r => (parseMem a).map (mk r)
  | _ => none

/-- `MNEM R, #imm`. -/
def parseConst (file : String) (mk : RegField → Half → Instr) : List (List AsmToken) → Option Instr
  | [a, b] => (parseReg file a).bind fun r => (parseImm b).map (mk r)
  | _ => none

/-- One register operand. -/
def parse1 (f : String) (mk : RegField → Instr) : List (List AsmToken) → Option Instr
  | [a] => (parseReg f a).map mk
  | _ => none

/-- Two register operands. -/
def parse2 (f g : String) (mk : RegField → RegField → Instr) : List (List AsmToken) → Option Instr
  | [a, b] => (parseReg f a).bind fun x => (parseReg g b).map (mk x)
  | _ => none

/-- Three register operands. -/
def parse3 (f g h : String) (mk : RegField → RegField → RegField → Instr) : List (List AsmToken) → Option Instr
  | [a, b, c] => (parseReg f a).bind fun x => (parseReg g b).bind fun y => (parseReg h c).map (mk x y)
  | _ => none

/-- Four register operands. -/
def parse4 (f g h k : String) (mk : RegField → RegField → RegField → RegField → Instr) :
    List (List AsmToken) → Option Instr
  | [a, b, c, d] =>
    (parseReg f a).bind fun x => (parseReg g b).bind fun y => (parseReg h c).bind fun z => (parseReg k d).map (mk x y z)
  | _ => none

/-- An instruction without a branch operand, the pseudo-instructions of R117 among them; its operands in the order of
R116. -/
def parseInstr (mnemonic : String) (operands : List (List AsmToken)) : Option Instr :=
  match mnemonic with
  | "NOP" => if operands = [[]] then some .nop else none
  | "HALT" => if operands = [[]] then some .halt else none
  | "FLD" => parseLoad "F" .fld operands
  | "FST" => parseStore "F" .fst operands
  | "FLDI" => parseConst "F" .fldi operands
  | "FADD" => parse3 "F" "F" "F" .fadd operands
  | "FSUB" => parse3 "F" "F" "F" .fsub operands
  | "FMUL" => parse3 "F" "F" "F" .fmul operands
  | "FSQR" => parse2 "F" "F" .fsqr operands
  | "FINV" => parse2 "F" "F" .finv operands
  | "FSQRT" => parse3 "F" "F" "F" .fsqrt operands
  | "FSEL" => parse3 "F" "F" "F" .fsel operands
  | "FCSWAP" => parse2 "F" "F" .fcswap operands
  | "FEQ" => parse2 "F" "F" .feq operands
  | "SLD" => parseLoad "S" .sld operands
  | "SLDW" => parseLoad "S" .sldw operands
  | "SST" => parseStore "S" .sst operands
  | "SLDI" => parseConst "S" .sldi operands
  | "SMULADD" => parse4 "S" "S" "S" "S" .smuladd operands
  | "SCLAMP" => parse2 "S" "S" .sclamp operands
  | "SCHK" => parse1 "S" .schk operands
  | "PLD" => parseLoad "P" .pld operands
  | "PST" => parseStore "P" .pst operands
  | "PIDENT" => parse1 "P" .pident operands
  | "PBASE" => parse1 "P" .pbase operands
  | "PADD" => parse3 "P" "P" "P" .padd operands
  | "PDBL" => parse2 "P" "P" .pdbl operands
  | "SMUL" => parse3 "P" "S" "P" .smul operands
  | "DSMULV" => parse4 "P" "S" "P" "S" .dsmulv operands
  | "PEQ" => parse2 "P" "P" .peq operands
  | "PSMALL" => parse1 "P" .psmall operands
  | "PAFF" => parse3 "F" "F" "P" .paff operands
  | "FMOV" => parse2 "F" "F" .fmov operands
  | "FCLR" => parse1 "F" .fclr operands
  | "SCLR" => parse1 "S" .sclr operands
  | _ => none

/-- What follows the label: nothing, a directive, a branch or another instruction. -/
def parseBody : List AsmToken → Option (List AsmLine)
  | [] => some []
  | .mark _ :: _ => none
  | .text m :: rest =>
    match m, rest with
    | ".org", [.text s] => (parseNumber s).map fun n => [.org n]
    | ".word", [.text s] =>
      (parseNumber s).bind fun n => if n < 2 ^ 32 then some [.word (BitVec.ofNat 32 n)] else none
    | "JMP", ops => (parseTarget .jmp ops).map fun l => [l]
    | "B", ops => (parseTarget .jmp ops).map fun l => [l]
    | "BCS", ops => (parseTarget .bcs ops).map fun l => [l]
    | "BCC", ops => (parseTarget .bcc ops).map fun l => [l]
    | m, ops => (parseInstr m (splitCommas ops)).map fun i => [.insn i]

/-- A line: `[label:] [mnemonic operands] [; comment]` (R115). -/
def parseLine (line : List Char) : Option (List AsmLine) :=
  match tokens [] line with
  | .text name :: .mark ':' :: rest => (parseBody rest).map fun ls => .label name :: ls
  | ts => parseBody ts

/-- The lines of a text. -/
def textLines : List Char → List (List Char)
  | [] => [[]]
  | c :: cs =>
    match textLines cs with
    | [] => [[c]]
    | h :: rest => if c = '\n' then [] :: h :: rest else (c :: h) :: rest

/-- The lines parsed, in order; none where one has no meaning. -/
def parseLines : List (List Char) → Option (List AsmLine)
  | [] => some []
  | l :: ls => (parseLine l).bind fun a => (parseLines ls).map fun b => a ++ b

/-- A program's text to its words with their IMEM indexes (R115 to R117). -/
def assembleText (text : List Char) : Option (List (Nat × Word)) :=
  (parseLines (textLines text)).bind assemble

end Sys2Proof.Machine
end

