-- ==== Sys2Proof/Tests/Slice0.lean ====
section
/-! SUPPORT. Tests: each is one step or less on a small state, and each expected value is the spec's (95_test_vectors.md
names the vector, a rule R<n> its own words, or the arithmetic is done by hand). At the end, one witness for every
statement of Obligations.lean that has hypotheses. -/

namespace Sys2Proof.Tests

open Sys2Proof Sys2Proof.Machine

-- One theorem at a time: kernel evaluations that wait for each other would hold a thread each.
set_option Elab.async false

/-! ## Helpers -/

/-- The core BUSY at pc 0, the word there, every register at its reset value. -/
def ready (w : Nat) : State := State.reset.withFetchWord 32 w

/-- `F[r]` set to a value. -/
def setF (r : Nat) (v : Nat) (s : State) : State := s.writeF (BitVec.ofNat 4 r) (Fe.ofNat v)

/-- `S[r]` set to a value. -/
def setS (r : Nat) (v : Nat) (s : State) : State := s.writeS (BitVec.ofNat 4 r) (BitVec.ofNat 256 v)

/-- `P[r]` set to a point. -/
def setP (r : Nat) (q : Point) (s : State) : State := s.writeP (BitVec.ofNat 4 r) q

/-- The `n`-byte little-endian form of `v` in DMEM from address `a`. -/
def setMem (a n v : Nat) (s : State) : State := s.memWrite a (toLE n v)

/-- What one step leads to satisfies the check. -/
def after (s : State) (check : State → Bool) : Bool :=
  match step s with
  | .next t => check t
  | .fault _ => false
  | .refused _ => false

/-- The check, of an instruction that completed at pc 0 without branching. -/
def completes (s : State) (check : State → Bool) : Bool :=
  after s fun t => t.run == .busy && t.pc == 1 && t.retired == 1 && !t.err && check t

/-- The step entered this fault at pc 0 and the check holds. -/
def faults (s : State) (c : Cause) (insn : Nat) (check : State → Bool) : Bool :=
  after s fun t => t.run == .idle && t.err && !t.done && t.cause == c && t.faultPc == 0 && t.pc == 0
    && t.faultInsn.toNat == insn && t.retired == 0 && check t

/-- The value of `F[r]`. -/
def valF (t : State) (r : Nat) : Nat := (t.readF (BitVec.ofNat 4 r)).val

/-- The value of `S[r]`. -/
def valS (t : State) (r : Nat) : Nat := (t.readS (BitVec.ofNat 4 r)).toNat

/-- The value of `P[r]`. -/
def valP (t : State) (r : Nat) : Point := t.readP (BitVec.ofNat 4 r)

/-- The integer in `n` bytes of DMEM. -/
def valMem (t : State) (a n : Nat) : Nat := leNat (t.memRead a n)

/-- The largest 256-bit value. -/
def allOnes : Nat := 2 ^ 256 - 1

/-- 2*B, compressed (vector V-P03), as a little-endian integer. -/
def twiceBaseWord : Nat := 0x2260cdf3092329c21da25ee8c9a21f5697390f51643851560e5f46ae6af8a3c9

/-- A point of order 8 (R208, the table's row with y in hexadecimal 7a03...17c7). -/
def orderEight : Point :=
  { x := Fe.ofNat 0x1fd5b9a006394a28e933993238de4abb5c193c7013e5e238dea14646c545d14a
    y := Fe.ofNat 0x7a03ac9277fdc74ec6cc392cfa53202a0f67100d760b3cba4fd84d3d706a17c7 }

/-! ## Well-formedness: an ill-formed term for each check -/

theorem test_wf_accepts_top_registers :
    (Instr.smuladd 7 7 7 7).wellFormed = true ∧ (Instr.paff 15 15 7).wellFormed = true
      ∧ (Instr.fsel 15 15 15).wellFormed = true := by decide

theorem test_wf_refuses_scalar_memory_forms :
    (Instr.sld 8 0).wellFormed = false ∧ (Instr.sldw 8 0).wellFormed = false ∧ (Instr.sst 8 0).wellFormed = false
      ∧ (Instr.sldi 8 0).wellFormed = false := by decide

theorem test_wf_refuses_smuladd_each_field :
    (Instr.smuladd 8 0 0 0).wellFormed = false ∧ (Instr.smuladd 0 8 0 0).wellFormed = false
      ∧ (Instr.smuladd 0 0 8 0).wellFormed = false ∧ (Instr.smuladd 0 0 0 15).wellFormed = false := by decide

theorem test_wf_refuses_sclamp_schk :
    (Instr.sclamp 8 0).wellFormed = false ∧ (Instr.sclamp 0 8).wellFormed = false
      ∧ (Instr.schk 8).wellFormed = false := by decide

theorem test_wf_refuses_point_memory_forms :
    (Instr.pld 8 0).wellFormed = false ∧ (Instr.pst 8 0).wellFormed = false ∧ (Instr.pident 8).wellFormed = false
      ∧ (Instr.pbase 8).wellFormed = false := by decide

theorem test_wf_refuses_padd_pdbl :
    (Instr.padd 8 0 0).wellFormed = false ∧ (Instr.padd 0 8 0).wellFormed = false
      ∧ (Instr.padd 0 0 8).wellFormed = false ∧ (Instr.pdbl 8 0).wellFormed = false
      ∧ (Instr.pdbl 0 8).wellFormed = false := by decide

theorem test_wf_refuses_smul_dsmulv :
    (Instr.smul 8 0 0).wellFormed = false ∧ (Instr.smul 0 8 0).wellFormed = false
      ∧ (Instr.smul 0 0 8).wellFormed = false ∧ (Instr.dsmulv 8 0 0 0).wellFormed = false
      ∧ (Instr.dsmulv 0 8 0 0).wellFormed = false ∧ (Instr.dsmulv 0 0 8 0).wellFormed = false
      ∧ (Instr.dsmulv 0 0 0 8).wellFormed = false := by decide

theorem test_wf_refuses_point_checks :
    (Instr.peq 8 0).wellFormed = false ∧ (Instr.peq 0 8).wellFormed = false ∧ (Instr.psmall 8).wellFormed = false
      ∧ (Instr.paff 0 0 8).wellFormed = false := by decide

/-! ## Decoding: every constructor, by words written out field by field from R101 to R109 -/

theorem test_decode_sequencing :
    decode 0b000001_00000000000000000000000000 = some .nop
      ∧ decode 0b000010_00000000000000000000000000 = some .halt
      ∧ decode 0b000011_0000000000_1000000000000011 = some (.jmp 0x8003)
      ∧ decode 0b000100_0000000000_0000000000001100 = some (.bcs 12)
      ∧ decode 0b000101_0000000000_0000010000000000 = some (.bcc 1024) := by decide

theorem test_decode_field_memory :
    decode 0b001000_0001_000000_0000000000000000 = some (.fld 1 0)
      ∧ decode 0b001001_0010_000000_0000000001000000 = some (.fst 2 0x40)
      ∧ decode 0b001010_1111_000000_1111111111111111 = some (.fldi 15 0xFFFF) := by decide

theorem test_decode_field_arithmetic :
    decode 0b001011_0000_0001_0010_0000_0000000000 = some (.fadd 0 1 2)
      ∧ decode 0b001100_0011_0001_0010_0000_0000000000 = some (.fsub 3 1 2)
      ∧ decode 0b001101_1000_0100_0010_0000_0000000000 = some (.fmul 8 4 2)
      ∧ decode 0b001110_0001_1100_0000_0000_0000000000 = some (.fsqr 1 12)
      ∧ decode 0b001111_0010_0001_0000_0000_0000000000 = some (.finv 2 1)
      ∧ decode 0b010000_0000_0001_0010_0000_0000000000 = some (.fsqrt 0 1 2) := by decide

theorem test_decode_field_selection :
    decode 0b010001_0000_0001_0010_0000_0000000000 = some (.fsel 0 1 2)
      ∧ decode 0b010010_0000_0100_0101_0000_0000000000 = some (.fcswap 4 5)
      ∧ decode 0b010011_0000_0001_0010_0000_0000000000 = some (.feq 1 2) := by decide

theorem test_decode_scalar :
    decode 0b011000_0001_000000_0000000000000000 = some (.sld 1 0)
      ∧ decode 0b011001_0010_000000_0000111111000000 = some (.sldw 2 0x0FC0)
      ∧ decode 0b011010_0011_000000_0000000000100000 = some (.sst 3 0x20)
      ∧ decode 0b011011_0100_000000_0000000000001000 = some (.sldi 4 8)
      ∧ decode 0b011100_0011_0010_0000_0001_0000000000 = some (.smuladd 3 2 0 1)
      ∧ decode 0b011101_0001_0000_0000_0000_0000000000 = some (.sclamp 1 0)
      ∧ decode 0b011110_0000_0001_0000_0000_0000000000 = some (.schk 1) := by decide

theorem test_decode_point_memory :
    decode 0b100000_0001_000000_0000001000100000 = some (.pld 1 0x220)
      ∧ decode 0b100001_0010_000000_0000000000100000 = some (.pst 2 0x20)
      ∧ decode 0b100010_0011_0000_0000_0000_0000000000 = some (.pident 3)
      ∧ decode 0b100011_0001_0000_0000_0000_0000000000 = some (.pbase 1) := by decide

theorem test_decode_point_arithmetic :
    decode 0b100100_0010_0000_0001_0000_0000000000 = some (.padd 2 0 1)
      ∧ decode 0b100101_0011_0100_0000_0000_0000000000 = some (.pdbl 3 4)
      ∧ decode 0b100110_0010_0000_0001_0000_0000000000 = some (.smul 2 0 1)
      ∧ decode 0b100111_0011_0001_0000_0010_0000000000 = some (.dsmulv 3 1 0 2) := by decide

theorem test_decode_point_checks :
    decode 0b101000_0000_0011_0100_0000_0000000000 = some (.peq 3 4)
      ∧ decode 0b101001_0000_0101_0000_0000_0000000000 = some (.psmall 5)
      ∧ decode 0b101010_1111_1110_0111_0000_0000000000 = some (.paff 15 14 7) := by decide

/-- Vectors V-E01 to V-E11: unknown opcodes, nonzero reserved bits, nonzero unused fields, S and P fields above 7. -/
theorem test_decode_refuses_illegal_words :
    decode 0x00000000 = none ∧ decode 0x18000000 = none ∧ decode 0xFC000000 = none ∧ decode 0x04000001 = none
      ∧ decode 0x0C010000 = none ∧ decode 0x2C048400 = none ∧ decode 0x62000000 = none ∧ decode 0x98020000 = none
      ∧ decode 0x48448000 = none ∧ decode 0x20010000 = none ∧ decode 0x70003C00 = none ∧ decode 0x2001FFFF = none := by decide

/-- Vectors V-E12 to V-E14: F fields may be 8 to 15, and a zero field is a register. -/
theorem test_decode_accepts_field_numbers :
    decode 0x23C00000 = some (.fld 15 0) ∧ decode 0xABF9C000 = some (.paff 15 14 7)
      ∧ decode 0x40000000 = some (.fsqrt 0 0 0) := by decide

/-- The encoder gives the words of R116 and of program 1. -/
theorem test_encode_examples :
    encode (.smuladd 3 2 0 1) = 0x70C80400 ∧ encode (.dsmulv 3 1 0 2) = 0x9CC40800
      ∧ encode (.fst 2 0x40) = 0x24800040 ∧ encode (.sclamp 0 0) = 0x74000000 ∧ encode (.smul 1 0 0) = 0x98400000 := by
  decide

/-- The pseudo-instructions of R117 are the words the rule names. -/
theorem test_pseudo_instructions :
    Instr.fmov 3 4 = .fsel 3 4 4 ∧ Instr.fclr 2 = .fldi 2 0 ∧ Instr.sclr 1 = .sldi 1 0 ∧ Instr.b 9 = .jmp 9 := by
  decide

/-- The table word's bits above `nbits` are dropped, and the word decodes as the fetched one does. -/
theorem test_decode_table_word :
    decodeTableWord 32 0x70C80400 = some (.smuladd 3 2 0 1) ∧ decodeTableWord 32 0 = none := by decide

/-- The syntax of R115 and R116: a label, a comment, hexadecimal and decimal, `.org` and `.word`; the words are those of
R116's rows, R142's and R205's forms worked out by hand. -/
theorem test_assemble_text :
    assembleText "go: FLD F1, [0x40] ; load\n FST [64],F1\n BCC go\n.org 5\n.word 0x12345678\nSMUL P1, S0, P0".toList
      = some [(0, 0x20400040#32), (1, 0x24400040#32), (2, 0x14000000#32), (5, 0x12345678#32), (6, 0x98400000#32)] := by
  decide +kernel

/-- A register that does not exist, a label that is not defined, an immediate that does not fit. -/
theorem test_assemble_refuses :
    assembleText "FADD F1, F16, F0".toList = none ∧ assembleText "JMP nowhere".toList = none
      ∧ assembleText "FLDI F1, #65536".toList = none := by decide +kernel

/-! ## Sequencing -/

/-- V-C02's first instruction. -/
theorem test_nop : completes (ready 0x04000000) (fun t => !t.cf) = true := by decide

/-- V-C01. -/
theorem test_halt :
    after (ready 0x08000000) (fun t => t.run == .idle && t.done && !t.err && t.pc == 0 && t.retired == 1) = true := by
  decide

/-- V-C03. -/
theorem test_jmp : after (ready 0x0C000003) (fun t => t.pc == 3 && t.retired == 1 && t.run == .busy) = true := by
  decide

/-- V-C07: the target is checked although CF = 0. -/
theorem test_bcs_checks_target_when_not_taken :
    faults (ready 0x10000400) .imemRange 0x10000400 (fun _ => true) = true := by decide

/-- V-C04. -/
theorem test_bcs_taken : after ((ready 0x10000003).setCf true) (fun t => t.pc == 3 && t.cf) = true := by decide

/-- V-C06 and V-C05. -/
theorem test_bcc :
    after (ready 0x14000004) (fun t => t.pc == 4) = true
      ∧ completes ((ready 0x14000004).setCf true) (fun t => t.cf) = true := by decide

/-! ## Field -/

/-- V-F01: 2^256 - 1 mod p is 37. -/
theorem test_fld_reduces : completes (setMem 0 32 allOnes (ready 0x20400000)) (fun t => valF t 1 == 37) = true := by
  decide +kernel

/-- V-X02: address 4065 is out of range, F1 keeps its value. -/
theorem test_fld_out_of_range :
    faults (setF 1 99 (ready 0x20400FE1)) .dmemRange 0x20400FE1 (fun t => valF t 1 == 99) = true := by decide +kernel

/-- V-F05: the bytes of p - 1 end in 7f. -/
theorem test_fst :
    completes (setF 2 (fieldPrime - 1) (ready 0x24800040))
      (fun t => valMem t 0x40 32 == 2 ^ 255 - 20 && t.dmemByte 0x40 == 0xec && t.dmemByte 0x5F == 0x7f) = true := by
  decide +kernel

/-- V-F06. -/
theorem test_fldi : completes (ready 0x28C0FFFF) (fun t => valF t 3 == 65535) = true := by decide +kernel

/-- V-F07. -/
theorem test_fadd_wraps :
    completes (setF 1 (fieldPrime - 1) (setF 2 1 (ready 0x2C048000))) (fun t => valF t 0 == 0) = true := by
  decide +kernel

/-- V-F09: 0 - 1 is p - 1. -/
theorem test_fsub_wraps :
    completes (setF 2 1 (ready 0x30C48000)) (fun t => valF t 3 == fieldPrime - 1) = true := by decide +kernel

/-- V-F13: 2^256 mod p is 38. -/
theorem test_fmul :
    completes (setF 1 (2 ^ 128) (setF 2 (2 ^ 128) (ready 0x34048000))) (fun t => valF t 0 == 38) = true := by
  decide +kernel

/-- V-F14: the source is also the destination. -/
theorem test_fsqr_in_place : completes (setF 1 3 (ready 0x38440000)) (fun t => valF t 1 == 9) = true := by
  decide +kernel

/-- V-F17. -/
theorem test_finv_two :
    completes (setF 1 2 (ready 0x3C840000))
      (fun t => valF t 2 == 0x3ffffffffffffffffffffffffffffffffffffffffffffffffffffffffffffff7) = true := by
  decide +kernel

/-- V-F15: the inverse of 0 is 0, and nothing faults. -/
theorem test_finv_zero : completes (ready 0x3C840000) (fun t => valF t 2 == 0) = true := by decide +kernel

/-- V-F21: the even root of 9 is p - 3. -/
theorem test_fsqrt_even_root :
    completes (setF 1 9 (setF 2 1 (ready 0x40048000))) (fun t => t.cf && valF t 0 == fieldPrime - 3) = true := by
  decide +kernel

/-- R151's first case: v = 0 and u not 0 gives no root and 0. -/
theorem test_fsqrt_denominator_zero :
    completes (setF 0 77 (setF 1 5 (ready 0x40048000))) (fun t => !t.cf && valF t 0 == 0) = true := by decide +kernel

/-- V-F31 and V-F32. -/
theorem test_fsel :
    completes (setF 1 5 (setF 2 7 (ready 0x44048000))) (fun t => valF t 0 == 5) = true
      ∧ completes ((setF 1 5 (setF 2 7 (ready 0x44048000))).setCf true) (fun t => valF t 0 == 7) = true := by
  decide +kernel

/-- V-F33 and V-F34. -/
theorem test_fcswap :
    completes ((setF 4 1 (setF 5 2 (ready 0x48114000))).setCf true) (fun t => valF t 4 == 2 && valF t 5 == 1 && t.cf)
        = true
      ∧ completes (setF 4 1 (setF 5 2 (ready 0x48114000))) (fun t => valF t 4 == 1 && valF t 5 == 2) = true := by
  decide +kernel

/-- V-F35 and V-F36. -/
theorem test_feq :
    completes (setF 1 2 (setF 2 2 (ready 0x4C048000))) (fun t => t.cf) = true
      ∧ completes ((setF 1 2 (setF 2 3 (ready 0x4C048000))).setCf true) (fun t => !t.cf) = true := by decide +kernel

/-! ## Scalar -/

/-- V-S04's load: all 256 bits are kept. -/
theorem test_sld_keeps_all_bits :
    completes (setMem 0 32 allOnes (ready 0x60400000)) (fun t => valS t 1 == allOnes) = true := by decide +kernel

/-- V-S05. -/
theorem test_sldw_reduces :
    completes (setMem 0 64 (2 ^ 512 - 1) (ready 0x64800000))
      (fun t => valS t 2 == 0x0399411b7c309a3dceec73d217f5be65d00e1ba768859347a40611e3449c0f00) = true := by
  decide +kernel

/-- V-X03's other half: 64 bytes from 4033 pass the end of DMEM. -/
theorem test_sldw_out_of_range :
    faults (ready 0x64800FC1) .dmemRange 0x64800FC1 (fun t => valS t 2 == 0) = true := by decide +kernel

/-- V-S04's store. -/
theorem test_sst :
    completes (setS 3 allOnes (ready 0x68C00020)) (fun t => valMem t 0x20 32 == allOnes) = true := by decide +kernel

/-- V-S15. -/
theorem test_sldi : completes (ready 0x6D40FFFF) (fun t => valS t 5 == 65535) = true := by decide +kernel

/-- V-S12: the operands are not reduced first, the result is. -/
theorem test_smuladd_full_operands :
    completes (setS 1 allOnes (setS 2 allOnes (setS 4 allOnes (ready 0x70C49000))))
      (fun t => valS t 3 == 0x0399411b7c309a3dceec73d217f5be671dfdb99197ff60ad252c438913f94dd1) = true := by
  decide +kernel

/-- V-S13. -/
theorem test_sclamp :
    completes (setS 0 allOnes (ready 0x74000000))
      (fun t => valS t 0 == 0x7ffffffffffffffffffffffffffffffffffffffffffffffffffffffffffffff8) = true := by
  decide +kernel

/-- V-S01 and V-S02: L is not canonical, L - 1 is. -/
theorem test_schk :
    completes ((setS 1 Config.groupOrder (ready 0x78040000)).setCf true) (fun t => !t.cf) = true
      ∧ completes (setS 1 (Config.groupOrder - 1) (ready 0x78040000)) (fun t => t.cf) = true := by decide +kernel

/-! ## Points -/

/-- V-P11 for y = 2: there is no point, P0 keeps its value. -/
theorem test_pld_invalid :
    completes ((setMem 0 32 2 (ready 0x80000000)).setCf true) (fun t => !t.cf && valP t 0 == Config.identity)
      = true := by decide +kernel

/-- V-P16: the sign bit selects the odd x. -/
theorem test_pld_sign :
    completes (setMem 0 32 (2 ^ 255 + 0x6666666666666666666666666666666666666666666666666666666666666658)
        (ready 0x80000000))
      (fun t => t.cf
        && (valP t 0).x.val == 0x5e96c92c3291ac013f5b1dce022923a396d3389f6ada584d36a9d29f70da2ad3) = true := by
  decide +kernel

/-- V-P01's store. -/
theorem test_pst :
    completes (setP 0 Config.basePoint (ready 0x84000020))
      (fun t => valMem t 0x20 32 == 0x6666666666666666666666666666666666666666666666666666666666666658) = true := by
  decide +kernel

/-- V-P02. -/
theorem test_pident :
    completes (setP 3 Config.basePoint (ready 0x88C00000)) (fun t => valP t 3 == Config.identity) = true := by
  decide +kernel

/-- R202. -/
theorem test_pbase :
    completes (ready 0x8C400000)
      (fun t => (valP t 1).x.val == 0x216936d3cd6e53fec0a4e231fdd6dc5c692cc7609525a7b2c9562d608f25d51a) = true := by
  decide +kernel

/-- V-P03: B + B. -/
theorem test_padd :
    completes (setP 0 Config.basePoint (ready 0x90400000))
      (fun t => leNat (valP t 1).compress == twiceBaseWord) = true := by decide +kernel

/-- V-P04: doubling gives the same point. -/
theorem test_pdbl :
    completes (setP 0 Config.basePoint (ready 0x94800000))
      (fun t => leNat (valP t 2).compress == twiceBaseWord) = true := by decide +kernel

/-- V-P10: 3*B. -/
theorem test_smul :
    completes (setS 0 3 (setP 1 Config.basePoint (ready 0x98804000)))
      (fun t => leNat (valP t 2).compress == 0x1267b1d177ee69aba126a18e60269ef79f16ec176724030402c3684878f5b4d4)
      = true := by decide +kernel

/-- V-P07: L*B = O. -/
theorem test_smul_group_order :
    completes (setS 0 Config.groupOrder (setP 1 Config.basePoint (ready 0x98804000)))
      (fun t => valP t 2 == Config.identity) = true := by decide +kernel

/-- V-P19: 1*B + 1*B. -/
theorem test_dsmulv :
    completes (setS 1 1 (setS 2 1 (setP 0 Config.basePoint (ready 0x9CC40800))))
      (fun t => leNat (valP t 3).compress == twiceBaseWord) = true := by decide +kernel

/-- V-P17's comparison. -/
theorem test_peq_different :
    completes ((setP 0 Config.basePoint (ready 0xA0004000)).setCf true) (fun t => !t.cf) = true := by decide +kernel

/-- V-P21, and R208's points of order 8. -/
theorem test_psmall :
    completes ((setP 0 Config.basePoint (ready 0xA4000000)).setCf true) (fun t => !t.cf) = true
      ∧ completes (setP 0 orderEight (ready 0xA4000000)) (fun t => t.cf) = true := by decide +kernel

/-- V-P18: y is written last. -/
theorem test_paff_same_register :
    completes (setP 0 Config.basePoint (ready 0xA9100000))
      (fun t => valF t 4 == 0x6666666666666666666666666666666666666666666666666666666666666658) = true := by
  decide +kernel

/-! ## The cycle, faults and the host -/

/-- V-C08's last step: a fetch beyond IMEM records FAULTINSN = 0. -/
theorem test_fetch_beyond_imem :
    after { ready 0x04000000 with pc := 1024 }
      (fun t => t.err && t.cause == .imemRange && t.faultPc == 1024 && t.faultInsn == 0 && t.run == .idle) = true := by
  decide

/-- V-E01. -/
theorem test_illegal_word : faults (ready 0xFC000000) .illegal 0xFC000000 (fun _ => true) = true := by decide

/-- Program 4: START with IRQEN from IDLE clears DONE, ERR, CAUSE and RETIRED. -/
theorem test_host_start :
    after { State.reset with err := true, cause := .illegal, retired := 7, inputs := [.write 0x0004 4 0x101] }
      (fun t => t.run == .busy && !t.err && t.cause == .none && t.retired == 0 && t.irqEn) = true := by decide

/-- V-C10's stop: ABORT, then the status word has ERR and CAUSE 4. -/
theorem test_host_abort :
    after { ready 0x0C000000 with inputs := [.write 0x0004 4 0x2] }
      (fun t => t.run == .idle && t.statusWord == 0x404 && t.faultPc == 0 && t.faultInsn == 0) = true := by decide

/-- ZEROIZE writes every DMEM byte (R46). -/
theorem test_host_zeroize :
    after { setF 3 9 (setMem 60 4 allOnes State.reset) with
        params := { imemWords := 4, dmemSize := 64 }, inputs := [.write 0x0004 4 0x4] }
      (fun t => valF t 3 == 0 && valMem t 0 64 == 0 && t.dmem.length == 64) = true := by decide +kernel

/-- DONE, ERR and HERR are cleared by writing 1 (R53, R54). -/
theorem test_host_status_clear :
    after { State.reset with
        done := false, err := true, cause := .dmemRange, herr := true, inputs := [.write 0x0008 4 0x4] }
      (fun t => !t.err && t.cause == .none && t.herr) = true := by decide

/-- The ID register (R56), and a reserved offset (R62). -/
theorem test_host_reads :
    after { State.reset with inputs := [.read 0x0000 4] } (fun t => t.readData == some 0xED255190) = true
      ∧ after { State.reset with inputs := [.read 0x0024 4] } (fun t => t.readData == some 0) = true := by decide

/-- The instruction window (R79) and the byte lanes of the data window (R77). -/
theorem test_host_windows :
    after { State.reset with inputs := [.write 0x4008 4 0x08000000] } (fun t => t.imemWord 2 == 0x08000000) = true
      ∧ after { State.reset with inputs := [.write 0x8004 4 0x04030201] }
          (fun t => t.dmemByte 4 == 1 && t.dmemByte 7 == 4) = true := by decide

/-- A window write while BUSY is ignored and sets HERR (R82). -/
theorem test_host_busy_window :
    after { ready 0x04000000 with inputs := [.write 0x4000 4 0x08000000] }
      (fun t => t.herr && t.imemWord 0 == 0x04000000) = true := by decide

/-- Reset during a run reports no stop (R260, item I14). -/
theorem test_host_reset_during_run :
    after { ready 0x04000000 with inputs := [.reset] }
      (fun t => t.run == .idle && !t.err && !t.done && t.imem == [] && t.epoch == 1) = true := by decide

/-- An 8-bit host access is refused (R83). -/
theorem test_host_narrow_access_is_refused :
    (match step { State.reset with inputs := [.read 0x8000 1] } with
      | .refused r => r == .hostAccessForm
      | .next _ => false
      | .fault _ => false) = true := by decide

/-- The canonical form after overwriting and after writing out of order. -/
theorem test_memory_canonical :
    (setMem 2 1 5 (setMem 1 2 0x0403 (setMem 7 1 9 State.reset))).dmem
      = [(1, 0x03#8), (2, 0x05#8), (7, 0x09#8)] := by decide

/-! ## Witnesses: for each statement with hypotheses, values that meet all of them, one for each clause, at the ends of
its range -/

/-- The default sizes: 32 bytes end at DMEM_SIZE from 4064, 64 from 4032. -/
theorem witness_dmem_ends :
    State.reset.inDmem 0 32 ∧ State.reset.inDmem 4064 32 ∧ State.reset.inDmem 4032 64
      ∧ State.reset.params.dmemSize < (4065 : Half).toNat + 32 ∧ State.reset.params.dmemSize < (4033 : Half).toNat + 64
      ∧ State.reset.params.dmemSize < (0xFFFF : Half).toNat + 32 := by decide

theorem witness_EncodedInstructionDecodesBack :
    (Instr.dsmulv 7 6 5 4).wellFormed = true ∧ (Instr.paff 15 15 7).wellFormed = true
      ∧ (Instr.fld 15 0xFFFF).wellFormed = true := by decide

theorem witness_DecodedWordIsItsEncoding : decode 0x9CC40800 = some (.dsmulv 3 1 0 2) := by decide

theorem witness_WordIsLegalExactlyWhenOneRowMatches :
    decode 0x04000000 = some .nop ∧ ∃ r ∈ opcodeRows, r.Matches 0x04000000 ∧ r.mnemonic = "NOP" := by decide

theorem witness_StepRunsTheDecodedInstruction :
    (ready 0x04000000).run = .busy ∧ (ready 0x04000000).pc.toNat < (ready 0x04000000).params.imemWords
      ∧ decode (ready 0x04000000).fetchWord = some .nop ∧ (ready 0x04000000).inputs = []
      ∧ { ready 0x04000000 with inputs := [.coreTurn] }.inputs = .coreTurn :: []
      ∧ State.reset.run = .idle ∧ State.reset.inputs = [] := by decide

/-- The fetch clause at pc = IMEM_WORDS, the decoding clause at IMEM_WORDS - 1, the two operand clauses at the first
address and the first target out of range; the core's turn with no host event and with one that leaves it to the core. -/
theorem witness_FirstApplicableFaultIsReported :
    { ready 0 with pc := 1024 }.params.imemWords ≤ { ready 0 with pc := 1024 }.pc.toNat
      ∧ ({ State.reset with pc := 1023 }.withFetchWord 32 0).pc.toNat < 1024
      ∧ decode ({ State.reset with pc := 1023 }.withFetchWord 32 0).fetchWord = none
      ∧ decode (ready 0x20400FE1).fetchWord = some (.fld 1 4065)
      ∧ (Instr.fld 1 4065).dmemOperand = some (4065, 32)
      ∧ (ready 0x20400FE1).params.dmemSize < (4065 : Half).toNat + 32
      ∧ decode (ready 0x10000400).fetchWord = some (.bcs 1024)
      ∧ (Instr.bcs 1024).branchTarget = some 1024
      ∧ (ready 0x10000400).params.imemWords ≤ (1024 : Half).toNat
      ∧ (ready 0x10000400).run = .busy ∧ (ready 0x10000400).CoreTurn (ready 0x10000400)
      ∧ { ready 0x10000400 with inputs := [.coreTurn] }.CoreTurn { ready 0x10000400 with inputs := [] } :=
  ⟨by decide, by decide, by decide, by decide, by decide, by decide, by decide, by decide, by decide, by decide,
    .inl ⟨rfl, rfl⟩, .inr ⟨[], rfl, rfl⟩⟩

theorem witness_IllFormedOperandRaisesIllegal :
    (Instr.smuladd 8 0 0 0).wellFormed = false ∧ (Instr.pld 15 0xFFFF).wellFormed = false := by decide

theorem witness_DmemAccessIsRangeChecked :
    (Instr.sldw 7 4032).wellFormed = true ∧ (Instr.sldw 7 4032).dmemOperand = some (4032, 64)
      ∧ (4032 : Half).toNat + 64 ≤ State.reset.params.dmemSize
      ∧ (Instr.sldw 7 4033).wellFormed = true ∧ (Instr.sldw 7 4033).dmemOperand = some (4033, 64)
      ∧ State.reset.params.dmemSize < (4033 : Half).toNat + 64 := by decide

/-- The targets 1023 and 1024, the last inside and the first outside. -/
theorem witness_BranchTargetIsCheckedWhateverCf :
    (Instr.bcc 1023).branchTarget = some 1023 ∧ (1023 : Half).toNat < State.reset.params.imemWords
      ∧ (Instr.bcc 1024).branchTarget = some 1024 ∧ State.reset.params.imemWords ≤ (1024 : Half).toNat := by decide

/-- The last index of IMEM, and the core's turn in both its forms. -/
theorem witness_CoreStepMovesPc :
    ({ State.reset with pc := 1023 }.withFetchWord 32 0x04000000).params.Legal
      ∧ ({ State.reset with pc := 1023 }.withFetchWord 32 0x04000000).run = .busy
      ∧ ({ State.reset with pc := 1023 }.withFetchWord 32 0x04000000).CoreTurn
          ({ State.reset with pc := 1023 }.withFetchWord 32 0x04000000)
      ∧ { { State.reset with pc := 1023 }.withFetchWord 32 0x04000000 with inputs := [.coreTurn, .reset] }.CoreTurn
          { { State.reset with pc := 1023 }.withFetchWord 32 0x04000000 with inputs := [.reset] }
      ∧ ({ State.reset with pc := 1023 }.withFetchWord 32 0x04000000).pc.toNat
          < ({ State.reset with pc := 1023 }.withFetchWord 32 0x04000000).params.imemWords :=
  ⟨by decide, by decide, .inl ⟨rfl, rfl⟩, .inr ⟨_, rfl, rfl⟩, by decide⟩

theorem witness_HaltEndsTheRun : { State.reset with irqEn := true }.irqEn = true := by decide

theorem witness_BranchesGoToTheirTargets :
    (1023 : Half).toNat < State.reset.params.imemWords ∧ State.reset.params.imemWords ≤ (1024 : Half).toNat := by decide

theorem witness_FieldLoadReducesAllBits :
    (4064 : Half).toNat + 32 ≤ State.reset.params.dmemSize ∧ State.reset.params.dmemSize < (4065 : Half).toNat + 32 := by
  decide

theorem witness_FieldStoreWritesCanonicalBytes :
    (4064 : Half).toNat + 32 ≤ State.reset.params.dmemSize ∧ State.reset.params.dmemSize < (4065 : Half).toNat + 32 := by
  decide

theorem witness_FieldInverseIsTheFermatPower :
    (State.reset.readF 1).val = 0 ∧ ((setF 1 (fieldPrime - 1) State.reset).readF 1).val ≠ 0 := by decide +kernel

/-- The two clauses of v = 1: 4 has the root 2. -/
theorem witness_SqrtRatioIsTheSpecifiedFunction_root :
    (Fe.ofNat 1).val ≠ 0 ∧ (Fe.ofNat 4).val = (Fe.ofNat 4).val * 1 % fieldPrime
      ∧ ∃ r : Fe, r.val * r.val % fieldPrime = (Fe.ofNat 4).val := by
  exact ⟨by decide, by decide, Fe.ofNat 2, by decide⟩

/-- 2 has no root mod p (p mod 8 is 5), and v = 0 is the first clause. -/
theorem witness_SqrtRatioIsTheSpecifiedFunction_no_root :
    (Fe.ofNat 0).val = 0 ∧ ¬∃ r : Fe, r.val * r.val % fieldPrime = (Fe.ofNat 2).val := by
  refine ⟨by decide, fun ⟨r, hr⟩ => ?_⟩
  exact Fe.no_root (a := Fe.ofNat 2) (by decide) (by decide +kernel) r (Fin.ext hr)

theorem witness_SelectAndSwapFollowCf : (State.reset.setCf true).cf = true ∧ State.reset.cf = false := by decide

theorem witness_ScalarLoads :
    (7 : RegField).toNat < 8 ∧ (4064 : Half).toNat + 32 ≤ State.reset.params.dmemSize
      ∧ (4032 : Half).toNat + 64 ≤ State.reset.params.dmemSize
      ∧ State.reset.params.dmemSize < (4065 : Half).toNat + 32
      ∧ State.reset.params.dmemSize < (4033 : Half).toNat + 64 := by decide

theorem witness_ScalarStoreWritesAllBits :
    (7 : RegField).toNat < 8 ∧ (4064 : Half).toNat + 32 ≤ State.reset.params.dmemSize
      ∧ State.reset.params.dmemSize < (4065 : Half).toNat + 32 := by decide

/-- The register hypotheses of the scalar and point statements: 0 and 7 are the ends. -/
theorem witness_ScalarImmediateIsZeroExtended : (0 : RegField).toNat < 8 ∧ (7 : RegField).toNat < 8 := by decide

theorem witness_ScalarMultiplyAddIsModular :
    (0 : RegField).toNat < 8 ∧ (7 : RegField).toNat < 8 ∧ (3 : RegField).toNat < 8 ∧ (4 : RegField).toNat < 8 := by decide

theorem witness_MultiplyAddDependsOnResiduesOnly :
    (0 : RegField).toNat < 8 ∧ (7 : RegField).toNat < 8 ∧ (3 : RegField).toNat < 8 ∧ (4 : RegField).toNat < 8 := by decide

/-- Bits 255, 254, 2 and 3: each clause of the chain and its neighbour. -/
theorem witness_ClampFixesTheFiveBits :
    (7 : RegField).toNat < 8 ∧ (Scalar.clamp (BitVec.allOnes 256)).getLsbD 255 = false
      ∧ (Scalar.clamp 0).getLsbD 254 = true ∧ (Scalar.clamp (BitVec.allOnes 256)).getLsbD 2 = false
      ∧ (Scalar.clamp (BitVec.allOnes 256)).getLsbD 3 = true
      ∧ (Scalar.clamp (BitVec.allOnes 256)).getLsbD 253 = true := by decide

theorem witness_CanonicalScalarTestSetsCf : (0 : RegField).toNat < 8 ∧ (7 : RegField).toNat < 8 := by decide

/-- Memory holding the encoding of B decodes, and one holding y = 2 does not (V-P11). -/
theorem witness_PointLoadWritesPointOrNothing :
    (7 : RegField).toNat < 8 ∧ (4064 : Half).toNat + 32 ≤ State.reset.params.dmemSize
      ∧ State.reset.params.dmemSize < (4065 : Half).toNat + 32
      ∧ Point.decompress ((State.reset.memWrite 4064 Config.basePoint.compress).memRead 4064 32) false
          = some Config.basePoint
      ∧ Point.decompress ((setMem 4064 32 2 State.reset).memRead 4064 32) false = none := by decide +kernel

theorem witness_PointStoreWritesTheCompressedPoint :
    (7 : RegField).toNat < 8 ∧ (4064 : Half).toNat + 32 ≤ State.reset.params.dmemSize
      ∧ State.reset.params.dmemSize < (4065 : Half).toNat + 32 := by decide

theorem witness_CompressedPointHoldsYAndSign : Config.basePoint.compress[31]? = some 0x66#8 := by decide +kernel

theorem witness_DecompressAcceptsExactlyCompressions :
    Config.basePoint.compress.length = 32
      ∧ Point.decompress Config.basePoint.compress true = some Config.basePoint
      ∧ Config.basePoint.OnCurve ∧ Point.mul 8 Config.basePoint ≠ Config.identity := by decide +kernel

theorem witness_PointConstantsAreLoaded : (0 : RegField).toNat < 8 ∧ (7 : RegField).toNat < 8 := by decide

theorem witness_GroupInstructionsWriteTheirResult : (0 : RegField).toNat < 8 ∧ (7 : RegField).toNat < 8 := by decide

theorem witness_GroupLawIsCompleteOnTheCurve :
    Config.basePoint.OnCurve ∧ Config.identity.OnCurve
      ∧ (Fe.ofNat 0).val = Config.curveD.val * Config.basePoint.x.val * Config.identity.x.val * Config.basePoint.y.val
        * Config.identity.y.val % fieldPrime := by decide +kernel

theorem witness_ScalarMultipleIsRepeatedAddition : Config.basePoint.OnCurve ∧ orderEight.OnCurve := by decide +kernel

theorem witness_ExtendedDatapathsRepresentTheGroupLaw :
    Config.basePoint.OnCurve ∧ orderEight.OnCurve ∧ ExtRepresents (ExtPoint.ofPoint Config.basePoint) Config.basePoint
      ∧ ExtRepresents (ExtPoint.ofPoint orderEight) orderEight := by
  refine ⟨by decide +kernel, by decide +kernel, ?_, ?_⟩ <;> unfold ExtRepresents <;> decide +kernel

theorem witness_GroupLawProperties :
    Config.basePoint.OnCurve ∧ Point.mul 8 Config.basePoint ≠ Config.identity := by decide +kernel

theorem witness_PointChecksSetCf : (0 : RegField).toNat < 8 ∧ (7 : RegField).toNat < 8 := by decide

/-- The three points of order 8, 4 and 2 whose rows hold the largest number, the number 0 and the number p - 1, and that
their smaller multiples are not O. -/
theorem witness_SmallOrderEncodingsFollowThePolicy :
    Point.decompress (toLE 32 0xc7176a703d4dd84fba3c0b760d10670f2a2053fa2c39ccc64ec7fd7792ac037a).reverse false
        = some orderEight
      ∧ Point.mul 4 orderEight = { x := Fe.ofNat 0, y := Fe.ofNat (fieldPrime - 1) }
      ∧ Point.decompress (toLE 32 0).reverse false = some { x := Config.sqrtM1, y := Fe.ofNat 0 }
      ∧ Point.mul 2 { x := Config.sqrtM1, y := Fe.ofNat 0 } = { x := Fe.ofNat 0, y := Fe.ofNat (fieldPrime - 1) } := by
  decide +kernel

theorem witness_AffineCoordinatesAreWritten : (7 : RegField).toNat < 8 ∧ (0 : RegField) ≠ 15 := by decide

/-- The reset state is on the curve, and steps. -/
theorem witness_StepKeepsPointsOnCurve :
    State.reset.PointsOnCurve ∧ step State.reset = .next State.reset :=
  ⟨by decide +kernel, by rw [step_of_no_input rfl, coreCycle_idle rfl]⟩

theorem witness_StepKeepsMemoryCanonical :
    State.reset.params.Legal ∧ State.reset.MemoryWf ∧ step State.reset = .next State.reset :=
  ⟨by decide, afterReset_memoryWf _ _, by rw [step_of_no_input rfl, coreCycle_idle rfl]⟩

theorem witness_StepKeepsStatusConsistent :
    State.reset.StatusConsistent ∧ step State.reset = .next State.reset :=
  ⟨by decide, by rw [step_of_no_input rfl, coreCycle_idle rfl]⟩

/-- Reset in a run of hardware with sizes other than the default ones, and while IDLE. -/
theorem witness_ResetGivesEveryResetValue :
    { ready 0x04000000 with inputs := [.reset], params := ⟨1, 64⟩ }.inputs = .reset :: []
      ∧ { ready 0x04000000 with inputs := [.reset], params := ⟨1, 64⟩ }.run = .busy
      ∧ { State.reset with inputs := [.reset, .coreTurn] }.inputs = .reset :: [.coreTurn] := by decide

/-- An instruction that completes and writes no CF, and one that faults. -/
theorem witness_OnlySixInstructionsWriteCf :
    exec .nop State.reset = .next State.reset.complete ∧ Instr.nop.writesCf = false
      ∧ exec (.bcs 1024) State.reset = .next (State.reset.raise .imemRange)
      ∧ (State.reset.raise .imemRange).retired = State.reset.retired :=
  ⟨rfl, rfl, by simp only [exec, execBcs]; rw [withTarget_outside (by decide)], rfl⟩

theorem witness_InstructionsKeepImemAndHostRegisters :
    exec .nop State.reset = .next State.reset.complete ∧ Instr.nop.mnemonic ∉ ["FST", "SST", "PST"] :=
  ⟨rfl, by decide⟩

theorem witness_StartBeginsARun :
    { State.reset with inputs := [.write 0x0004 4 0x101] }.inputs = .write 0x0004 4 0x101 :: []
      ∧ (0x101 : Word).getLsbD 0 = true ∧ (0x101 : Word).getLsbD 1 = false ∧ (0x101 : Word).getLsbD 2 = false
      ∧ State.reset.run = .idle ∧ (ready 0x04000000).run = .busy := by decide

theorem witness_AbortStopsTheRun :
    { ready 0x04000000 with inputs := [.write 0x0004 4 0x2] }.inputs = .write 0x0004 4 0x2 :: []
      ∧ (0x2 : Word).getLsbD 0 = false ∧ (0x2 : Word).getLsbD 1 = true ∧ (0x2 : Word).getLsbD 2 = false
      ∧ (0x2 : Word).getLsbD 9 = (ready 0x04000000).soRej ∧ (ready 0x04000000).run = .busy
      ∧ State.reset.run = .idle := by decide

theorem witness_ZeroizeClearsSecrets :
    { State.reset with inputs := [.write 0x0004 4 0x4] }.inputs = .write 0x0004 4 0x4 :: []
      ∧ (0x4 : Word).getLsbD 0 = false ∧ (0x4 : Word).getLsbD 1 = false ∧ (0x4 : Word).getLsbD 2 = true
      ∧ State.reset.run = .idle ∧ (ready 0x04000000).run = .busy := by decide

/-- START, ZEROIZE and SOREJ in one write, and all three actions in one. -/
theorem witness_ControlWriteActsInOrder :
    { State.reset with inputs := [.write 0x0004 4 0x205] }.inputs = .write 0x0004 4 0x205 :: []
      ∧ (0x205 : Word).getLsbD 2 = true ∧ (0x205 : Word).getLsbD 0 = true ∧ State.reset.run = .idle
      ∧ { ready 0x04000000 with inputs := [.write 0x0004 4 0x7] }.inputs = .write 0x0004 4 0x7 :: []
      ∧ (0x7 : Word).getLsbD 1 = true ∧ (ready 0x04000000).run = .busy := by decide

theorem witness_SorejIsConstantDuringARun :
    { ready 0x04000000 with inputs := [.write 0x0004 4 0x300] }.inputs = .write 0x0004 4 0x300 :: []
      ∧ (0x300 : Word).getLsbD 0 = false ∧ (0x300 : Word).getLsbD 1 = false ∧ (0x300 : Word).getLsbD 2 = false
      ∧ (ready 0x04000000).run = .busy ∧ (∀ rest, (ready 0x04000000).inputs ≠ .reset :: rest)
      ∧ ∃ t, step (ready 0x04000000) = .next t :=
  ⟨rfl, by decide, by decide, by decide, by decide, fun rest h => List.cons_ne_nil _ _ h.symm,
    _, by rw [step_of_no_input rfl, coreCycle_decoded (i := .nop) (by decide) (by decide) (by decide)]; exact rfl⟩

/-- Both ends of the windows; a PC write of all ones, BUSY and IDLE; a PC read; a fetch at the first index out of range. -/
theorem witness_BusyWindowsAreClosed :
    (ready 0x04000000).run = .busy ∧ 0x4000 ≤ (0x4000 : Half).toNat ∧ (0x4000 : Half).toNat % 4 = 0
      ∧ 0x4000 ≤ (0xFFFC : Half).toNat ∧ (0xFFFC : Half).toNat % 4 = 0
      ∧ { ready 0x04000000 with inputs := [.read 0x4000 4] }.inputs = .read 0x4000 4 :: []
      ∧ { ready 0x04000000 with inputs := [.write 0xFFFC 4 7] }.inputs = .write 0xFFFC 4 7 :: []
      ∧ { ready 0x04000000 with inputs := [.write 0x000C 4 0xFFFFFFFF] }.inputs = .write 0x000C 4 0xFFFFFFFF :: []
      ∧ State.reset.run = .idle
      ∧ { State.reset with inputs := [.write 0x000C 4 0xFFFFFFFF] }.inputs = .write 0x000C 4 0xFFFFFFFF :: []
      ∧ { ready 0x04000000 with inputs := [.read 0x000C 4] }.inputs = .read 0x000C 4 :: []
      ∧ { ready 0 with pc := 1024 }.params.imemWords ≤ { ready 0 with pc := 1024 }.pc.toNat
      ∧ { ready 0 with pc := 1024, inputs := [.coreTurn] }.CoreTurn { ready 0 with pc := 1024 } :=
  ⟨by decide, by decide, by decide, by decide, by decide, rfl, rfl, rfl, rfl, rfl, rfl, by decide, .inr ⟨[], rfl, rfl⟩⟩

/-- The first and the last word of DMEM and of IMEM, and the first and the last offset beyond each, with a read and a
write. -/
theorem witness_HostWindowLanesAreLittleEndian :
    State.reset.run = .idle ∧ State.reset.params.Legal ∧ 4 * 0 < State.reset.params.dmemSize
      ∧ 4 * 1023 < State.reset.params.dmemSize ∧ State.reset.params.dmemSize ≤ 4 * 1024
      ∧ State.reset.params.dmemSize ≤ 4 * 8191 ∧ 0 < State.reset.params.imemWords
      ∧ 1023 < State.reset.params.imemWords ∧ State.reset.params.imemWords ≤ 1024
      ∧ State.reset.params.imemWords ≤ 4095
      ∧ { State.reset with inputs := [.write (BitVec.ofNat 16 (0x8000 + 4 * 1023)) 4 7] }.inputs
          = .write (BitVec.ofNat 16 (0x8000 + 4 * 1023)) 4 7 :: []
      ∧ { State.reset with inputs := [.read (BitVec.ofNat 16 (0x4000 + 4 * 0)) 4] }.inputs
          = .read (BitVec.ofNat 16 (0x4000 + 4 * 0)) 4 :: []
      ∧ { State.reset with inputs := [.read (BitVec.ofNat 16 (0x8000 + 4 * 8191)) 4] }.inputs
          = .read (BitVec.ofNat 16 (0x8000 + 4 * 8191)) 4 :: []
      ∧ { State.reset with inputs := [.write (BitVec.ofNat 16 (0x4000 + 4 * 1024)) 4 7] }.inputs
          = .write (BitVec.ofNat 16 (0x4000 + 4 * 1024)) 4 7 :: [] := by decide

theorem witness_StatusWriteClearsAndIrqFollows :
    { State.reset with inputs := [.write 0x0008 4 0x16] }.inputs = .write 0x0008 4 0x16 :: []
      ∧ (0x16 : Word).getLsbD 1 = true ∧ (0x16 : Word).getLsbD 2 = true ∧ (0x16 : Word).getLsbD 4 = true
      ∧ (0x9 : Word).getLsbD 1 = false ∧ (0x9 : Word).getLsbD 2 = false ∧ (0x9 : Word).getLsbD 4 = false := by decide

/-- Another width at a multiple of 4, and a 32-bit access elsewhere. -/
theorem witness_OtherHostAccessesAreRefused :
    ((1 : Nat) ≠ 4 ∨ (0x8000 : Half).toNat % 4 ≠ 0) ∧ ((4 : Nat) ≠ 4 ∨ (0x8002 : Half).toNat % 4 ≠ 0)
      ∧ { State.reset with inputs := [.read 0x8000 1] }.inputs = .read 0x8000 1 :: []
      ∧ { State.reset with inputs := [.write 0x8002 4 7] }.inputs = .write 0x8002 4 7 :: [] := by decide

/-- Both ends of the reserved offsets, legal sizes, a read and a write of a register, every cause, and two states that
differ in F1 alone. -/
theorem witness_HostReadsDoNotRevealRegisters :
    { ready 0 with inputs := [.read 0x0008 4] }.inputs = .read 0x0008 4 :: []
      ∧ { ready 0 with inputs := [.write 0x0020 4 7] }.inputs = .write 0x0020 4 7 :: []
      ∧ State.reset.params.Legal
      ∧ 0x0024 ≤ (0x0024 : Half).toNat ∧ (0x0024 : Half).toNat < 0x4000 ∧ (0x0024 : Half).toNat % 4 = 0
      ∧ 0x0024 ≤ (0x3FFC : Half).toNat ∧ (0x3FFC : Half).toNat < 0x4000 ∧ (0x3FFC : Half).toNat % 4 = 0
      ∧ State.reset.cause = .none ∧ (State.reset.raise .illegal).cause = .illegal
      ∧ (State.reset.raise .dmemRange).cause = .dmemRange ∧ (State.reset.raise .imemRange).cause = .imemRange
      ∧ State.reset.abort.cause = .aborted
      ∧ { State.reset with inputs := [.read 0x8000 4] }.inputs = .read 0x8000 4 :: []
      ∧ setF 1 7 { State.reset with inputs := [.read 0x8000 4] }
        = { State.reset with
            inputs := [.read 0x8000 4]
            fregs := (setF 1 7 { State.reset with inputs := [.read 0x8000 4] }).fregs
            sregs := (setF 1 7 { State.reset with inputs := [.read 0x8000 4] }).sregs
            pregs := (setF 1 7 { State.reset with inputs := [.read 0x8000 4] }).pregs }
      ∧ ∃ t, step { State.reset with inputs := [.read 0x8000 4] } = .next t :=
  ⟨rfl, rfl, by decide, by decide, by decide, by decide, by decide, by decide, by decide, rfl, rfl, rfl, rfl, rfl, rfl,
    rfl, _, step_of_read rfl (by decide)⟩

end Sys2Proof.Tests
end

section
/-! What the host's writes of CTRL and STATUS do, one equation per case (R42 to R54), and what ZEROIZE leaves. -/

namespace Sys2Proof.Machine

/-! ## The steps that are a CTRL or STATUS write -/

/-- IDLE, a CTRL write is `ctrlWriteIdle`. -/
theorem step_of_ctrl_write_idle {s : State} {w : Word} {rest : List HostEvent}
    (h : s.inputs = .write 0x0004 4 w :: rest) (hr : s.run = .idle) :
    step s = .next (State.ctrlWriteIdle { s with inputs := rest } w) := by
  rw [step_of_write h (by decide)]
  simp [hostWrite, State.registerWrite, State.busy, hr]

/-- BUSY, a CTRL write is `ctrlWriteBusy`. -/
theorem step_of_ctrl_write_busy {s : State} {w : Word} {rest : List HostEvent}
    (h : s.inputs = .write 0x0004 4 w :: rest) (hr : s.run = .busy) :
    step s = .next (State.ctrlWriteBusy { s with inputs := rest } w) := by
  rw [step_of_write h (by decide)]
  simp [hostWrite, State.registerWrite, State.busy, hr]

/-- A STATUS write is `statusWrite`, whatever the run state. -/
theorem step_of_status_write {s : State} {w : Word} {rest : List HostEvent}
    (h : s.inputs = .write 0x0008 4 w :: rest) :
    step s = .next (State.statusWrite { s with inputs := rest } w) := step_of_write h (by decide)

/-! ## CTRL writes, by their action bits -/

section CtrlWrite
variable (s : State) {w : Word}

/-- CTRL's RW fields take the values of the written word (R50, R51). -/
def State.setRwFields (s : State) (w : Word) : State := { s with irqEn := w.getLsbD 8, soRej := w.getLsbD 9 }

theorem ctrlWriteIdle_rwOnly (hs : w.getLsbD 0 = false) (hz : w.getLsbD 2 = false) :
    s.ctrlWriteIdle w = s.setRwFields w := by
  simp only [State.ctrlWriteIdle, State.setRwFields, hs, hz, Bool.false_eq_true, reduceIte]

theorem ctrlWriteIdle_start (hs : w.getLsbD 0 = true) (hz : w.getLsbD 2 = false) :
    s.ctrlWriteIdle w = (s.setRwFields w).startRun := by
  simp only [State.ctrlWriteIdle, State.setRwFields, hs, hz, Bool.false_eq_true, reduceIte]

theorem ctrlWriteIdle_zeroize (hs : w.getLsbD 0 = false) (hz : w.getLsbD 2 = true) :
    s.ctrlWriteIdle w = (s.setRwFields w).zeroize := by
  simp only [State.ctrlWriteIdle, State.setRwFields, hs, hz, Bool.false_eq_true, reduceIte]

theorem ctrlWriteIdle_zeroizeStart (hs : w.getLsbD 0 = true) (hz : w.getLsbD 2 = true) :
    s.ctrlWriteIdle w = (s.setRwFields w).zeroize.startRun := by
  simp only [State.ctrlWriteIdle, State.setRwFields, hs, hz, reduceIte]

/-- A CTRL write while BUSY asks for something the core ignores: a changed SOREJ, a START or a ZEROIZE (R44, R46,
R48). -/
def State.ctrlAsksIgnored (s : State) (w : Word) : Bool :=
  (w.getLsbD 9 != s.soRej) || w.getLsbD 0 || w.getLsbD 2

theorem ctrlWriteBusy_eq (w : Word) : s.ctrlWriteBusy w =
    let u := { s with irqEn := w.getLsbD 8 }
    let v := if s.ctrlAsksIgnored w then u.setHerr else u
    if w.getLsbD 1 then v.abort else v := rfl

/-- BUSY without ABORT, only IRQEN and HERR can change. -/
theorem ctrlWriteBusy_noAbort (ha : w.getLsbD 1 = false) :
    s.ctrlWriteBusy w = { s with irqEn := w.getLsbD 8, herr := s.herr || s.ctrlAsksIgnored w } := by
  rw [ctrlWriteBusy_eq, ha]
  cases s.ctrlAsksIgnored w <;> simp [State.setHerr]

/-- BUSY with ABORT, the same and then the abort (R47). -/
theorem ctrlWriteBusy_abort (ha : w.getLsbD 1 = true) :
    s.ctrlWriteBusy w = State.abort { s with irqEn := w.getLsbD 8, herr := s.herr || s.ctrlAsksIgnored w } := by
  rw [ctrlWriteBusy_eq, ha]
  cases s.ctrlAsksIgnored w <;> simp [State.setHerr]

end CtrlWrite

/-! ## What ZEROIZE leaves (R46) -/

/-- A memory that lists the addresses of `l` with their values under `f` reads `f` there. -/
theorem cellAt_map_of_mem {α : Type} {l : List Nat} (f : Nat → α) {a : Nat} (h : a ∈ l) :
    cellAt (l.map fun k => (k, f k)) a = some (f a) := by
  induction l with
  | nil => cases h
  | cons k rest ih =>
    by_cases hk : k = a
    · simp [cellAt, hk]
    · simp [cellAt, hk, ih ((List.mem_cons.1 h).resolve_left (Ne.symm hk))]

@[simp] theorem State.readF_zeroize (s : State) (r : RegField) : s.zeroize.readF r = Fe.ofNat 0 := by
  simp [State.readF, State.zeroize]

@[simp] theorem State.readS_zeroize (s : State) (r : RegField) : s.zeroize.readS r = 0 := by
  simp [State.readS, State.zeroize]

@[simp] theorem State.readP_zeroize (s : State) (r : RegField) : s.zeroize.readP r = Config.identity := by
  simp [State.readP, State.zeroize]

theorem State.dmemByte_zeroize (s : State) {a : Nat} (h : a < s.params.dmemSize) : s.zeroize.dmemByte a = 0 := by
  have hc : cellAt s.zeroize.dmem a = some 0 := cellAt_map_of_mem (fun _ => 0) (List.mem_range.2 h)
  simp [State.dmemByte, hc]

end Sys2Proof.Machine
end

section
/-! The host's control writes (10_state.md R44 to R48, R53, 60_exceptions.md R237, R242). -/

namespace Sys2Proof.Machine

/-- Settles O51: START while IDLE and while BUSY. -/
theorem startBeginsARun : Obligations.StartBeginsARun := by
  intro s rest w hin hstart
  refine ⟨fun hidle hz => ?_, fun hbusy ha => ?_⟩
  · rw [step_of_ctrl_write_idle hin hidle, ctrlWriteIdle_start _ hstart hz]
    rfl
  · rw [step_of_ctrl_write_busy hin hbusy, ctrlWriteBusy_noAbort _ ha]
    simp [State.ctrlAsksIgnored, hstart]

/-- Settles O52: with SOREJ kept and no other action the write asks for nothing that is ignored, so HERR stays. -/
theorem abortStopsTheRun : Obligations.AbortStopsTheRun := by
  intro s rest w hin hs ha hz
  refine ⟨fun hbusy hrej => ?_, fun hidle => ?_⟩
  · rw [step_of_ctrl_write_busy hin hbusy, ctrlWriteBusy_abort _ ha]
    have hquiet : State.ctrlAsksIgnored { s with inputs := rest } w = false := by
      simp only [State.ctrlAsksIgnored, hs, hz, hrej, bne_self_eq_false, Bool.or_self]
    rw [hquiet, Bool.or_false]
    rfl
  · rw [step_of_ctrl_write_idle hin hidle, ctrlWriteIdle_rwOnly _ hs hz]
    rfl

/-- Settles O53: ZEROIZE while IDLE and while BUSY. -/
theorem zeroizeClearsSecrets : Obligations.ZeroizeClearsSecrets := by
  intro s rest w hin hz
  refine ⟨fun hidle hs => ?_, fun hbusy ha => ?_⟩
  · rw [step_of_ctrl_write_idle hin hidle, ctrlWriteIdle_zeroize _ hs hz]
    exact ⟨_, rfl, by simp, by simp, by simp, rfl, fun a h => State.dmemByte_zeroize _ h, rfl⟩
  · rw [step_of_ctrl_write_busy hin hbusy, ctrlWriteBusy_noAbort _ ha]
    simp [State.ctrlAsksIgnored, hz]

/-- Settles O54: the start keeps what ZEROIZE cleared, and an abort leaves all that it does not record. -/
theorem controlWriteActsInOrder : Obligations.ControlWriteActsInOrder := by
  intro s rest w hin
  refine ⟨fun hidle hz hs => ?_, fun hbusy ha => ?_⟩
  · rw [step_of_ctrl_write_idle hin hidle, ctrlWriteIdle_zeroizeStart _ hs hz]
    exact ⟨_, rfl, by simp, by simp, by simp, rfl, fun a h => State.dmemByte_zeroize _ h, rfl⟩
  · rw [step_of_ctrl_write_busy hin hbusy, ctrlWriteBusy_abort _ ha]
    exact ⟨_, rfl, rfl⟩

/-- Settles O58: each bit of STATUS is kept exactly where the written bit is 0. -/
theorem statusWriteClearsAndIrqFollows : Obligations.StatusWriteClearsAndIrqFollows := by
  refine ⟨fun s rest w hin => ?_, fun s => by simp [State.irq]⟩
  rw [step_of_status_write hin]
  have hclear : ∀ bit written : Bool, (bit && !written) = if written = true then false else bit := by decide
  simp only [State.statusWrite, hclear]

end Sys2Proof.Machine
end

section
/-! Everything a step can do, said once: the outcomes of the core's cycle, of a host read and of a host write. -/

namespace Sys2Proof.Machine

/-! ## The core's cycle -/

/-- An outcome of one core cycle (R39, R130, R238): nothing while IDLE, a fault at the fetch or the decoding, or an
outcome of the decoded instruction. -/
inductive CycleResult (s : State) : State → Prop
  | idle (hr : s.run = .idle) : CycleResult s s
  | fetchFault (hr : s.run = .busy) (hp : ¬ s.pc.toNat < s.params.imemWords) : CycleResult s s.raiseFetch
  | illegal (hr : s.run = .busy) (hp : s.pc.toNat < s.params.imemWords) (hd : decode s.fetchWord = none) :
    CycleResult s (s.raise .illegal)
  | executed (i : Instr) (t : State) (hr : s.run = .busy) (hp : s.pc.toNat < s.params.imemWords)
    (hd : decode s.fetchWord = some i) (ht : ExecResult i s t) : CycleResult s t

/-- THE INVERSION OF `coreCycle`: it answers a next state, one of these outcomes. -/
theorem coreCycle_outcome (s : State) : ∃ t, coreCycle s = .next t ∧ CycleResult s t := by
  cases hr : s.run with
  | idle => exact ⟨s, coreCycle_idle hr, .idle hr⟩
  | busy =>
    by_cases hp : s.pc.toNat < s.params.imemWords
    · cases hd : decode s.fetchWord with
      | none => exact ⟨_, coreCycle_illegal hr hp hd, .illegal hr hp hd⟩
      | some i =>
        obtain ⟨t, he, ht⟩ := exec_outcome i s
        exact ⟨t, (coreCycle_decoded hr hp hd).trans he, .executed i t hr hp hd ht⟩
    · exact ⟨_, coreCycle_beyond hr hp, .fetchFault hr hp⟩

/-! ## The host's accesses -/

/-- A host read gives data, and can set HERR (R42, R82). -/
theorem hostRead_outcome (s : State) (offset : Nat) :
    ∃ data herr, hostRead s offset = { s with readData := some data, herr := herr } := by
  unfold hostRead
  split
  · exact ⟨_, s.herr, rfl⟩
  · split
    · exact ⟨_, true, rfl⟩
    · exact ⟨_, s.herr, rfl⟩

/-- An outcome of a host write (R42, R55, R77, R79, R81, R82). -/
inductive WriteResult (s : State) : State → Prop
  | ignored : WriteResult s s
  | refused (hr : s.run = .busy) : WriteResult s s.setHerr
  | ctrlBusy (w : Word) (hr : s.run = .busy) : WriteResult s (s.ctrlWriteBusy w)
  | ctrlIdle (w : Word) (hr : s.run = .idle) : WriteResult s (s.ctrlWriteIdle w)
  | status (w : Word) : WriteResult s (s.statusWrite w)
  | pc (w : Word) (hr : s.run = .idle) : WriteResult s { s with pc := w.extractLsb' 0 16 }
  | imem (i : Nat) (w : Word) (hr : s.run = .idle) (hi : i < s.params.imemWords) : WriteResult s (s.setImem i w)
  | dmem (a : Nat) (w : Word) (hr : s.run = .idle) (ha : a < s.params.dmemSize) :
    WriteResult s (s.memWrite a (toLE 4 w.toNat))

theorem State.busy_eq_true (s : State) : s.busy = true ↔ s.run = .busy := by simp [State.busy]

theorem State.run_of_not_busy {s : State} (h : ¬ s.busy = true) : s.run = .idle := by
  cases hr : s.run with
  | idle => rfl
  | busy => exact absurd (s.busy_eq_true.2 hr) h

theorem registerWrite_outcome (s : State) (offset : Nat) (w : Word) :
    WriteResult s (s.registerWrite offset w) := by
  unfold State.registerWrite
  split
  · split
    · exact .ctrlBusy w (s.busy_eq_true.1 ‹_›)
    · exact .ctrlIdle w (State.run_of_not_busy ‹_›)
  · exact .status w
  · unfold State.pcWrite
    split
    · exact .refused (s.busy_eq_true.1 ‹_›)
    · exact .pc w (State.run_of_not_busy ‹_›)
  · exact .ignored

theorem windowWrite_outcome (s : State) (offset : Nat) (w : Word) (hr : s.run = .idle) :
    WriteResult s (s.windowWrite offset w) := by
  unfold State.windowWrite
  split
  · split
    · exact .imem _ w hr ‹_›
    · exact .ignored
  · split
    · exact .dmem _ w hr ‹_›
    · exact .ignored

/-- THE INVERSION OF `hostWrite`. -/
theorem hostWrite_outcome (s : State) (offset : Nat) (w : Word) : WriteResult s (hostWrite s offset w) := by
  unfold hostWrite
  split
  · exact registerWrite_outcome s offset w
  · split
    · exact .refused (s.busy_eq_true.1 ‹_›)
    · exact windowWrite_outcome s offset w (State.run_of_not_busy ‹_›)

/-! ## The step -/

/-- A next state of the step (R30): by the core's turn, by a host access, or by reset. -/
inductive StepResult (s : State) : State → Prop
  | core (u t : State) (hu : s.CoreTurn u) (ht : CycleResult u t) : StepResult s t
  | read (offset : Half) (rest : List HostEvent) (h : s.inputs = .read offset 4 :: rest)
    (ha : offset.toNat % 4 = 0) : StepResult s (hostRead { s with inputs := rest } offset.toNat)
  | write (offset : Half) (w : Word) (rest : List HostEvent) (h : s.inputs = .write offset 4 w :: rest)
    (ha : offset.toNat % 4 = 0) (t : State) (ht : WriteResult { s with inputs := rest } t) : StepResult s t
  | reset (rest : List HostEvent) (h : s.inputs = .reset :: rest) :
    StepResult s (State.resetNow { s with inputs := rest })

/-- The core's turn always answers a next state. -/
theorem step_coreTurn_outcome {s u : State} (h : s.CoreTurn u) : ∃ t, step s = .next t ∧ CycleResult u t := by
  rw [step_of_coreTurn h]
  exact coreCycle_outcome u

theorem StepResult.of_coreTurn {s u t : State} (h : s.CoreTurn u) (hs : step s = .next t) : StepResult s t := by
  obtain ⟨t', ht', hc⟩ := step_coreTurn_outcome h
  cases ht'.symm.trans hs
  exact .core u _ h hc

/-- A read that is not the form of R83 has no next state. -/
theorem legalAccess_of_read {s t : State} {offset : Half} {bytes : Nat} {rest : List HostEvent}
    (h : s.inputs = .read offset bytes :: rest) (hs : step s = .next t) : legalAccess offset bytes := by
  by_contra hl
  rw [step_of_input h, hostStep, if_neg hl] at hs
  cases hs

/-- A write that is not the form of R83 has no next state. -/
theorem legalAccess_of_write {s t : State} {offset : Half} {bytes : Nat} {w : Word} {rest : List HostEvent}
    (h : s.inputs = .write offset bytes w :: rest) (hs : step s = .next t) : legalAccess offset bytes := by
  by_contra hl
  rw [step_of_input h, hostStep, if_neg hl] at hs
  cases hs

/-- THE INVERSION OF `step`. -/
theorem step_outcome {s t : State} (hs : step s = .next t) : StepResult s t := by
  cases h : s.inputs with
  | nil => exact .of_coreTurn (.inl ⟨h, rfl⟩) hs
  | cons e rest =>
    cases e with
    | coreTurn => exact .of_coreTurn (.inr ⟨rest, h, rfl⟩) hs
    | read offset bytes =>
      obtain ⟨rfl, ha⟩ := legalAccess_of_read h hs
      cases (step_of_read h ha).symm.trans hs
      exact .read offset rest h ha
    | write offset bytes w =>
      obtain ⟨rfl, ha⟩ := legalAccess_of_write h hs
      cases (step_of_write h ha).symm.trans hs
      exact .write offset w rest h ha _ (hostWrite_outcome _ _ w)
    | reset =>
      cases (step_of_input h).symm.trans hs
      exact .reset rest h

/-! ## What an instruction's effect leaves alone -/

/-- An effect besides the advance writes registers, CF or DMEM, and no control state. -/
theorem Effect.keepsControl {s u : State} (h : Effect s u) : Machine.keepsControl s u := by
  cases h <;> simp [Machine.keepsControl]

theorem Effect.pc {s u : State} (h : Effect s u) : u.pc = s.pc := by cases h <;> rfl

theorem Effect.retired {s u : State} (h : Effect s u) : u.retired = s.retired := by cases h <;> rfl

end Sys2Proof.Machine
end

section
/-! What a turn of the core does to pc, the status fields and CF (R36, R38, R52, R53, R232). -/

namespace Sys2Proof.Machine

/-! ## pc -/

/-- An instruction executed while BUSY moves pc by one, to its branch target, or ends the run and leaves pc. -/
theorem ExecResult.pc_moves {i : Instr} {s t : State} (h : ExecResult i s t) (hr : s.run = .busy) :
    (t.run = .busy ∧ t.pc = s.pc + 1) ∨ (t.run = .busy ∧ i.branchTarget = some t.pc) ∨
      (t.run = .idle ∧ t.pc = s.pc) := by
  cases h with
  | fault c hc => exact .inr (.inr ⟨rfl, rfl⟩)
  | halt hi => exact .inr (.inr ⟨rfl, rfl⟩)
  | branch target hi => exact .inr (.inl ⟨hr, hi⟩)
  | effect u hu =>
    obtain ⟨-, hrun, -⟩ := hu.keepsControl
    exact .inl ⟨hrun.trans hr, congrArg (· + 1) hu.pc⟩

/-- The index after one in IMEM does not wrap: IMEM has at most 4096 words (R7, R38). -/
theorem pc_succ_toNat {c : Params} (hc : c.Legal) {pc : Half} (h : pc.toNat < c.imemWords) :
    (pc + 1).toNat = pc.toNat + 1 := by
  obtain ⟨-, hmax, -⟩ := hc
  rw [BitVec.toNat_add]
  exact Nat.mod_eq_of_lt (by show pc.toNat + 1 < 2 ^ 16; omega)

/-- Settles O11: the outcomes of the core's cycle from a legal index. -/
theorem coreStepMovesPc : Obligations.CoreStepMovesPc := by
  intro s u hu hlegal hr hp
  obtain ⟨t, hs, ht⟩ := step_coreTurn_outcome hu
  refine ⟨t, hs, ?_⟩
  cases ht with
  | idle hidle => cases hidle.symm.trans hr
  | fetchFault hbusy hbeyond => exact absurd hp hbeyond
  | illegal => exact .inr (.inr ⟨rfl, rfl⟩)
  | executed i t hbusy hin hd hexec =>
    obtain ⟨hrun, hpc⟩ | ⟨hrun, hi⟩ | hstop := hexec.pc_moves hr
    · exact .inl ⟨hrun, hpc ▸ pc_succ_toNat hlegal hp⟩
    · exact .inr (.inl ⟨hrun, i, t.pc, hd, hi, rfl⟩)
    · exact .inr (.inr hstop)

/-! ## The status fields -/

/-- A run has neither ended nor faulted yet (R53). -/
theorem clear_of_busy {s : State} (h : s.StatusConsistent) (hr : s.run = .busy) : s.done = false ∧ s.err = false := by
  obtain ⟨-, hbusy, -⟩ := h
  exact hbusy hr

/-- A fault entry sets ERR and CAUSE together, so only DONE has to be 0 before it. -/
theorem faultEntry_statusConsistent {s : State} (hd : s.done = false) {c : Cause} (hc : c ≠ .none) (w : Word) :
    (s.faultEntry c w).StatusConsistent := by
  simp [State.StatusConsistent, hd, hc]

/-- The invariant speaks of four fields. -/
theorem statusConsistent_congr {s t : State} (hd : t.done = s.done) (he : t.err = s.err) (hr : t.run = s.run)
    (hc : t.cause = s.cause) (h : s.StatusConsistent) : t.StatusConsistent := by
  unfold State.StatusConsistent
  rwa [hd, he, hr, hc]

theorem ExecResult.statusConsistent {i : Instr} {s t : State} (ht : ExecResult i s t) (hr : s.run = .busy)
    (h : s.StatusConsistent) : t.StatusConsistent := by
  obtain ⟨hd, he⟩ := clear_of_busy h hr
  cases ht with
  | fault c hc => exact faultEntry_statusConsistent hd (by rintro rfl; simp at hc) _
  | halt hi =>
    obtain ⟨-, -, hcause⟩ := h
    exact ⟨by simp [he], by simp, hcause⟩
  | branch target hi => exact statusConsistent_congr rfl rfl rfl rfl h
  | effect u hu =>
    obtain ⟨-, hrun, -, -, hdone, herr, -, hcause, -⟩ := hu.keepsControl
    exact statusConsistent_congr hdone herr hrun hcause h

theorem CycleResult.statusConsistent {s t : State} (ht : CycleResult s t) (h : s.StatusConsistent) :
    t.StatusConsistent := by
  cases ht with
  | idle hr => exact h
  | fetchFault hr hp => exact faultEntry_statusConsistent (clear_of_busy h hr).left (by decide) _
  | illegal hr hp hd => exact faultEntry_statusConsistent (clear_of_busy h hr).left (by decide) _
  | executed i t hr hp hd hexec => exact hexec.statusConsistent hr h

/-- START leaves nothing of the run before it (R44). -/
theorem startRun_statusConsistent (s : State) : s.startRun.StatusConsistent := by
  simp [State.StatusConsistent]

theorem ctrlWriteIdle_statusConsistent {s : State} (h : s.StatusConsistent) (w : Word) :
    (s.ctrlWriteIdle w).StatusConsistent := by
  cases hs : w.getLsbD 0 with
  | true => cases hz : w.getLsbD 2 with
    | true => rw [ctrlWriteIdle_zeroizeStart _ hs hz]; exact startRun_statusConsistent _
    | false => rw [ctrlWriteIdle_start _ hs hz]; exact startRun_statusConsistent _
  | false => cases hz : w.getLsbD 2 with
    | true => rw [ctrlWriteIdle_zeroize _ hs hz]; exact statusConsistent_congr rfl rfl rfl rfl h
    | false => rw [ctrlWriteIdle_rwOnly _ hs hz]; exact statusConsistent_congr rfl rfl rfl rfl h

theorem ctrlWriteBusy_statusConsistent {s : State} (hr : s.run = .busy) (h : s.StatusConsistent) (w : Word) :
    (s.ctrlWriteBusy w).StatusConsistent := by
  cases ha : w.getLsbD 1 with
  | true => rw [ctrlWriteBusy_abort _ ha]; exact faultEntry_statusConsistent (clear_of_busy h hr).left (by decide) 0
  | false => rw [ctrlWriteBusy_noAbort _ ha]; exact statusConsistent_congr rfl rfl rfl rfl h

/-- A STATUS write clears ERR and CAUSE together (R53). -/
theorem statusWrite_statusConsistent {s : State} (h : s.StatusConsistent) (w : Word) :
    (s.statusWrite w).StatusConsistent := by
  obtain ⟨hexcl, hbusy, hcause⟩ := h
  unfold State.StatusConsistent State.statusWrite
  cases w.getLsbD 2 with
  | true => simpa using fun hr hd => absurd hd (by simp [hbusy hr])
  | false =>
    simp only [Bool.not_false, Bool.and_true, Bool.false_eq_true, reduceIte]
    refine ⟨fun ⟨hd, he⟩ => hexcl ⟨(Bool.and_eq_true_iff.1 hd).left, he⟩, fun hr => ?_, hcause⟩
    obtain ⟨hd, he⟩ := hbusy hr
    simp [hd, he]

theorem WriteResult.statusConsistent {s t : State} (ht : WriteResult s t) (h : s.StatusConsistent) :
    t.StatusConsistent := by
  cases ht with
  | ignored => exact h
  | ctrlBusy w hr => exact ctrlWriteBusy_statusConsistent hr h w
  | ctrlIdle w hr => exact ctrlWriteIdle_statusConsistent h w
  | status w => exact statusWrite_statusConsistent h w
  | refused | pc | imem | dmem => exact statusConsistent_congr rfl rfl rfl rfl h

theorem hostRead_statusConsistent {s : State} (h : s.StatusConsistent) (offset : Nat) :
    (hostRead s offset).StatusConsistent := by
  obtain ⟨data, herr, he⟩ := hostRead_outcome s offset
  rw [he]
  exact statusConsistent_congr rfl rfl rfl rfl h

theorem resetNow_statusConsistent (s : State) : s.resetNow.StatusConsistent := by
  simp [State.StatusConsistent, State.resetNow, State.afterReset]

/-- Whoever turns the core, the state it turns from is `s` but for the list of events. -/
theorem State.CoreTurn.eq_inputs {s u : State} (h : s.CoreTurn u) : u = { s with inputs := u.inputs } := by
  obtain ⟨-, rfl⟩ | ⟨rest, -, rfl⟩ := h <;> rfl

/-- Settles O46: each outcome of a step keeps the invariant; taking an event from the list changes no status field. -/
theorem stepKeepsStatusConsistent : Obligations.StepKeepsStatusConsistent := by
  intro s t h hs
  have htake : ∀ rest, State.StatusConsistent { s with inputs := rest } :=
    fun rest => statusConsistent_congr rfl rfl rfl rfl h
  cases step_outcome hs with
  | core u t hu ht => exact ht.statusConsistent (hu.eq_inputs ▸ htake u.inputs)
  | read offset rest => exact hostRead_statusConsistent (htake rest) _
  | write offset w rest hin ha t ht => exact ht.statusConsistent (htake rest)
  | reset => exact resetNow_statusConsistent _

/-! ## SOREJ during a run -/

theorem ExecResult.soRej {i : Instr} {s t : State} (h : ExecResult i s t) : t.soRej = s.soRej := by
  cases h with
  | fault | halt | branch => rfl
  | effect u hu =>
    obtain ⟨-, -, -, hrej, -⟩ := hu.keepsControl
    exact hrej

theorem CycleResult.soRej {s t : State} (h : CycleResult s t) : t.soRej = s.soRej := by
  cases h with
  | idle | fetchFault | illegal => rfl
  | executed i t hr hp hd hexec => exact hexec.soRej

theorem ctrlWriteBusy_soRej (s : State) (w : Word) : (s.ctrlWriteBusy w).soRej = s.soRej := by
  cases ha : w.getLsbD 1 with
  | true => rw [ctrlWriteBusy_abort _ ha]; rfl
  | false => rw [ctrlWriteBusy_noAbort _ ha]

theorem WriteResult.soRej_of_busy {s t : State} (h : WriteResult s t) (hr : s.run = .busy) : t.soRej = s.soRej := by
  cases h with
  | ctrlBusy w => exact ctrlWriteBusy_soRej s w
  | ctrlIdle w hidle => cases hidle.symm.trans hr
  | ignored | refused | status | pc | imem | dmem => rfl

theorem hostRead_soRej (s : State) (offset : Nat) : (hostRead s offset).soRej = s.soRej := by
  obtain ⟨data, herr, he⟩ := hostRead_outcome s offset
  rw [he]

/-- Settles O55: with no action bit the write asks for something ignored exactly when its SOREJ differs; and no outcome
of a step from BUSY but reset changes SOREJ. -/
theorem sorejIsConstantDuringARun : Obligations.SorejIsConstantDuringARun := by
  refine ⟨fun s rest w hr hin hs ha hz => ?_, fun s t hr hreset hs => ?_⟩
  · rw [step_of_ctrl_write_busy hin hr, ctrlWriteBusy_noAbort _ ha]
    have hasks : State.ctrlAsksIgnored { s with inputs := rest } w = (w.getLsbD 9 != s.soRej) := by
      simp only [State.ctrlAsksIgnored, hs, hz, Bool.or_false]
    have hherr : (s.herr || (w.getLsbD 9 != s.soRej)) = if w.getLsbD 9 = s.soRej then s.herr else true := by
      split
      · rw [bne_eq_false_iff_eq.2 ‹_›, Bool.or_false]
      · rw [bne_iff_ne.2 ‹_›, Bool.or_true]
    rw [hasks, hherr]
  · cases step_outcome hs with
    | core u t hu ht => rw [ht.soRej, hu.eq_inputs]
    | read offset rest => exact hostRead_soRej _ _
    | write offset w rest hin ha t ht => exact ht.soRej_of_busy hr
    | reset rest hin => exact absurd hin (hreset rest)

/-! ## CF -/

theorem whenLegal_cf {i : Instr} {s t : State} (h : t.cf = s.cf) :
    ∃ t', whenLegal i s t = .next t' ∧ t'.cf = s.cf := by
  unfold whenLegal
  split
  · exact ⟨_, rfl, h⟩
  · exact ⟨_, rfl, rfl⟩

theorem withDmem_cf {s t : State} {addr : Half} {n : Nat} (h : t.cf = s.cf) : (withDmem s addr n t).cf = s.cf := by
  unfold withDmem
  split
  · exact h
  · rfl

theorem withTarget_cf {s t : State} {target : Half} (h : t.cf = s.cf) : (withTarget s target t).cf = s.cf := by
  unfold withTarget
  split
  · exact h
  · rfl

@[simp] theorem storeOperand_cf (s : State) (addr : Half) (v : Nat) : (storeOperand s addr v).cf = s.cf :=
  s.memWrite_cf _ _

/-- An instruction that is none of the six answers a state with the same CF, whichever guard it meets. -/
theorem exec_cf_of_not_writesCf {i : Instr} (h : i.writesCf = false) (s : State) :
    ∃ t, exec i s = .next t ∧ t.cf = s.cf := by
  cases i with
  | fsqrt | feq | schk | pld | peq | psmall => cases h
  | nop | halt | fldi | fadd | fsub | fmul | fsqr | finv | fsel => exact ⟨_, rfl, rfl⟩
  | jmp => exact ⟨_, rfl, withTarget_cf rfl⟩
  | bcs | bcc => exact ⟨_, rfl, withTarget_cf (by split <;> rfl)⟩
  | fcswap => exact ⟨_, rfl, by split <;> rfl⟩
  | fld | fst => exact ⟨_, rfl, withDmem_cf (by simp)⟩
  | sld | sldw | sst | pst => exact whenLegal_cf (withDmem_cf (by simp))
  | sldi | smuladd | sclamp | pident | pbase | padd | pdbl | smul | dsmulv | paff => exact whenLegal_cf rfl

/-- An instruction that RETIRED does not count has faulted, so it leaves CF (R61, R232). -/
theorem ExecResult.cf_of_not_retired {i : Instr} {s t : State} (h : ExecResult i s t)
    (hret : t.retired = s.retired) : t.cf = s.cf := by
  have hcounts : ∀ w : Word, w + 1 ≠ w := fun w => by bv_omega
  cases h with
  | fault | halt | branch => rfl
  | effect u hu => exact absurd ((congrArg (· + 1) hu.retired.symm).trans hret) (hcounts _)

/-- Settles O49. -/
theorem onlySixInstructionsWriteCf : Obligations.OnlySixInstructionsWriteCf := by
  intro i s t hs
  refine ⟨fun hi => ?_, fun hret => ?_⟩
  · obtain ⟨t', ht', hcf⟩ := exec_cf_of_not_writesCf hi s
    cases ht'.symm.trans hs
    exact hcf
  · obtain ⟨t', ht', hres⟩ := exec_outcome i s
    cases ht'.symm.trans hs
    exact hres.cf_of_not_retired hret

end Sys2Proof.Machine
end

section
/-! The register block as the host reads it (10_state.md R41 to R62), and that no host read depends on a register
file (R31, R33, R34, R244). -/

namespace Sys2Proof.Machine

/-! ## The bits of CTRL and STATUS -/

/-- The word with these bits, the lowest first, and 0 above. -/
def wordOfBits (bits : List Bool) : Word := (BitVec.ofBoolListLE bits).setWidth 32

theorem getLsbD_wordOfBits {bits : List Bool} (h : bits.length ≤ 32) (k : Nat) :
    (wordOfBits bits).getLsbD k = bits.getD k false := by
  rw [wordOfBits, BitVec.getLsbD_setWidth, BitVec.getLsbD_ofBoolListLE]
  by_cases hk : k < 32
  · rw [decide_eq_true hk, Bool.true_and]
  · rw [List.getD_eq_default _ _ (by omega), Bool.and_false]

/-- CTRL's layout: IRQEN and SOREJ are bits 8 and 9 (R43, R49). -/
def State.ctrlBits (s : State) : List Bool := List.replicate 8 false ++ [s.irqEn, s.soRej]

/-- The four bits of CAUSE (R233). -/
def Cause.bits (c : Cause) : List Bool := [c.code.testBit 0, c.code.testBit 1, c.code.testBit 2, c.code.testBit 3]

/-- STATUS's layout: the five flags, three reserved bits and CAUSE (R52). -/
def State.statusBits (s : State) : List Bool :=
  [s.busy, s.done, s.err, s.cf, s.herr, false, false, false] ++ s.cause.bits

theorem State.ctrlWord_eq_wordOfBits (s : State) : s.ctrlWord = wordOfBits s.ctrlBits := by
  apply BitVec.eq_of_toNat_eq
  simp [State.ctrlWord, wordOfBits, State.ctrlBits, BitVec.ofBoolListLE, List.replicate]
  omega

theorem State.statusWord_eq_wordOfBits (s : State) : s.statusWord = wordOfBits s.statusBits := by
  apply BitVec.eq_of_toNat_eq
  unfold State.statusWord State.statusBits Cause.bits
  generalize s.cause = c
  cases c <;>
    simp [wordOfBits, Cause.code, BitVec.ofBoolListLE, Nat.testBit] <;>
    omega

theorem State.ctrlWord_getLsbD (s : State) (k : Nat) : s.ctrlWord.getLsbD k = s.ctrlBits.getD k false := by
  rw [s.ctrlWord_eq_wordOfBits]
  exact getLsbD_wordOfBits (by simp [State.ctrlBits]) k

theorem State.statusWord_getLsbD (s : State) (k : Nat) : s.statusWord.getLsbD k = s.statusBits.getD k false := by
  rw [s.statusWord_eq_wordOfBits]
  exact getLsbD_wordOfBits (by simp [State.statusBits, Cause.bits]) k

/-- CTRL's other bits read 0 (R49). -/
theorem State.ctrlBits_other (s : State) {k : Nat} (h8 : k ≠ 8) (h9 : k ≠ 9) : s.ctrlBits.getD k false = false := by
  obtain hk | hk := Nat.lt_or_ge k 10
  · interval_cases k <;> simp_all [State.ctrlBits, List.replicate]
  · exact List.getD_eq_default _ _ (by simpa [State.ctrlBits] using hk)

/-- STATUS's reserved bits read 0 (R52). -/
theorem State.statusBits_reserved (s : State) {k : Nat} (h : (5 ≤ k ∧ k < 8) ∨ 12 ≤ k) :
    s.statusBits.getD k false = false := by
  obtain ⟨h5, h8⟩ | h12 := h
  · interval_cases k <;> rfl
  · exact List.getD_eq_default _ _ (by simpa [State.statusBits, Cause.bits] using h12)

theorem Cause.code_le (c : Cause) : c.code ≤ 4 := by cases c <;> decide

/-- Bits 11:8 of STATUS hold the code of CAUSE. -/
theorem State.statusWord_cause (s : State) : (s.statusWord.extractLsb' 8 4).toNat = s.cause.code := by
  have hc := s.cause.code_le
  have hb := s.busy.toNat_le
  have hd := s.done.toNat_le
  have he := s.err.toNat_le
  have hf := s.cf.toNat_le
  have hh := s.herr.toNat_le
  simp only [State.statusWord, BitVec.extractLsb'_toNat, BitVec.toNat_ofNat, Nat.shiftRight_eq_div_pow]
  omega

/-! ## The table of registers -/

/-- A reserved offset reads 0 (R62). -/
theorem State.registerWord_reserved (s : State) {offset : Nat} (h : 0x0024 ≤ offset) : s.registerWord offset = 0 := by
  unfold State.registerWord
  split <;> trivial

/-- Only CTRL, STATUS and PC take a write (R42, R62). -/
theorem State.registerWrite_of_readOnly (s : State) {offset : Nat} (w : Word) (hc : offset ≠ 0x0004)
    (hs : offset ≠ 0x0008) (hp : offset ≠ 0x000C) : s.registerWrite offset w = s := by
  unfold State.registerWrite
  split <;> trivial

theorem State.ignoresWrite_of_readOnly (s : State) {offset : Half} (ho : offset.toNat < 0x4000)
    (ha : offset.toNat % 4 = 0) (hc : offset.toNat ≠ 0x0004) (hs : offset.toNat ≠ 0x0008) (hp : offset.toNat ≠ 0x000C) :
    s.ignoresWrite offset := fun rest w h => by
  rw [step_of_write h ha, hostWrite, if_pos ho, State.registerWrite_of_readOnly _ w hc hs hp]

/-! ## Register files and host reads -/

/-- The state with other register files. -/
def State.withFiles (s : State) (f : Vector Fe 16) (sc : Vector Scalar 8) (p : Vector Point 8) : State :=
  { s with fregs := f, sregs := sc, pregs := p }

/-- NONINTERFERENCE: a host read does not see the register files and leaves them alone. -/
theorem hostRead_withFiles (s : State) (f : Vector Fe 16) (sc : Vector Scalar 8) (p : Vector Point 8) (offset : Nat) :
    hostRead (s.withFiles f sc p) offset = (hostRead s offset).withFiles f sc p := by
  have hbusy : (s.withFiles f sc p).busy = s.busy := rfl
  unfold hostRead
  rw [hbusy]
  split
  · rfl
  · split <;> rfl

/-! ## The statement's parts -/

/-- CTRL as the host reads it (R43, R49). -/
theorem readsAs_ctrl (s : State) :
    ∃ ctrl : Word, s.readsAs 0x0004 ctrl ∧ ctrl.getLsbD 8 = s.irqEn ∧ ctrl.getLsbD 9 = s.soRej ∧
      ∀ k, k ≠ 8 → k ≠ 9 → ctrl.getLsbD k = false :=
  ⟨s.ctrlWord, readsAs_register s (by decide) (by decide), s.ctrlWord_getLsbD 8, s.ctrlWord_getLsbD 9,
    fun k h8 h9 => (s.ctrlWord_getLsbD k).trans (s.ctrlBits_other h8 h9)⟩

/-- STATUS as the host reads it (R52, R233). -/
theorem readsAs_status (s : State) :
    ∃ status : Word, s.readsAs 0x0008 status ∧ status.getLsbD 0 = decide (s.run = .busy) ∧
      status.getLsbD 1 = s.done ∧ status.getLsbD 2 = s.err ∧ status.getLsbD 3 = s.cf ∧ status.getLsbD 4 = s.herr ∧
      (∀ row ∈ [(Cause.none, 0), (.illegal, 1), (.dmemRange, 2), (.imemRange, 3), (.aborted, 4)],
        s.cause = row.1 → (status.extractLsb' 8 4).toNat = row.2) ∧
      ∀ k, (5 ≤ k ∧ k < 8) ∨ 12 ≤ k → status.getLsbD k = false := by
  have hcodes : ∀ row ∈ [(Cause.none, 0), (.illegal, 1), (.dmemRange, 2), (.imemRange, 3), (.aborted, 4)],
      row.1.code = row.2 := by decide
  refine ⟨s.statusWord, readsAs_register s (by decide) (by decide), s.statusWord_getLsbD 0, s.statusWord_getLsbD 1,
    s.statusWord_getLsbD 2, s.statusWord_getLsbD 3, s.statusWord_getLsbD 4, fun row hrow hc => ?_, fun k hk => ?_⟩
  · rw [s.statusWord_cause, hc, hcodes row hrow]
  · rw [s.statusWord_getLsbD, s.statusBits_reserved hk]

/-- A 16-bit register reads zero-extended (R55, R59). -/
theorem zeroExtend_half_toNat (v : Half) : (v.zeroExtend 32).toNat = v.toNat := by
  rw [BitVec.toNat_setWidth]
  exact Nat.mod_eq_of_lt (v.isLt.trans (by decide))

/-- A size of R7 fits the word it is read as (R57, R58). -/
theorem ofNat_word_toNat_of_le {n : Nat} (h : n ≤ 32768) : (BitVec.ofNat 32 n).toNat = n := by
  rw [BitVec.toNat_ofNat]
  exact Nat.mod_eq_of_lt (by omega)

/-- The sizes as the host reads them. -/
theorem readsAs_sizes (s : State) (h : s.params.Legal) :
    (∃ v : Word, v.toNat = s.params.imemWords ∧ s.readsAs 0x001C v) ∧
      ∃ v : Word, v.toNat = s.params.dmemSize ∧ s.readsAs 0x0020 v := by
  obtain ⟨-, himem, -, -, hdmem⟩ := h
  exact ⟨⟨_, ofNat_word_toNat_of_le (by omega), readsAs_register s (by decide) (by decide)⟩,
    ⟨_, ofNat_word_toNat_of_le hdmem, readsAs_register s (by decide) (by decide)⟩⟩

theorem State.readsAs_reserved (s : State) {offset : Half} (hlo : 0x0024 ≤ offset.toNat) (ho : offset.toNat < 0x4000)
    (ha : offset.toNat % 4 = 0) : s.readsAs offset 0 :=
  s.registerWord_reserved hlo ▸ readsAs_register s ho ha

theorem State.ignoresWrite_reserved (s : State) {offset : Half} (hlo : 0x0024 ≤ offset.toNat)
    (ho : offset.toNat < 0x4000) (ha : offset.toNat % 4 = 0) : s.ignoresWrite offset := by
  refine s.ignoresWrite_of_readOnly ho ha ?_ ?_ ?_ <;> omega

/-- The read-only registers ignore a write (R42). -/
theorem State.ignoresWrite_constants (s : State) :
    ∀ offset ∈ ([0x0000, 0x0010, 0x0014, 0x0018, 0x001C, 0x0020] : List Half), s.ignoresWrite offset := by
  have hro : ∀ o ∈ ([0x0000, 0x0010, 0x0014, 0x0018, 0x001C, 0x0020] : List Half), o.toNat < 0x4000 ∧
      o.toNat % 4 = 0 ∧ o.toNat ≠ 0x0004 ∧ o.toNat ≠ 0x0008 ∧ o.toNat ≠ 0x000C := by simp
  intro offset hmem
  obtain ⟨ho, ha, hc, hs, hp⟩ := hro offset hmem
  exact s.ignoresWrite_of_readOnly ho ha hc hs hp

/-- Two states that differ in the register files alone answer a host read alike (R244). -/
theorem step_read_withFiles {s t : State} {offset : Half} {rest : List HostEvent}
    (h : s.inputs = .read offset 4 :: rest) (hs : step s = .next t) (f : Vector Fe 16) (sc : Vector Scalar 8)
    (p : Vector Point 8) : step (s.withFiles f sc p) = .next (t.withFiles f sc p) := by
  obtain ⟨-, ha⟩ := legalAccess_of_read h hs
  cases (step_of_read h ha).symm.trans hs
  rw [step_of_read (s := s.withFiles f sc p) h ha]
  exact congrArg Host.Outcome.next (hostRead_withFiles { s with inputs := rest } f sc p _)

/-- Settles O60: the table from the lemmas above, and noninterference because a host read commutes with replacing the
register files. -/
theorem hostReadsDoNotRevealRegisters : Obligations.HostReadsDoNotRevealRegisters := by
  refine ⟨fun s => ⟨?_, readsAs_ctrl s, readsAs_status s, ?_, ?_, ?_, ?_, readsAs_sizes s,
    fun offset hlo ho ha => ⟨s.readsAs_reserved hlo ho ha, s.ignoresWrite_reserved hlo ho ha⟩,
    s.ignoresWrite_constants⟩, ?_⟩
  · exact readsAs_register s (by decide) (by decide)
  · exact ⟨_, zeroExtend_half_toNat s.pc, readsAs_register s (by decide) (by decide)⟩
  · exact ⟨_, zeroExtend_half_toNat s.faultPc, readsAs_register s (by decide) (by decide)⟩
  · exact readsAs_register s (by decide) (by decide)
  · exact readsAs_register s (by decide) (by decide)
  · intro s u t rest offset hin hu hs
    rw [hu]
    exact step_read_withFiles hin hs u.fregs u.sregs u.pregs

end Sys2Proof.Machine
end

section
/-! The memories a step leaves (20_memory.md R70, R74, R81): the sizes stay legal, and both memories stay in canonical
form and within their sizes. -/

namespace Sys2Proof.Machine

/-- The memory invariant: legal sizes (R7), and both memories in canonical form and within them. The sizes belong to it,
as a word at a multiple of 4 below DMEM_SIZE lies within DMEM only because DMEM_SIZE is a multiple of 4. -/
def State.MemoryCanonical (s : State) : Prop := s.params.Legal ∧ s.MemoryWf

/-- The invariant speaks of three fields. -/
theorem memoryCanonical_congr {s t : State} (hd : t.dmem = s.dmem) (hi : t.imem = s.imem) (hp : t.params = s.params)
    (h : s.MemoryCanonical) : t.MemoryCanonical := by
  unfold State.MemoryCanonical State.MemoryWf
  rwa [hd, hi, hp]

/-! ## The operations that write a memory -/

theorem memWrite_memoryCanonical {s : State} (h : s.MemoryCanonical) {a : Nat} {b : List Byte}
    (hb : a + b.length ≤ s.params.dmemSize) : (s.memWrite a b).MemoryCanonical := by
  obtain ⟨hlegal, hdmem, himem, hdin, hiin⟩ := h
  refine ⟨hlegal, setCells_wf hdmem a b, himem, fun c hc => ?_, hiin⟩
  obtain ⟨-, hlt⟩ | hold := mem_setCells hc
  · exact hlt.trans_le hb
  · exact hdin c hold

theorem setImem_memoryCanonical {s : State} (h : s.MemoryCanonical) {i : Nat} (hi : i < s.params.imemWords) (w : Word) :
    (s.setImem i w).MemoryCanonical := by
  obtain ⟨hlegal, hdmem, himem, hdin, hiin⟩ := h
  refine ⟨hlegal, hdmem, setCell_wf himem i w, hdin, fun c hc => ?_⟩
  obtain rfl | hold := mem_setCell hc
  · exact hi
  · exact hiin c hold

/-- ZEROIZE lists the addresses below DMEM_SIZE (R46). -/
theorem zeroize_memoryCanonical {s : State} (h : s.MemoryCanonical) : s.zeroize.MemoryCanonical := by
  obtain ⟨hlegal, -, himem, -, hiin⟩ := h
  refine ⟨hlegal, zeroize_dmem_wf s, himem, fun c hc => ?_, hiin⟩
  obtain ⟨a, ha, rfl⟩ := List.mem_map.1 hc
  exact List.mem_range.1 ha

/-! ## The core's turn -/

theorem Effect.memoryCanonical {s u : State} (hu : Effect s u) (h : s.MemoryCanonical) : u.MemoryCanonical := by
  cases hu with
  | store addr b hb => exact memWrite_memoryCanonical h hb
  | nothing | field | fields | flag | flagField | scalar | point | pointFlag =>
    exact memoryCanonical_congr rfl rfl rfl h

theorem ExecResult.memoryCanonical {i : Instr} {s t : State} (ht : ExecResult i s t) (h : s.MemoryCanonical) :
    t.MemoryCanonical := by
  cases ht with
  | fault | halt | branch => exact memoryCanonical_congr rfl rfl rfl h
  | effect u hu => exact memoryCanonical_congr rfl rfl rfl (hu.memoryCanonical h)

theorem CycleResult.memoryCanonical {s t : State} (ht : CycleResult s t) (h : s.MemoryCanonical) :
    t.MemoryCanonical := by
  cases ht with
  | idle => exact h
  | fetchFault | illegal => exact memoryCanonical_congr rfl rfl rfl h
  | executed i t hr hp hd hexec => exact hexec.memoryCanonical h

/-! ## The host's accesses and reset -/

theorem hostRead_memoryCanonical {s : State} (h : s.MemoryCanonical) (offset : Nat) :
    (hostRead s offset).MemoryCanonical := by
  obtain ⟨data, herr, he⟩ := hostRead_outcome s offset
  rw [he]
  exact memoryCanonical_congr rfl rfl rfl h

theorem ctrlWriteBusy_memoryCanonical {s : State} (h : s.MemoryCanonical) (w : Word) :
    (s.ctrlWriteBusy w).MemoryCanonical := by
  cases ha : w.getLsbD 1 with
  | true => rw [ctrlWriteBusy_abort _ ha]; exact memoryCanonical_congr rfl rfl rfl h
  | false => rw [ctrlWriteBusy_noAbort _ ha]; exact memoryCanonical_congr rfl rfl rfl h

/-- Of an IDLE write's parts only ZEROIZE writes a memory (R46, R47). -/
theorem ctrlWriteIdle_memoryCanonical {s : State} (h : s.MemoryCanonical) (w : Word) :
    (s.ctrlWriteIdle w).MemoryCanonical := by
  have hset : (s.setRwFields w).MemoryCanonical := memoryCanonical_congr rfl rfl rfl h
  have hstart : ∀ {u : State}, u.MemoryCanonical → u.startRun.MemoryCanonical := memoryCanonical_congr rfl rfl rfl
  cases hs : w.getLsbD 0 with
  | true => cases hz : w.getLsbD 2 with
    | true => rw [ctrlWriteIdle_zeroizeStart _ hs hz]; exact hstart (zeroize_memoryCanonical hset)
    | false => rw [ctrlWriteIdle_start _ hs hz]; exact hstart hset
  | false => cases hz : w.getLsbD 2 with
    | true => rw [ctrlWriteIdle_zeroize _ hs hz]; exact zeroize_memoryCanonical hset
    | false => rw [ctrlWriteIdle_rwOnly _ hs hz]; exact hset

theorem registerWrite_memoryCanonical {s : State} (h : s.MemoryCanonical) (offset : Nat) (w : Word) :
    (s.registerWrite offset w).MemoryCanonical := by
  unfold State.registerWrite
  split
  · split
    · exact ctrlWriteBusy_memoryCanonical h w
    · exact ctrlWriteIdle_memoryCanonical h w
  · exact memoryCanonical_congr rfl rfl rfl h
  · unfold State.pcWrite
    split <;> exact memoryCanonical_congr rfl rfl rfl h
  · exact h

/-- A window write within IMEM or DMEM; the four bytes of an aligned one end within DMEM, as DMEM_SIZE is a multiple of
4 (R7, R77). -/
theorem windowWrite_memoryCanonical {s : State} (h : s.MemoryCanonical) {offset : Nat} (ha : offset % 4 = 0)
    (w : Word) : (s.windowWrite offset w).MemoryCanonical := by
  obtain ⟨-, -, hmul, -⟩ := h.left
  unfold State.windowWrite
  split
  · split
    · exact setImem_memoryCanonical h ‹_› w
    · exact h
  · split
    · exact memWrite_memoryCanonical h (by rw [toLE_length]; omega)
    · exact h

theorem hostWrite_memoryCanonical {s : State} (h : s.MemoryCanonical) {offset : Nat} (ha : offset % 4 = 0) (w : Word) :
    (hostWrite s offset w).MemoryCanonical := by
  unfold hostWrite
  split
  · exact registerWrite_memoryCanonical h offset w
  · split
    · exact memoryCanonical_congr rfl rfl rfl h
    · exact windowWrite_memoryCanonical h ha w

theorem resetNow_memoryCanonical {s : State} (h : s.params.Legal) : s.resetNow.MemoryCanonical :=
  ⟨h, afterReset_memoryWf s.params (s.epoch + 1)⟩

/-- Settles O45: each outcome of a step keeps the invariant; a host write that has a next state is at a multiple of
4. -/
theorem stepKeepsMemoryCanonical : Obligations.StepKeepsMemoryCanonical := by
  intro s t hlegal hwf hs
  have htake : ∀ rest, State.MemoryCanonical { s with inputs := rest } := fun rest => ⟨hlegal, hwf⟩
  cases step_outcome hs with
  | core u t hu ht => exact ht.memoryCanonical (hu.eq_inputs ▸ htake u.inputs)
  | read offset rest => exact hostRead_memoryCanonical (htake rest) _
  | write offset w rest hin ha t ht =>
    cases (step_of_write hin ha).symm.trans hs
    exact hostWrite_memoryCanonical (htake rest) ha w
  | reset rest => exact resetNow_memoryCanonical hlegal

end Sys2Proof.Machine
end

section
/-! What the instructions do to the memories and the host's fields (20_memory.md R71 to R74). -/

namespace Sys2Proof.Machine

/-! ## The range check of a DMEM operand -/

/-- Every M-format instruction is an effect under the range check of its operand (R74). -/
theorem exec_of_dmemOperand {i : Instr} {addr : Half} {n : Nat} (hw : i.wellFormed = true)
    (h : i.dmemOperand = some (addr, n)) (s : State) :
    ∃ u : State, exec i s = .next (withDmem s addr n u.complete) ∧ (s.inDmem addr n → Effect s u) := by
  cases i with
  | fld => cases h; exact ⟨_, rfl, fun _ => .field _ _⟩
  | fst => cases h; exact ⟨_, rfl, fun hin => .store _ _ (by simpa using hin)⟩
  | sld | sldw => cases h; exact ⟨_, whenLegal_of_wf hw s _, fun _ => .scalar _ _⟩
  | sst => cases h; exact ⟨_, whenLegal_of_wf hw s _, fun hin => .store _ _ (by simpa using hin)⟩
  | pld => cases h; exact ⟨_, whenLegal_of_wf hw s _, fun _ => .takeDecoding _ _ _ _⟩
  | pst => cases h; exact ⟨_, whenLegal_of_wf hw s _, fun hin => .store _ _ (by simpa using hin)⟩
  | _ => cases h

theorem Effect.advances_complete {s u : State} (h : Effect s u) : advances s u.complete :=
  ⟨congrArg (· + 1) h.pc, congrArg (· + 1) h.retired⟩

/-- Settles O9: out of range the check faults before the effect, in range it lets the effect complete. -/
theorem dmemAccessIsRangeChecked : Obligations.DmemAccessIsRangeChecked := by
  intro i s addr n hw hop
  obtain ⟨u, hexec, heffect⟩ := exec_of_dmemOperand hw hop s
  refine ⟨fun hout => ?_, fun hin => ?_⟩
  · rw [hexec, withDmem_outside (Nat.not_le.2 hout)]
    exact ⟨_, rfl, raise_entersFault s .dmemRange⟩
  · rw [hexec, withDmem_inside hin]
    obtain ⟨-, hrun, -, -, -, herr, -, hcause, -⟩ := (heffect hin).keepsControl
    exact ⟨_, rfl, herr, hcause, hrun, (heffect hin).advances_complete⟩

/-! ## Who writes the memories -/

theorem Effect.imem {s u : State} (h : Effect s u) : u.imem = s.imem := by cases h <;> rfl

/-- No outcome of an instruction changes IMEM, CTRL's fields, HERR or the sizes. -/
theorem ExecResult.keepsImemAndHost {i : Instr} {s t : State} (h : ExecResult i s t) :
    t.imem = s.imem ∧ t.irqEn = s.irqEn ∧ t.soRej = s.soRej ∧ t.herr = s.herr ∧ t.params = s.params := by
  cases h with
  | fault | halt | branch => exact ⟨rfl, rfl, rfl, rfl, rfl⟩
  | effect u hu =>
    obtain ⟨-, -, hirq, hrej, -, -, hherr, -, -, -, hparams, -⟩ := hu.keepsControl
    exact ⟨hu.imem, hirq, hrej, hherr, hparams⟩

/-! A guard keeps what its effect and every fault entry keep. -/

section Guards
variable {α : Type} (f : State → α) {s t : State} (hraise : ∀ c, f (s.raise c) = f s)
include hraise

theorem whenLegal_keeps {i : Instr} (h : f t = f s) : ∃ t', whenLegal i s t = .next t' ∧ f t' = f s := by
  unfold whenLegal
  split
  · exact ⟨_, rfl, h⟩
  · exact ⟨_, rfl, hraise .illegal⟩

theorem withDmem_keeps {addr : Half} {n : Nat} (h : f t = f s) : f (withDmem s addr n t) = f s := by
  unfold withDmem
  split
  · exact h
  · exact hraise .dmemRange

theorem withTarget_keeps {target : Half} (h : f t = f s) : f (withTarget s target t) = f s := by
  unfold withTarget
  split
  · exact h
  · exact hraise .imemRange

end Guards

@[simp] theorem State.takeDecoding_dmem (s : State) (d : RegField) (q : Option Point) :
    (s.takeDecoding d q).dmem = s.dmem := by
  cases q <;> rfl

/-- An instruction that is none of the three stores leaves DMEM, whichever guard it meets (R73). -/
theorem exec_dmem_of_not_store {i : Instr} (h : i.mnemonic ∉ ["FST", "SST", "PST"]) (s : State) :
    ∃ t, exec i s = .next t ∧ t.dmem = s.dmem := by
  have hraise : ∀ c, (s.raise c).dmem = s.dmem := fun _ => rfl
  cases i with
  | fst | sst | pst => simp [Instr.mnemonic] at h
  | nop | halt | fldi | fadd | fsub | fmul | fsqr | finv | fsqrt | fsel | feq => exact ⟨_, rfl, rfl⟩
  | jmp => exact ⟨_, rfl, withTarget_keeps State.dmem hraise rfl⟩
  | bcs | bcc => exact ⟨_, rfl, withTarget_keeps State.dmem hraise (by split <;> rfl)⟩
  | fcswap => exact ⟨_, rfl, by split <;> rfl⟩
  | fld => exact ⟨_, rfl, withDmem_keeps State.dmem hraise (by simp)⟩
  | sld | sldw | pld => exact whenLegal_keeps State.dmem hraise (withDmem_keeps State.dmem hraise (by simp))
  | sldi | smuladd | sclamp | schk | pident | pbase | padd | pdbl | smul | dsmulv | peq | psmall | paff =>
    exact whenLegal_keeps State.dmem hraise (by simp)

/-- The bytes of DMEM are those of its cells and of the reset's draw. -/
theorem keepsDmem_of_eq {s t : State} (hd : t.dmem = s.dmem) (he : t.epoch = s.epoch) : keepsDmem s t := by
  intro a
  unfold State.dmemByte
  rw [hd, he]

theorem ExecResult.epoch {i : Instr} {s t : State} (h : ExecResult i s t) : t.epoch = s.epoch := by
  cases h with
  | fault | halt | branch => rfl
  | effect u hu =>
    obtain ⟨-, -, -, -, -, -, -, -, -, -, -, hepoch, -⟩ := hu.keepsControl
    exact hepoch

/-- Settles O50: the fields by the outcomes of `exec`, DMEM by the instructions that are no store. -/
theorem instructionsKeepImemAndHostRegisters : Obligations.InstructionsKeepImemAndHostRegisters := by
  intro i s t hs
  obtain ⟨t', ht', hres⟩ := exec_outcome i s
  cases ht'.symm.trans hs
  obtain ⟨himem, hirq, hrej, hherr, hparams⟩ := hres.keepsImemAndHost
  refine ⟨himem, hirq, hrej, hherr, hparams, fun hstore => ?_⟩
  obtain ⟨t', ht', hdmem⟩ := exec_dmem_of_not_store hstore s
  cases ht'.symm.trans hs
  exact keepsDmem_of_eq hdmem hres.epoch

end Sys2Proof.Machine
end

section
/-! The host's windows into the memories, and the accesses the core ignores or refuses (20_memory.md R77 to R83). -/

namespace Sys2Proof.Machine

/-! ## Accesses of another form (R83) -/

/-- Settles O59: the refusal is the other branch of the check of `legalAccess`. -/
theorem otherHostAccessesAreRefused : Obligations.OtherHostAccessesAreRefused := by
  intro s rest offset bytes w hform
  have hillegal : ¬ legalAccess offset bytes := not_and_or.2 hform
  refine ⟨fun h => ?_, fun h => ?_⟩
  · rw [step_of_input h, hostStep, if_neg hillegal]
  · rw [step_of_input h, hostStep, if_neg hillegal]

/-! ## The windows while BUSY, and the PC register -/

theorem step_of_window_read_busy {s : State} {offset : Half} {rest : List HostEvent}
    (h : s.inputs = .read offset 4 :: rest) (hr : s.run = .busy) (ho : 0x4000 ≤ offset.toNat)
    (ha : offset.toNat % 4 = 0) : step s = .next { s with inputs := rest, herr := true, readData := some 0 } := by
  rw [step_of_read h ha, hostRead, if_neg (Nat.not_lt.2 ho), if_pos (by simp [State.busy, hr])]
  rfl

theorem step_of_window_write_busy {s : State} {offset : Half} {w : Word} {rest : List HostEvent}
    (h : s.inputs = .write offset 4 w :: rest) (hr : s.run = .busy) (ho : 0x4000 ≤ offset.toNat)
    (ha : offset.toNat % 4 = 0) : step s = .next { s with inputs := rest, herr := true } := by
  rw [step_of_write h ha, hostWrite, if_neg (Nat.not_lt.2 ho), if_pos (by simp [State.busy, hr])]
  rfl

/-- A PC write is `pcWrite`, whatever the run state. -/
theorem step_of_pc_write {s : State} {w : Word} {rest : List HostEvent} (h : s.inputs = .write 0x000C 4 w :: rest) :
    step s = .next (State.pcWrite { s with inputs := rest } w) := step_of_write h (by decide)

/-- Settles O56: the accesses while BUSY, and PC written, read, found beyond IMEM at the fetch, and 0 after reset. -/
theorem busyWindowsAreClosed : Obligations.BusyWindowsAreClosed := by
  refine ⟨fun s rest offset w hr ho ha => ⟨fun h => step_of_window_read_busy h hr ho ha,
    fun h => step_of_window_write_busy h hr ho ha⟩, fun s rest w h => ⟨fun hidle => ?_, fun hbusy => ?_⟩,
    fun s => ⟨_, zeroExtend_half_toNat s.pc, readsAs_register s (by decide) (by decide)⟩,
    fun s u hu hr hp => ⟨u.raiseFetch, ?_, raiseFetch_entersFault u⟩, rfl⟩
  · rw [step_of_pc_write h, State.pcWrite, if_neg (by simp [State.busy, hidle])]
  · rw [step_of_pc_write h, State.pcWrite, if_pos (by simp [State.busy, hbusy])]
    rfl
  · rw [step_of_coreTurn hu, coreCycle_beyond hr (Nat.not_lt.2 hp)]

/-! ## Window words by their index -/

/-- An offset in the window block is the number it is written as. -/
theorem ofNat_half_toNat_of_lt {n : Nat} (h : n < 0x10000) : (BitVec.ofNat 16 n).toNat = n :=
  (BitVec.toNat_ofNat n 16).trans (Nat.mod_eq_of_lt h)

section Windows
variable (s : State) (w : Word)

theorem State.windowWord_imem {i : Nat} (hi : i < 4096) :
    s.windowWord (0x4000 + 4 * i) = if i < s.params.imemWords then s.imemWord i else 0 := by
  have hidx : (0x4000 + 4 * i - 0x4000) / 4 = i := by omega
  rw [State.windowWord, if_pos (by omega), hidx]

theorem State.windowWord_dmem (j : Nat) :
    s.windowWord (0x8000 + 4 * j) = if 4 * j < s.params.dmemSize then s.dmemWindowWord (4 * j) else 0 := by
  rw [State.windowWord, if_neg (by omega), Nat.add_sub_cancel_left]

theorem State.windowWrite_imem {i : Nat} (hi : i < 4096) :
    s.windowWrite (0x4000 + 4 * i) w = if i < s.params.imemWords then s.setImem i w else s := by
  have hidx : (0x4000 + 4 * i - 0x4000) / 4 = i := by omega
  rw [State.windowWrite, if_pos (by omega), hidx]

theorem State.windowWrite_dmem (j : Nat) :
    s.windowWrite (0x8000 + 4 * j) w =
      if 4 * j < s.params.dmemSize then s.memWrite (4 * j) (toLE 4 w.toNat) else s := by
  rw [State.windowWrite, if_neg (by omega), Nat.add_sub_cancel_left]

end Windows

/-! ## The steps that are an IDLE access of a window, by its index -/

section IdleAccess
variable {s : State} (hr : s.run = .idle)
include hr

theorem readsAs_imemWindow {i : Nat} (hi : i < 4096) : s.readsAs (BitVec.ofNat 16 (0x4000 + 4 * i))
    (if i < s.params.imemWords then s.imemWord i else 0) := by
  have ho : (BitVec.ofNat 16 (0x4000 + 4 * i)).toNat = 0x4000 + 4 * i := ofNat_half_toNat_of_lt (by omega)
  have h := readsAs_window s hr (offset := BitVec.ofNat 16 (0x4000 + 4 * i)) (by omega) (by omega)
  rwa [ho, s.windowWord_imem hi] at h

theorem readsAs_dmemWindow {j : Nat} (hj : j < 8192) : s.readsAs (BitVec.ofNat 16 (0x8000 + 4 * j))
    (if 4 * j < s.params.dmemSize then s.dmemWindowWord (4 * j) else 0) := by
  have ho : (BitVec.ofNat 16 (0x8000 + 4 * j)).toNat = 0x8000 + 4 * j := ofNat_half_toNat_of_lt (by omega)
  have h := readsAs_window s hr (offset := BitVec.ofNat 16 (0x8000 + 4 * j)) (by omega) (by omega)
  rwa [ho, s.windowWord_dmem j] at h

theorem step_of_imemWindow_write {i : Nat} (hi : i < 4096) {w : Word} {rest : List HostEvent}
    (h : s.inputs = .write (BitVec.ofNat 16 (0x4000 + 4 * i)) 4 w :: rest) :
    step s = .next (if i < s.params.imemWords then State.setImem { s with inputs := rest } i w
      else { s with inputs := rest }) := by
  have ho : (BitVec.ofNat 16 (0x4000 + 4 * i)).toNat = 0x4000 + 4 * i := ofNat_half_toNat_of_lt (by omega)
  rw [step_of_window_write h hr (by omega) (by omega), ho, State.windowWrite_imem _ w hi]

theorem step_of_dmemWindow_write {j : Nat} (hj : j < 8192) {w : Word} {rest : List HostEvent}
    (h : s.inputs = .write (BitVec.ofNat 16 (0x8000 + 4 * j)) 4 w :: rest) :
    step s = .next (if 4 * j < s.params.dmemSize
      then State.memWrite { s with inputs := rest } (4 * j) (toLE 4 w.toNat) else { s with inputs := rest }) := by
  have ho : (BitVec.ofNat 16 (0x8000 + 4 * j)).toNat = 0x8000 + 4 * j := ofNat_half_toNat_of_lt (by omega)
  rw [step_of_window_write h hr (by omega) (by omega), ho, State.windowWrite_dmem _ w j]

end IdleAccess

/-! ## The lanes of a DMEM window word (R77) -/

/-- Byte i of `toLE_n(v)` is digit i of v in base 256 (R9). -/
theorem getElem_toLE {n v i : Nat} (h : i < (toLE n v).length) : (toLE n v)[i] = BitVec.ofNat 8 (v / 256 ^ i) := by
  induction n generalizing v i with
  | zero => cases h
  | succ n ih => cases i with
    | zero => simp [toLE]
    | succ k =>
      simp only [toLE, List.getElem_cons_succ]
      rw [ih, Nat.div_div_eq_div_mul, Nat.pow_succ']

/-- Digit i of a word in base 256 is its bits 8i+7:8i. -/
theorem ofNat_div_pow_eq_lane (w : Word) (i : Nat) : BitVec.ofNat 8 (w.toNat / 256 ^ i) = w.extractLsb' (8 * i) 8 := by
  apply BitVec.eq_of_toNat_eq
  rw [BitVec.toNat_ofNat, BitVec.extractLsb'_toNat, Nat.shiftRight_eq_div_pow, Nat.pow_mul]

theorem dmemByte_memWrite_lane (s : State) (a : Nat) (w : Word) {i : Nat} (hi : i < 4) :
    (s.memWrite a (toLE 4 w.toNat)).dmemByte (a + i) = w.extractLsb' (8 * i) 8 := by
  have hlen : i < (toLE 4 w.toNat).length := by rwa [toLE_length]
  rw [s.dmemByte_memWrite_inside a _ hlen, getElem_toLE, ofNat_div_pow_eq_lane]

theorem State.dmemWindowWord_toNat (s : State) (a : Nat) : (s.dmemWindowWord a).toNat = leNat (s.memRead a 4) := by
  have hlt := leNat_lt (s.memRead a 4)
  rw [s.memRead_length] at hlt
  exact (BitVec.toNat_ofNat _ 32).trans (Nat.mod_eq_of_lt hlt)

/-! ## The statement's parts -/

section Parts
variable {s : State} (hr : s.run = .idle)
include hr

/-- A write within DMEM stores the lanes of the word and nothing else. -/
theorem dmemWindow_write_inside {j : Nat} (hj : j < 8192) (hin : 4 * j < s.params.dmemSize) {w : Word}
    {rest : List HostEvent} (h : s.inputs = .write (BitVec.ofNat 16 (0x8000 + 4 * j)) 4 w :: rest) :
    ∃ t, step s = .next t ∧ (∀ i < 4, t.dmemByte (4 * j + i) = w.extractLsb' (8 * i) 8) ∧
      keepsDmemOutside s t (4 * j) 4 ∧ t = { s with inputs := rest, dmem := t.dmem } := by
  rw [step_of_dmemWindow_write hr hj h, if_pos hin]
  refine ⟨_, rfl, fun i hi => dmemByte_memWrite_lane _ _ w hi, fun a ha => ?_, rfl⟩
  exact State.dmemByte_memWrite_outside { s with inputs := rest } _ _ (by rwa [toLE_length])

/-- A write within IMEM sets the word and nothing else. -/
theorem imemWindow_write_inside {i : Nat} (hi : i < 4096) (hin : i < s.params.imemWords) {w : Word}
    {rest : List HostEvent} (h : s.inputs = .write (BitVec.ofNat 16 (0x4000 + 4 * i)) 4 w :: rest) :
    ∃ t, step s = .next t ∧ t.imemWord i = w ∧ (∀ k, k ≠ i → t.imemWord k = s.imemWord k) ∧
      t = { s with inputs := rest, imem := t.imem } := by
  rw [step_of_imemWindow_write hr hi h, if_pos hin]
  exact ⟨_, rfl, State.imemWord_setImem_same _ i w,
    fun k hk => State.imemWord_setImem_ne { s with inputs := rest } w hk, rfl⟩

/-- Beyond IMEM_WORDS the IMEM window is inert (R81). -/
theorem imemWindow_inert {i : Nat} (hi : i < 4096) (hout : s.params.imemWords ≤ i) :
    s.readsAs (BitVec.ofNat 16 (0x4000 + 4 * i)) 0 ∧ s.ignoresWrite (BitVec.ofNat 16 (0x4000 + 4 * i)) := by
  refine ⟨?_, fun rest w h => ?_⟩
  · simpa only [if_neg (Nat.not_lt.2 hout)] using readsAs_imemWindow hr hi
  · rw [step_of_imemWindow_write hr hi h, if_neg (Nat.not_lt.2 hout)]

/-- Beyond DMEM_SIZE the DMEM window is inert (R81). -/
theorem dmemWindow_inert {j : Nat} (hj : j < 8192) (hout : s.params.dmemSize ≤ 4 * j) :
    s.readsAs (BitVec.ofNat 16 (0x8000 + 4 * j)) 0 ∧ s.ignoresWrite (BitVec.ofNat 16 (0x8000 + 4 * j)) := by
  refine ⟨?_, fun rest w h => ?_⟩
  · simpa only [if_neg (Nat.not_lt.2 hout)] using readsAs_dmemWindow hr hj
  · rw [step_of_dmemWindow_write hr hj h, if_neg (Nat.not_lt.2 hout)]

end Parts

/-- Settles O57: a word within the sizes of R7 lies in its window. -/
theorem hostWindowLanesAreLittleEndian : Obligations.HostWindowLanesAreLittleEndian := by
  rintro s hr ⟨-, himem, -, -, hdmem⟩
  refine ⟨fun j hin => ?_, fun i hin => ?_, fun i hi hout => imemWindow_inert hr hi hout,
    fun j hj hout => dmemWindow_inert hr hj hout⟩
  · have hj : j < 8192 := by omega
    exact ⟨fun rest w h => dmemWindow_write_inside hr hj hin h, _, s.dmemWindowWord_toNat _,
      by simpa only [if_pos hin] using readsAs_dmemWindow hr hj⟩
  · have hi : i < 4096 := by omega
    exact ⟨fun rest w h => imemWindow_write_inside hr hi hin h,
      by simpa only [if_pos hin] using readsAs_imemWindow hr hi⟩

end Sys2Proof.Machine
end

section
/-! The decoder and the encoder are inverse to each other (R101 to R114): one lemma per format in each direction. -/

namespace Sys2Proof

/-! ## Reading a packed word with its own format gives the operands back -/

section Packed
variable {op : Nat} (h : op < 64)
include h

theorem formatN_packJ (i : Instr) : formatN (packJ op 0) i = some i := if_pos (low26_packJ h)

theorem formatJ_packJ (mk : Half → Instr) (t : Half) : formatJ (packJ op t) mk = some (mk t) := by
  rw [formatJ, lowHalf_packJ h]
  exact if_pos (mid10_packJ h t)

theorem formatMI_packMI (mk : RegField → Half → Instr) (r : RegField) (v : Half) :
    formatMI (packMI op r v) mk = some (mk r v) := by
  rw [formatMI, rdField_packMI h, lowHalf_packMI h]
  exact if_pos (mid6_packMI h r v)

theorem formatR4_packR (mk : RegField → RegField → RegField → RegField → Instr) (d a b c : RegField) :
    formatR4 (packR op d a b c) mk = some (mk d a b c) := by
  rw [formatR4, rdField_packR h, raField_packR h, rbField_packR h, rcField_packR h]
  exact if_pos (low10_packR h d a b c)

theorem formatR3_packR (mk : RegField → RegField → RegField → Instr) (d a b : RegField) :
    formatR3 (packR op d a b 0) mk = some (mk d a b) := by
  rw [formatR3, rdField_packR h, raField_packR h, rbField_packR h]
  exact if_pos (low14_packR h d a b)

theorem formatR2_packR (mk : RegField → RegField → Instr) (d a : RegField) :
    formatR2 (packR op d a 0 0) mk = some (mk d a) := by
  rw [formatR2, rdField_packR h, raField_packR h]
  exact if_pos (low18_packR h d a)

theorem formatR1_packR (mk : RegField → Instr) (d : RegField) : formatR1 (packR op d 0 0 0) mk = some (mk d) := by
  rw [formatR1, rdField_packR h]
  exact if_pos (low22_packR h d)

theorem formatAB_packR (mk : RegField → RegField → Instr) (a b : RegField) :
    formatAB (packR op 0 a b 0) mk = some (mk a b) := by
  rw [formatAB, rdField_packR h, raField_packR h, rbField_packR h]
  exact if_pos ⟨rfl, low14_packR h 0 a b⟩

theorem formatA_packR (mk : RegField → Instr) (a : RegField) : formatA (packR op 0 a 0 0) mk = some (mk a) := by
  rw [formatA, rdField_packR h, raField_packR h]
  exact if_pos ⟨rfl, low18_packR h 0 a⟩

end Packed

/-- The formats drop no bit of an operand, so this needs no well-formedness: only condition 4 of R110 does. -/
theorem decodeFormat_encode (i : Instr) : decodeFormat (encode i) = some i := by
  cases i with
  | nop | halt =>
    simp only [encode, decodeFormat, opcodeField_packJ, formatN_packJ, Nat.reduceLT]
  | jmp | bcs | bcc =>
    simp only [encode, decodeFormat, opcodeField_packJ, formatJ_packJ, Nat.reduceLT]
  | fld | fst | fldi | sld | sldw | sst | sldi | pld | pst =>
    simp only [encode, decodeFormat, opcodeField_packMI, formatMI_packMI, Nat.reduceLT]
  | smuladd | dsmulv =>
    simp only [encode, decodeFormat, opcodeField_packR, formatR4_packR, Nat.reduceLT]
  | fadd | fsub | fmul | fsqrt | fsel | padd | smul | paff =>
    simp only [encode, decodeFormat, opcodeField_packR, formatR3_packR, Nat.reduceLT]
  | fsqr | finv | sclamp | pdbl =>
    simp only [encode, decodeFormat, opcodeField_packR, formatR2_packR, Nat.reduceLT]
  | pident | pbase =>
    simp only [encode, decodeFormat, opcodeField_packR, formatR1_packR, Nat.reduceLT]
  | fcswap | feq | peq =>
    simp only [encode, decodeFormat, opcodeField_packR, formatAB_packR, Nat.reduceLT]
  | schk | psmall =>
    simp only [encode, decodeFormat, opcodeField_packR, formatA_packR, Nat.reduceLT]

/-- Settles O1: the formats give the term back, and `wellFormed` lets it through. -/
theorem encodedInstructionDecodesBack : Obligations.EncodedInstructionDecodesBack := fun i hw => by
  rw [decode, decodeFormat_encode, Option.filter_some, if_pos hw]

/-! ## A word is packed from its own fields -/

theorem opcodeField_lt (w : Word) : opcodeField w < 64 := (bitsAt w 26 6).isLt

/-- A range of zero bits from bit 0 has every range within it zero. -/
theorem bitsAt_eq_zero_of_le {w : Word} {n lo m : Nat} (hz : bitsAt w 0 n = 0) (hle : lo + m ≤ n := by decide) :
    bitsAt w lo m = 0 := by
  ext k hk
  have hbit : (bitsAt w 0 n).getLsbD (lo + k) = false := by rw [hz]; exact BitVec.getLsbD_zero
  simpa [bitsAt, show lo + k < n by omega] using hbit

section Fields
variable {w : Word} {op : Nat} (hop : opcodeField w = op)
include hop

theorem packJ_of_fields {t : Half} (ht : lowHalf w = t) (hz : bitsAt w 16 10 = 0) : packJ op t = w := by
  subst hop ht
  apply BitVec.eq_of_toNat_eq
  have hz' := congrArg BitVec.toNat hz
  have hw := w.isLt
  rw [packJ_toNat (opcodeField_lt w)]
  simp only [opcodeField, lowHalf, bitsAt_toNat, BitVec.ofNat_eq_ofNat, BitVec.toNat_ofNat] at hz' ⊢
  omega

theorem packMI_of_fields {r : RegField} {v : Half} (hr : rdField w = r) (hv : lowHalf w = v)
    (hz : bitsAt w 16 6 = 0) : packMI op r v = w := by
  subst hop hr hv
  apply BitVec.eq_of_toNat_eq
  have hz' := congrArg BitVec.toNat hz
  have hw := w.isLt
  rw [packMI_toNat (opcodeField_lt w)]
  simp only [opcodeField, rdField, lowHalf, bitsAt_toNat, BitVec.ofNat_eq_ofNat, BitVec.toNat_ofNat] at hz' ⊢
  omega

theorem packR_of_fields {rd ra rb rc : RegField} (hd : rdField w = rd) (ha : raField w = ra)
    (hb : rbField w = rb) (hc : rcField w = rc) (hz : bitsAt w 0 10 = 0) : packR op rd ra rb rc = w := by
  subst hop hd ha hb hc
  apply BitVec.eq_of_toNat_eq
  have hz' := congrArg BitVec.toNat hz
  have hw := w.isLt
  rw [packR_toNat (opcodeField_lt w)]
  simp only [opcodeField, rdField, raField, rbField, rcField, bitsAt_toNat, BitVec.ofNat_eq_ofNat,
    BitVec.toNat_ofNat] at hz' ⊢
  omega

/-! ## What a format reads is encoded as the word, when the encoder packs it in that format -/

variable {i : Instr}

theorem encode_of_formatN {j : Instr} (h : formatN w j = some i) (hmk : encode j = packJ op 0) : encode i = w := by
  obtain ⟨hz, ⟨⟩⟩ := Option.ite_none_right_eq_some.1 h
  exact hmk.trans (packJ_of_fields hop (bitsAt_eq_zero_of_le hz) (bitsAt_eq_zero_of_le hz))

theorem encode_of_formatJ {mk : Half → Instr} (h : formatJ w mk = some i)
    (hmk : ∀ t, encode (mk t) = packJ op t) : encode i = w := by
  obtain ⟨hz, ⟨⟩⟩ := Option.ite_none_right_eq_some.1 h
  exact (hmk _).trans (packJ_of_fields hop rfl hz)

theorem encode_of_formatMI {mk : RegField → Half → Instr} (h : formatMI w mk = some i)
    (hmk : ∀ r v, encode (mk r v) = packMI op r v) : encode i = w := by
  obtain ⟨hz, ⟨⟩⟩ := Option.ite_none_right_eq_some.1 h
  exact (hmk _ _).trans (packMI_of_fields hop rfl rfl hz)

theorem encode_of_formatR4 {mk : RegField → RegField → RegField → RegField → Instr} (h : formatR4 w mk = some i)
    (hmk : ∀ d a b c, encode (mk d a b c) = packR op d a b c) : encode i = w := by
  obtain ⟨hz, ⟨⟩⟩ := Option.ite_none_right_eq_some.1 h
  exact (hmk _ _ _ _).trans (packR_of_fields hop rfl rfl rfl rfl hz)

theorem encode_of_formatR3 {mk : RegField → RegField → RegField → Instr} (h : formatR3 w mk = some i)
    (hmk : ∀ d a b, encode (mk d a b) = packR op d a b 0) : encode i = w := by
  obtain ⟨hz, ⟨⟩⟩ := Option.ite_none_right_eq_some.1 h
  exact (hmk _ _ _).trans (packR_of_fields hop rfl rfl rfl (bitsAt_eq_zero_of_le hz) (bitsAt_eq_zero_of_le hz))

theorem encode_of_formatR2 {mk : RegField → RegField → Instr} (h : formatR2 w mk = some i)
    (hmk : ∀ d a, encode (mk d a) = packR op d a 0 0) : encode i = w := by
  obtain ⟨hz, ⟨⟩⟩ := Option.ite_none_right_eq_some.1 h
  exact (hmk _ _).trans (packR_of_fields hop rfl rfl (bitsAt_eq_zero_of_le hz)
    (bitsAt_eq_zero_of_le hz) (bitsAt_eq_zero_of_le hz))

theorem encode_of_formatR1 {mk : RegField → Instr} (h : formatR1 w mk = some i)
    (hmk : ∀ d, encode (mk d) = packR op d 0 0 0) : encode i = w := by
  obtain ⟨hz, ⟨⟩⟩ := Option.ite_none_right_eq_some.1 h
  exact (hmk _).trans (packR_of_fields hop rfl (bitsAt_eq_zero_of_le hz)
    (bitsAt_eq_zero_of_le hz) (bitsAt_eq_zero_of_le hz) (bitsAt_eq_zero_of_le hz))

theorem encode_of_formatAB {mk : RegField → RegField → Instr} (h : formatAB w mk = some i)
    (hmk : ∀ a b, encode (mk a b) = packR op 0 a b 0) : encode i = w := by
  obtain ⟨⟨hd, hz⟩, ⟨⟩⟩ := Option.ite_none_right_eq_some.1 h
  exact (hmk _ _).trans (packR_of_fields hop hd rfl rfl (bitsAt_eq_zero_of_le hz) (bitsAt_eq_zero_of_le hz))

theorem encode_of_formatA {mk : RegField → Instr} (h : formatA w mk = some i)
    (hmk : ∀ a, encode (mk a) = packR op 0 a 0 0) : encode i = w := by
  obtain ⟨⟨hd, hz⟩, ⟨⟩⟩ := Option.ite_none_right_eq_some.1 h
  exact (hmk _).trans (packR_of_fields hop hd rfl (bitsAt_eq_zero_of_le hz)
    (bitsAt_eq_zero_of_le hz) (bitsAt_eq_zero_of_le hz))

end Fields

/-- The cases are the opcodes of the map in their order, grouped by format. -/
theorem encode_of_decodeFormat {w : Word} {i : Instr} (h : decodeFormat w = some i) : encode i = w := by
  unfold decodeFormat at h
  split at h
  case h_1 hop | h_2 hop => exact encode_of_formatN hop h rfl
  case h_3 hop | h_4 hop | h_5 hop => exact encode_of_formatJ hop h (fun _ => rfl)
  case h_6 hop | h_7 hop | h_8 hop | h_18 hop | h_19 hop | h_20 hop | h_21 hop | h_25 hop | h_26 hop =>
    exact encode_of_formatMI hop h (fun _ _ => rfl)
  case h_22 hop | h_32 hop => exact encode_of_formatR4 hop h (fun _ _ _ _ => rfl)
  case h_9 hop | h_10 hop | h_11 hop | h_14 hop | h_15 hop | h_29 hop | h_31 hop | h_35 hop =>
    exact encode_of_formatR3 hop h (fun _ _ _ => rfl)
  case h_12 hop | h_13 hop | h_23 hop | h_30 hop => exact encode_of_formatR2 hop h (fun _ _ => rfl)
  case h_27 hop | h_28 hop => exact encode_of_formatR1 hop h (fun _ => rfl)
  case h_16 hop | h_17 hop | h_33 hop => exact encode_of_formatAB hop h (fun _ _ => rfl)
  case h_24 hop | h_34 hop => exact encode_of_formatA hop h (fun _ => rfl)
  case h_36 => cases h

/-- Settles O2: the formats read a word exactly as it was packed. -/
theorem decodedWordIsItsEncoding : Obligations.DecodedWordIsItsEncoding := fun _ _ h =>
  ⟨Machine.decode_wellFormed h, encode_of_decodeFormat (Option.filter_eq_some_iff.1 h).1⟩

end Sys2Proof
end

section
/-! The opcode map of R109: a row matches a word exactly when the word carries its opcode and the bits that the row
fixes at 0 are 0, and those are the bits that the decoder wants to be 0 (R110). -/

namespace Sys2Proof

/-! ## Masks -/

/-- The mask of the `n` bits from bit `lo`. -/
def fieldMask (lo n : Nat) : Word := (BitVec.allOnes n).setWidth 32 <<< lo

/-- Two words agree under a field's mask exactly when the field holds the same in both. -/
theorem and_fieldMask_eq_iff {lo n : Nat} (h : lo + n ≤ 32) (w p : Word) :
    w &&& fieldMask lo n = p &&& fieldMask lo n ↔ bitsAt w lo n = bitsAt p lo n := by
  constructor <;> intro heq <;> ext k hk
  · have hbit := congrArg (BitVec.getLsbD · (lo + k)) heq
    simpa [fieldMask, bitsAt, hk, show lo + k < 32 by omega] using hbit
  · have hbit := congrArg (BitVec.getLsbD · (k - lo)) heq
    by_cases hlo : k < lo
    · simp [fieldMask, hlo]
    · have hcancel : lo + (k - lo) = k := by omega
      simpa [fieldMask, bitsAt, hk, hlo, hcancel, Bool.and_comm] using hbit

theorem bitsAt_eq_zero_iff {lo n : Nat} (h : lo + n ≤ 32) (w : Word) :
    bitsAt w lo n = 0 ↔ w &&& fieldMask lo n = 0 := by
  simpa [bitsAt] using (and_fieldMask_eq_iff h w 0).symm

/-- A mask may be split in two when the pattern lies under the first part. -/
theorem and_or_eq_iff {m n p : Word} (hm : p &&& m = p) (hn : p &&& n = 0) (w : Word) :
    w &&& (m ||| n) = p ↔ w &&& m = p ∧ w &&& n = 0 := by
  constructor
  · intro h
    constructor
    · calc w &&& m = w &&& (m ||| n) &&& m := by grind
        _ = p := by rw [h, hm]
    · calc w &&& n = w &&& (m ||| n) &&& n := by grind
        _ = 0 := by rw [h, hn]
  · rintro ⟨hm', hn'⟩
    rw [BitVec.and_or_distrib_left, hm', hn']
    exact BitVec.or_zero

theorem and_or_eq_zero_iff (w m n : Word) : w &&& (m ||| n) = 0 ↔ w &&& m = 0 ∧ w &&& n = 0 :=
  and_or_eq_iff BitVec.zero_and BitVec.zero_and w

/-- Condition 4 of R110: a register field is below 8 exactly when its bit 3 is 0 (R107). -/
theorem lowReg_bitsAt_iff (w : Word) (lo : Nat) : lowReg (bitsAt w lo 4) = true ↔ bitsAt w (lo + 3) 1 = 0 := by
  have hdiv : w.toNat / 2 ^ (lo + 3) = w.toNat / 2 ^ lo / 8 := by rw [Nat.pow_add, Nat.div_div_eq_div_mul]
  rw [← BitVec.toNat_inj]
  simp only [lowReg, decide_eq_true_iff, bitsAt_toNat, hdiv, BitVec.ofNat_eq_ofNat, BitVec.toNat_ofNat]
  omega

/-! ## The rows -/

/-- The bits below the opcode that a row fixes; they are 0 in every pattern. -/
def OpcodeRow.zeroBits (r : OpcodeRow) : Word := r.mask &&& fieldMask 0 26

/-- Every mask holds all bits of the opcode, and every pattern is the row's opcode and no other bit. -/
theorem opcodeRows_layout : ∀ r ∈ opcodeRows, r.mask = fieldMask 26 6 ||| r.zeroBits ∧
    r.pattern &&& fieldMask 26 6 = r.pattern ∧ r.pattern &&& r.zeroBits = 0 ∧ opcodeField r.pattern = r.opcode := by
  decide

theorem opcodeRow_eq_of_opcode_eq : ∀ r ∈ opcodeRows, ∀ q ∈ opcodeRows, r.opcode = q.opcode → r = q := by
  decide

theorem matches_iff {r : OpcodeRow} (hr : r ∈ opcodeRows) (w : Word) :
    r.Matches w ↔ opcodeField w = r.opcode ∧ w &&& r.zeroBits = 0 := by
  obtain ⟨hmask, hpat, hzero, hop⟩ := opcodeRows_layout r hr
  rw [OpcodeRow.Matches, hmask, and_or_eq_iff hpat hzero, ← hop]
  refine and_congr_left' ?_
  calc w &&& fieldMask 26 6 = r.pattern
      ↔ w &&& fieldMask 26 6 = r.pattern &&& fieldMask 26 6 := by rw [hpat]
    _ ↔ bitsAt w 26 6 = bitsAt r.pattern 26 6 := and_fieldMask_eq_iff (by decide) w r.pattern
    _ ↔ opcodeField w = opcodeField r.pattern := BitVec.toNat_inj.symm

/-- A format answers an instruction that the filter lets through. -/
theorem isSome_filter_ite {c : Prop} [Decidable c] (i : Instr) (p : Instr → Bool) :
    (Option.filter p (if c then some i else none)).isSome = true ↔ c ∧ p i = true := by
  split <;> simp [Option.filter, *]

/-- Under a row's opcode the decoder wants exactly the row's zero bits to be 0: format by format its conditions are
that fields are 0, and the union of their masks is the row's. -/
theorem decode_isSome_iff_zeroBits {r : OpcodeRow} (hr : r ∈ opcodeRows) {w : Word} (hop : opcodeField w = r.opcode) :
    (decode w).isSome = true ↔ w &&& r.zeroBits = 0 := by
  fin_cases hr
  all_goals
    -- Conditions 1 to 3 of R110: the format of the opcode, and the fields it wants to be 0.
    simp only [decode, decodeFormat, hop, formatN, formatJ, formatMI, formatR4, formatR3, formatR2, formatR1, formatAB,
      formatA, isSome_filter_ite]
    -- Condition 4: bit 3 of every S and P field.
    simp only [Instr.wellFormed, Bool.and_eq_true, and_true, rdField, raField, rbField, rcField, lowReg_bitsAt_iff]
    -- One mask for all of them, which is the row's.
    simp only [bitsAt_eq_zero_iff, ← and_or_eq_zero_iff, Nat.reduceAdd, Nat.reduceLeDiff]
    exact Iff.rfl

theorem decode_isSome_iff_matches {r : OpcodeRow} (hr : r ∈ opcodeRows) {w : Word} (hop : opcodeField w = r.opcode) :
    (decode w).isSome = true ↔ r.Matches w := by
  rw [decode_isSome_iff_zeroBits hr hop, matches_iff hr, and_iff_right hop]

section
open Laws.OpcodeInMap

theorem opcodeInMap (i : Instr) : Statement i :=
  Instr.casesOn i nop halt jmp bcs bcc fld fst fldi fadd fsub fmul fsqr finv fsqrt fsel fcswap feq sld sldw sst sldi
    smuladd sclamp schk pld pst pident pbase padd pdbl smul dsmulv peq psmall paff

end

theorem exists_row_of_decode {w : Word} {i : Instr} (h : decode w = some i) :
    ∃ r ∈ opcodeRows, r.Matches w ∧ r.mnemonic = i.mnemonic := by
  obtain ⟨r, hr, hname, hop⟩ := opcodeInMap i
  rw [(decodedWordIsItsEncoding w i h).2] at hop
  exact ⟨r, hr, (decode_isSome_iff_matches hr hop).1 (Option.isSome_of_eq_some h), hname⟩

/-- Settles O3: the opcode picks the row, and under it the decoder's conditions are the row's mask. -/
theorem wordIsLegalExactlyWhenOneRowMatches : Obligations.WordIsLegalExactlyWhenOneRowMatches := by
  refine ⟨fun w => ⟨fun h => ?_, fun ⟨r, hr, hm⟩ => ?_⟩, fun w i h => exists_row_of_decode h, ?_⟩
  · obtain ⟨i, hi⟩ := Option.isSome_iff_exists.1 h
    obtain ⟨r, hr, hm, -⟩ := exists_row_of_decode hi
    exact ⟨r, hr, hm⟩
  · exact (decode_isSome_iff_matches hr ((matches_iff hr w).1 hm).1).2 hm
  · intro w r hr q hq hmr hmq
    have hopr := ((matches_iff hr w).1 hmr).1
    have hopq := ((matches_iff hq w).1 hmq).1
    exact opcodeRow_eq_of_opcode_eq r hr q hq (hopr.symm.trans hopq)

/-- Settles O4: the decoder evaluated on the spec's example words. -/
theorem exampleWordsDecode : Obligations.ExampleWordsDecode := by
  unfold Obligations.ExampleWordsDecode
  decide

end Sys2Proof
end

section
/-! A term that is not well formed raises ILLEGAL (R107, R234; log entry 12). -/

namespace Sys2Proof.Machine

/-- The control and field instructions have no S or P field; every other one stands under `whenLegal`. -/
theorem exec_of_ill {i : Instr} (hill : i.wellFormed = false) (s : State) : exec i s = .next (s.raise .illegal) := by
  cases i with
  | nop | halt | jmp | bcs | bcc => cases hill
  | fld | fst | fldi | fadd | fsub | fmul | fsqr | finv | fsqrt | fsel | fcswap | feq => cases hill
  | sld | sldw | sst | sldi | smuladd | sclamp | schk => exact whenLegal_of_ill hill s _
  | pld | pst | pident | pbase | padd | pdbl | smul | dsmulv | peq | psmall | paff => exact whenLegal_of_ill hill s _

/-- Settles O8: what raises ILLEGAL enters the fault. -/
theorem illFormedOperandRaisesIllegal : Obligations.IllFormedOperandRaisesIllegal := fun _ s hill =>
  ⟨_, exec_of_ill hill s, raise_entersFault s .illegal⟩

end Sys2Proof.Machine
end

section
/-! The core's turn and the sequencing instructions (40_control.md R130 to R136). -/

namespace Sys2Proof.Machine

/-! ## The core's turn -/

/-- Settles O5: both forms of the core's turn are one core cycle, which runs the decoded instruction. -/
theorem stepRunsTheDecodedInstruction : Obligations.StepRunsTheDecodedInstruction := by
  refine ⟨fun s i hr hp hd => ⟨fun hin => ?_, fun rest hin => ?_⟩, fun s hr hin => ?_⟩
  · exact (step_of_no_input hin).trans (coreCycle_decoded hr hp hd)
  · exact (step_of_coreTurn (.inr ⟨rest, hin, rfl⟩)).trans (coreCycle_decoded hr hp hd)
  · exact (step_of_no_input hin).trans (coreCycle_idle hr)

/-! ## Branches: one range check, then the next pc -/

theorem exec_jmp_withTarget (target : Half) (s : State) :
    exec (.jmp target) s = .next (withTarget s target (s.completeAt target)) := rfl

theorem exec_bcs_withTarget (target : Half) (s : State) :
    exec (.bcs target) s = .next (withTarget s target (s.completeAt (if s.cf = true then target else s.pc + 1))) := by
  rw [apply_ite s.completeAt]; rfl

theorem exec_bcc_withTarget (target : Half) (s : State) :
    exec (.bcc target) s = .next (withTarget s target (s.completeAt (if s.cf = false then target else s.pc + 1))) := by
  simp only [← Bool.not_eq_true, ite_not, apply_ite s.completeAt]; rfl

/-- Every J-format instruction stands under the range check of its target, and CF decides only the pc behind the
check (R136). -/
theorem exec_of_branchTarget {i : Instr} {target : Half} (h : i.branchTarget = some target) (s : State) :
    ∃ next : Half, exec i s = .next (withTarget s target (s.completeAt next)) := by
  cases i with
  | jmp => cases h; exact ⟨_, exec_jmp_withTarget target s⟩
  | bcs => cases h; exact ⟨_, exec_bcs_withTarget target s⟩
  | bcc => cases h; exact ⟨_, exec_bcc_withTarget target s⟩
  | _ => cases h

/-- Settles O10: the check comes before CF is read, and behind it the branch only completes. -/
theorem branchTargetIsCheckedWhateverCf : Obligations.BranchTargetIsCheckedWhateverCf := by
  intro i s target htarget
  obtain ⟨next, hexec⟩ := exec_of_branchTarget htarget s
  refine ⟨fun hout => ?_, fun hin => ?_⟩
  · rw [hexec, withTarget_outside (Nat.not_lt.2 hout)]
    exact ⟨_, rfl, raise_entersFault s .imemRange⟩
  · rw [hexec, withTarget_inside hin]
    exact ⟨_, rfl, s.completeAt_err next, s.completeAt_cause next, s.completeAt_run next⟩

/-- Settles O14: in range each branch completes at its next pc; out of range it is a case of O10. -/
theorem branchesGoToTheirTargets : Obligations.BranchesGoToTheirTargets := by
  refine fun s target => ⟨⟨rfl, rfl, rfl⟩, fun hin => ⟨?_, ?_, ?_⟩, fun hout i hi => ?_⟩
  · rw [exec_jmp_withTarget, withTarget_inside hin]; rfl
  · rw [exec_bcs_withTarget, withTarget_inside hin]; rfl
  · rw [exec_bcc_withTarget, withTarget_inside hin]; rfl
  · have htarget : i.branchTarget = some target := by
      simp only [List.mem_cons, List.not_mem_nil, or_false] at hi
      obtain rfl | rfl | rfl := hi <;> rfl
    exact (branchTargetIsCheckedWhateverCf i s target htarget).1 hout

/-! ## NOP and HALT -/

/-- Settles O12: NOP is the bare advance, whose frame is the statement. -/
theorem nopOnlyAdvances : Obligations.NopOnlyAdvances :=
  ⟨by decide, fun s => ⟨_, exec_nop s, complete_frame s⟩⟩

/-- Settles O13: HALT's next state is `State.halt`; DONE then raises the interrupt output where IRQEN lets it (R242). -/
theorem haltEndsTheRun : Obligations.HaltEndsTheRun :=
  ⟨by decide, fun s => ⟨_, exec_halt s, rfl, fun _ => rfl, fun hirq => by simp [State.irq, hirq]⟩⟩

end Sys2Proof.Machine
end

section
/-! Inverses and square roots in the field unit (41_field.md R149 to R151). -/

namespace Sys2Proof

/-! ## Inverses and quotients -/

theorem Fe.inv_val (a : Fe) : (Fe.inv a).val = a.val ^ (fieldPrime - 2) % fieldPrime := Fe.pow_val a _

theorem Fe.div_val (u v : Fe) : (Fe.div u v).val = u.val * v.val ^ (fieldPrime - 2) % fieldPrime := by
  rw [Fe.div, Fe.mul_val, Fe.inv_val, Nat.mul_mod_mod]

/-- Fermat's little theorem, for the power the field unit computes (R149). -/
theorem Fe.mul_inv_self {a : Fe} (h : a.val ≠ 0) : Fe.mul a (Fe.inv a) = Fe.ofNat 1 := by
  have := fieldPrime_fact
  refine Fe.toZ_inj.1 ?_
  rw [Fe.toZ_mul, Fe.toZ_inv, Fe.toZ_ofNat, Nat.cast_one]
  exact mul_inv_cancel₀ (mt Fe.toZ_eq_zero.1 h)

theorem Fe.inv_of_val_eq_zero {a : Fe} (h : a.val = 0) : (Fe.inv a).val = 0 := by
  rw [← Fe.toZ_eq_zero, Fe.toZ_inv, Fe.toZ_eq_zero.2 h, ZMod.inv_zero]

theorem Fe.eq_zero_iff {a : Fe} : a = Fe.ofNat 0 ↔ a.val = 0 := by
  rw [Fin.ext_iff, Fe.ofNat_val, Nat.zero_mod]

/-! ## The root of even value (R150) -/

theorem Fe.evenRoot_cases (r : Fe) : Fe.evenRoot r = r ∨ Fe.evenRoot r = Fe.neg r := by
  unfold Fe.evenRoot
  split
  · exact .inr rfl
  · exact .inl rfl

theorem Fe.sqr_evenRoot (r : Fe) : Fe.sqr (Fe.evenRoot r) = Fe.sqr r := by
  obtain h | h := r.evenRoot_cases
  · rw [h]
  · rw [h, ← Fe.toZ_inj, Fe.toZ_sqr, Fe.toZ_sqr, Fe.toZ_neg, neg_mul_neg]

/-- p is odd, so of r and p - r one is even. -/
theorem Fe.evenRoot_even (r : Fe) : (Fe.evenRoot r).val % 2 = 0 := by
  have hlt := r.isLt
  unfold Fe.evenRoot Fe.isOdd
  split
  case isTrue hodd =>
    have hodd := of_decide_eq_true hodd
    have hp : fieldPrime % 2 = 1 := by decide
    have hneg : fieldPrime - r.val < fieldPrime := by omega
    rw [Fe.neg_val, Nat.mod_eq_of_lt hneg]
    omega
  case isFalse heven =>
    have heven : ¬ r.val % 2 = 1 := by simpa using heven
    omega

/-! ## The reference datapath of R151 -/

/-- With w = r*r the first candidate w^((p+3)/8) squares to r^(p/2) * w: its exponent doubled twice is p/2 + 2. -/
theorem Fe.toZ_sqr_candidate (r : Fe) :
    Fe.toZ (Fe.sqr (Fe.pow (Fe.sqr r) ((fieldPrime + 3) / 8)))
      = Fe.toZ r ^ (fieldPrime / 2) * Fe.toZ (Fe.sqr r) := by
  have hexp : 2 * ((fieldPrime + 3) / 8) + 2 * ((fieldPrime + 3) / 8) = fieldPrime / 2 + 2 := by decide
  rw [Fe.toZ_sqr, Fe.toZ_pow, Fe.toZ_sqr, ← pow_two (Fe.toZ r), ← pow_mul, ← pow_add, hexp, pow_add]

/-- The candidate for a square w squares to w or to -w (Euler's criterion on the root). -/
theorem Fe.sqr_candidate (r : Fe) :
    Fe.sqr (Fe.pow (Fe.sqr r) ((fieldPrime + 3) / 8)) = Fe.sqr r ∨
      Fe.sqr (Fe.pow (Fe.sqr r) ((fieldPrime + 3) / 8)) = Fe.neg (Fe.sqr r) := by
  have := fieldPrime_fact
  simp only [← Fe.toZ_inj, Fe.toZ_sqr_candidate, Fe.toZ_neg]
  by_cases hr : Fe.toZ r = 0
  · exact .inl (by rw [Fe.toZ_sqr, hr, mul_zero, mul_zero])
  · obtain h | h := ZMod.pow_div_two_eq_neg_one_or_one fieldPrime hr
    · exact .inl (by rw [h, one_mul])
    · exact .inr (by rw [h, neg_one_mul])

/-- The datapath finds a root of every square. -/
theorem Fe.exists_sqrt?_of_sqr (r : Fe) : ∃ s, Fe.sqrt? (Fe.sqr r) = some s := by
  simp only [Fe.sqrt?]
  split
  · exact ⟨_, rfl⟩
  · rw [if_pos (r.sqr_candidate.resolve_left ‹_›)]
    exact ⟨_, rfl⟩

/-- What the datapath finds is a root, the correction by SQRT_M1 included. -/
theorem Fe.sqr_of_sqrt?_eq_some {w s : Fe} (h : Fe.sqrt? w = some s) : Fe.sqr s = w := by
  simp only [Fe.sqrt?] at h
  split at h
  case isTrue hroot =>
    obtain rfl := Option.some.inj h
    exact hroot
  case isFalse =>
    split at h
    case isFalse => cases h
    case isTrue hneg =>
      obtain rfl := Option.some.inj h
      have hi := congrArg Fe.toZ sqrtM1_sqr
      have hn := congrArg Fe.toZ hneg
      simp only [Fe.toZ_sqr, Fe.toZ_neg, Fe.toZ_ofNat, Nat.cast_one] at hi hn
      rw [← Fe.toZ_inj, Fe.toZ_sqr, Fe.toZ_mul, mul_mul_mul_comm, hn, hi, neg_mul_neg, mul_one]

/-! ## `sqrt_ratio` -/

theorem Fe.sqrtRatio_zero {u v : Fe} (hv : v.val = 0) :
    Fe.sqrtRatio u v = (decide (u.val = 0), Fe.ofNat 0) := by
  rw [Fe.sqrtRatio, if_pos (Fe.eq_zero_iff.2 hv)]
  simp only [Fe.eq_zero_iff]

theorem Fe.sqrtRatio_of_ne_zero {u v : Fe} (hv : v.val ≠ 0) :
    (∃ s, Fe.sqrt? (Fe.div u v) = some s ∧ Fe.sqrtRatio u v = (true, Fe.evenRoot s)) ∨
      Fe.sqrt? (Fe.div u v) = none ∧ Fe.sqrtRatio u v = (false, Fe.ofNat 0) := by
  rw [Fe.sqrtRatio, if_neg (mt Fe.eq_zero_iff.1 hv)]
  cases Fe.sqrt? (Fe.div u v) with
  | some s => exact .inl ⟨s, rfl, rfl⟩
  | none => exact .inr ⟨rfl, rfl⟩

/-- For v not 0 the flag and the root are decided by whether u/v is a square. -/
theorem Fe.sqrtRatio_of_square {u v r : Fe} (hv : v.val ≠ 0) (hr : Fe.sqr r = Fe.div u v) :
    ∃ s, Fe.sqrtRatio u v = (true, s) ∧ Fe.sqr s = Fe.div u v ∧ s.val % 2 = 0 := by
  obtain ⟨s, hs, hratio⟩ | ⟨hnone, -⟩ := Fe.sqrtRatio_of_ne_zero (u := u) hv
  · exact ⟨_, hratio, by rw [Fe.sqr_evenRoot, Fe.sqr_of_sqrt?_eq_some hs], s.evenRoot_even⟩
  · obtain ⟨s, hs⟩ := r.exists_sqrt?_of_sqr
    rw [hr, hnone] at hs
    cases hs

theorem Fe.sqrtRatio_of_nonsquare {u v : Fe} (hv : v.val ≠ 0) (hno : ∀ r : Fe, Fe.sqr r ≠ Fe.div u v) :
    Fe.sqrtRatio u v = (false, Fe.ofNat 0) := by
  obtain ⟨s, hs, -⟩ | ⟨-, hratio⟩ := Fe.sqrtRatio_of_ne_zero (u := u) hv
  · exact absurd (Fe.sqr_of_sqrt?_eq_some hs) (hno s)
  · exact hratio

/-- The root `sqrt_ratio` gives is even in every case (R150, R151). -/
theorem Fe.sqrtRatio_even (u v : Fe) : (Fe.sqrtRatio u v).2.val % 2 = 0 := by
  by_cases hv : v.val = 0
  · rw [Fe.sqrtRatio_zero hv]; rfl
  · obtain ⟨s, -, hratio⟩ | ⟨-, hratio⟩ := Fe.sqrtRatio_of_ne_zero (u := u) hv
    · rw [hratio]; exact s.evenRoot_even
    · rw [hratio]; rfl

/-- A root in the statement's terms, an integer whose square has the residue w, is a root of the field unit. -/
theorem Fe.sqr_eq_iff {r w : Fe} : Fe.sqr r = w ↔ r.val * r.val % fieldPrime = w.val := Fin.ext_iff

/-- Settles O21: the w of the statement is the quotient, and the datapath finds a root exactly when there is one. -/
theorem sqrtRatioIsTheSpecifiedFunction : Obligations.SqrtRatioIsTheSpecifiedFunction := by
  refine fun u v => ⟨Fe.sqrtRatio_zero, fun hv w hw => ?_⟩
  obtain rfl : w = Fe.div u v := Fin.ext (hw.trans (Fe.div_val u v).symm)
  simp only [← Fe.sqr_eq_iff]
  exact ⟨fun ⟨_, hr⟩ => Fe.sqrtRatio_of_square hv hr, fun hno => Fe.sqrtRatio_of_nonsquare hv (not_exists.1 hno)⟩

end Sys2Proof
end

section
/-! The field instructions (41_field.md R142 to R155): what each writes, and its frame. -/

namespace Sys2Proof.Machine

/-! ## Frames of the instructions that write two places -/

/-- An F register written first joins the list of those that may change. -/
theorem onlyWrites_of_writeF {s t : State} {a : RegField} {v : Fe} {f sc p : List RegField}
    (h : onlyWrites (s.writeF a v) t f sc p) : onlyWrites s t (a :: f) sc p := by
  obtain ⟨hF, hrest⟩ := h
  refine ⟨fun r hr => ?_, hrest⟩
  obtain ⟨hne, hmem⟩ := not_or.1 (mt List.mem_cons.2 hr)
  exact (hF r hmem).trans (s.readF_writeF_ne v hne)

/-- A value of CF set first is the value after an instruction that leaves CF alone. -/
theorem onlyWritesCf_of_setCf {s t : State} {b : Bool} {f sc p : List RegField}
    (h : onlyWrites (s.setCf b) t f sc p) : onlyWritesCf s t f sc p b := h

/-! ## Loads and stores -/

/-- Settles O15: in range the load is reduced into the register; out of range it is a case of O9. -/
theorem fieldLoadReducesAllBits : Obligations.FieldLoadReducesAllBits := by
  refine fun s d addr => ⟨rfl, fun hin => ?_, (dmemAccessIsRangeChecked _ s addr 32 rfl rfl).1⟩
  exact ⟨_, exec_fld s d addr hin, by simp [loadOperand], writeF_complete_frame s d _⟩

/-- A field element is below 2^255, so bit 7 of its byte 31 is 0 (R143). -/
theorem getLsbD_seven_topByte (a : Fe) : (BitVec.ofNat 8 (a.val / 256 ^ 31)).getLsbD 7 = false := by
  have hlt : a.val < 2 ^ 255 := a.isLt.trans (by decide)
  have hbyte : a.val / 256 ^ 31 < 2 ^ 7 := by omega
  rw [BitVec.getLsbD_ofNat, Nat.testBit_lt_two_pow hbyte, Bool.and_false]

/-- Settles O16: the stored bytes read back, and the last one is the top byte of a value below 2^255. -/
theorem fieldStoreWritesCanonicalBytes : Obligations.FieldStoreWritesCanonicalBytes := by
  refine fun s a addr => ⟨rfl, fun hin => ?_, (dmemAccessIsRangeChecked _ s addr 32 rfl rfl).1⟩
  have hlen : (toLE 32 (s.readF a).val).length = 32 := toLE_length 32 _
  have hread := memRead_memWrite_complete s addr.toNat (toLE 32 (s.readF a).val)
  have hframe := memWrite_complete_frame s addr.toNat (toLE 32 (s.readF a).val)
  rw [hlen] at hread hframe
  refine ⟨_, exec_fst s a addr hin, hread, ?_, hframe⟩
  rw [State.dmemByte_complete, storeOperand, s.dmemByte_memWrite_inside _ _ (by rw [hlen]; decide), getElem_toLE]
  exact getLsbD_seven_topByte _

/-- Settles O17: the immediate is below p, so it is its own residue. -/
theorem fieldImmediateIsZeroExtended : Obligations.FieldImmediateIsZeroExtended := by
  intro s d imm
  have hlt : imm.toNat < fieldPrime := imm.isLt.trans (by decide)
  refine ⟨rfl, _, exec_fldi s d imm, ?_, writeF_complete_frame s d _⟩
  rw [State.readF_complete, State.readF_writeF_same, fieldImm, Fe.ofNat_of_lt hlt]

/-! ## Arithmetic, inverse and root -/

/-- Settles O18: each of the four writes what the field unit computes. -/
theorem fieldArithmeticIsModular : Obligations.FieldArithmeticIsModular := by
  refine fun s d a b => ⟨⟨rfl, _, exec_fadd s d a b, ?_, writeF_complete_frame s d _⟩,
    ⟨rfl, _, exec_fsub s d a b, ?_, writeF_complete_frame s d _⟩,
    ⟨rfl, _, exec_fmul s d a b, ?_, writeF_complete_frame s d _⟩,
    ⟨rfl, _, exec_fsqr s d a, ?_, writeF_complete_frame s d _⟩⟩ <;>
    rw [State.readF_complete, State.readF_writeF_same]
  · exact Fe.add_val _ _
  · exact Fe.sub_val _ _
  · exact Fe.mul_val _ _
  · exact Fe.mul_val _ _

/-- Settles O19: FINV writes the Fermat power, which is the inverse because p is prime. -/
theorem fieldInverseIsTheFermatPower : Obligations.FieldInverseIsTheFermatPower := by
  refine fun s d a => ⟨rfl, _, exec_finv s d a, ?_⟩
  rw [State.readF_complete, State.readF_writeF_same]
  exact ⟨Fe.inv_val _, fun hne => congrArg Fin.val (Fe.mul_inv_self hne), Fe.inv_of_val_eq_zero,
    writeF_complete_frame s d _⟩

/-- Settles O20: the root goes to Fd and the flag to CF, and `sqrt_ratio` gives only even roots. -/
theorem squareRootWritesRootAndCf : Obligations.SquareRootWritesRootAndCf := by
  refine fun s d u v => ⟨rfl, _, exec_fsqrt s d u v, ?_⟩
  rw [State.readF_complete, State.readF_writeF_same]
  exact ⟨rfl, Fe.sqrtRatio_even _ _, onlyWritesCf_of_setCf (writeF_complete_frame _ d _)⟩

/-! ## Selection, exchange and comparison -/

/-- Settles O22: both sources of FCSWAP are read before either write, so a = b is no exception. -/
theorem selectAndSwapFollowCf : Obligations.SelectAndSwapFollowCf := by
  refine fun s d a b => ⟨⟨rfl, _, exec_fsel s d a b, ?_, writeF_complete_frame s d _⟩,
    rfl, _, exec_fcswap s a b, fun hcf => ?_, fun hcf => ?_⟩
  · rw [State.readF_complete, State.readF_writeF_same, selectByCf]
  · rw [if_pos hcf]
    refine ⟨?_, by simp, onlyWrites_of_writeF (writeF_complete_frame _ b _)⟩
    rw [State.readF_complete, State.readF_writeF, State.readF_writeF_same]
    split
    next hab => rw [hab]
    next => rfl
  · rw [if_neg (by simp [hcf])]
    exact complete_frame s

/-- Settles O23: registers hold canonical values, so equal values are equal registers (R140). -/
theorem fieldEqualitySetsCf : Obligations.FieldEqualitySetsCf := by
  intro s a b
  have hcf : cfOfFieldEq (s.readF a) (s.readF b) = decide ((s.readF a).val = (s.readF b).val) := by
    simp only [cfOfFieldEq, Fin.ext_iff]
  rw [← hcf]
  exact ⟨rfl, _, exec_feq s a b, setCf_complete_frame s _⟩

end Sys2Proof.Machine
end

section
/-! The scalar instructions (42_scalar.md R172 to R182): what each writes, and its frame. -/

namespace Sys2Proof

/-! ## Clamping, bit by bit -/

/-- The bits of a clamped value, as R180 lists them. -/
theorem Scalar.clamp_getLsbD (v : Scalar) {k : Nat} (hk : k < 256) : (Scalar.clamp v).getLsbD k
    = if k = 255 then false else if k = 254 then true else if k < 3 then false else v.getLsbD k := by
  have hseven : (7#256).getLsbD k = decide (k < 3) := by
    rw [BitVec.getLsbD_ofNat, decide_eq_true hk, Bool.true_and]
    exact Nat.testBit_two_pow_sub_one 3 k
  simp only [Scalar.clamp, BitVec.getLsbD_or, BitVec.getLsbD_and, BitVec.getLsbD_not, BitVec.getLsbD_twoPow, hseven]
  split_ifs with h255 h254 h3
  · simp [h255]
  · simp [h254]
  · simp [h3, Ne.symm h254]
  · simp [h3, hk, Ne.symm h255, Ne.symm h254]

/-- Only bits 253 to 3 of a value are left in its clamped form, and clamping keeps those (R180). -/
theorem Scalar.clamp_clamp (v : Scalar) : Scalar.clamp (Scalar.clamp v) = Scalar.clamp v := by
  refine BitVec.eq_of_getLsbD_eq fun k hk => ?_
  simp only [Scalar.clamp_getLsbD _ hk]
  split_ifs <;> rfl

theorem Scalar.le_clamp_toNat (v : Scalar) : 2 ^ 254 ≤ (Scalar.clamp v).toNat :=
  Nat.ge_two_pow_of_testBit (Scalar.clamp_getLsbD v (k := 254) (by decide))

theorem Scalar.clamp_toNat_lt (v : Scalar) : (Scalar.clamp v).toNat < 2 ^ 255 := by
  have hmsb : (Scalar.clamp v).msb = false := Scalar.clamp_getLsbD v (k := 255) (by decide)
  have := BitVec.msb_eq_false_iff_two_mul_lt.1 hmsb
  omega

theorem Scalar.clamp_toNat_mod_eight (v : Scalar) : (Scalar.clamp v).toNat % 8 = 0 := by
  refine Nat.eq_of_testBit_eq fun k => ?_
  rw [show 8 = 2 ^ 3 by decide, Nat.testBit_mod_two_pow, Nat.zero_testBit, Bool.and_eq_false_imp]
  intro hk
  have hk3 : k < 3 := of_decide_eq_true hk
  have hbit := Scalar.clamp_getLsbD v (k := k) (by omega)
  rwa [if_neg (by omega), if_neg (by omega), if_pos hk3] at hbit

/-! ## Multiply-add modulo L -/

theorem Scalar.mulAdd_toNat (a b c : Scalar) :
    (Scalar.mulAdd a b c).toNat = (a.toNat * b.toNat + c.toNat) % Config.groupOrder :=
  Scalar.reduce_toNat _

end Sys2Proof

namespace Sys2Proof.Machine

/-! ## Legal register fields, and the ways to complete -/

theorem lowReg_of_lt {r : RegField} (h : r.toNat < 8) : lowReg r = true := decide_eq_true h

/-- An instruction that completes with `Sd` written: what `Sd` then reads, and the frame. -/
theorem exists_of_exec_writeS {i : Instr} {s : State} {d : RegField} {v : Scalar} (hd : d.toNat < 8)
    (h : exec i s = .next (s.writeS d v).complete) :
    ∃ t, exec i s = .next t ∧ t.readS d = v ∧ onlyWrites s t [] [d] [] :=
  ⟨_, h, (State.readS_complete _ d).trans (s.readS_writeS_same d v), writeS_complete_frame s d hd v⟩

/-- The 32 bytes of a stored operand read back, and nothing else changes (R76). -/
theorem storeOperand_complete (s : State) (addr : Half) (v : Nat) :
    (storeOperand s addr v).complete.memRead addr.toNat 32 = toLE 32 v ∧
      onlyStores s (storeOperand s addr v).complete addr.toNat 32 := by
  have hread := memRead_memWrite_complete s addr.toNat (toLE 32 v)
  have hframe := memWrite_complete_frame s addr.toNat (toLE 32 v)
  rw [toLE_length] at hread hframe
  exact ⟨hread, hframe⟩

/-- A load of n bytes is below 256^n (R76). -/
theorem loadOperand_lt (s : State) (addr : Half) (n : Nat) : loadOperand s addr n < 256 ^ n := by
  have hlt := leNat_lt (s.memRead addr.toNat n)
  rwa [State.memRead_length] at hlt

theorem leNat_toLE_scalar (v : Scalar) : leNat (toLE 32 v.toNat) = v.toNat := by
  rw [leNat_toLE]
  exact Nat.mod_eq_of_lt v.isLt

theorem scalarImm_toNat (imm : Half) : (scalarImm imm).toNat = imm.toNat :=
  BitVec.toNat_setWidth_of_le (by decide)

/-! ## Multiply-add -/

/-- SMULADD on register fields below 8: `Sd` holds what the scalar unit computes (R176). -/
theorem exec_smuladd_writes (s : State) {d a b c : RegField} (hd : d.toNat < 8) (ha : a.toNat < 8) (hb : b.toNat < 8)
    (hc : c.toNat < 8) : ∃ t, exec (.smuladd d a b c) s = .next t ∧
      t.readS d = Scalar.mulAdd (s.readS a) (s.readS b) (s.readS c) ∧ onlyWrites s t [] [d] [] := by
  have hw : Instr.wellFormed (.smuladd d a b c) = true := by
    simp [Instr.wellFormed, lowReg_of_lt, hd, ha, hb, hc]
  exact exists_of_exec_writeS hd (exec_smuladd s d a b c hw)

/-- Settles O28: modulo L each operand is congruent to its residue, and so are product and sum. -/
theorem multiplyAddDependsOnResiduesOnly : Obligations.MultiplyAddDependsOnResiduesOnly := by
  intro s d a b c hd ha hb hc
  obtain ⟨t, hexec, hread, -⟩ := exec_smuladd_writes s hd ha hb hc
  refine ⟨t, hexec, ?_⟩
  rw [hread, Scalar.mulAdd_toNat]
  exact (((Nat.mod_modEq _ _).mul (Nat.mod_modEq _ _)).add (Nat.mod_modEq _ _)).symm

/-- Settles O27: the sum of the full register values is formed before the one reduction. -/
theorem scalarMultiplyAddIsModular : Obligations.ScalarMultiplyAddIsModular := by
  intro s d a b c hd ha hb hc
  obtain ⟨t, hexec, hread, hframe⟩ := exec_smuladd_writes s hd ha hb hc
  exact ⟨rfl, t, hexec, by rw [hread, Scalar.mulAdd_toNat], hframe⟩

/-! ## Clamping and the canonical test -/

/-- Settles O29: SCLAMP writes the clamped value, whose bits give its range and that clamping is idempotent. -/
theorem clampFixesTheFiveBits : Obligations.ClampFixesTheFiveBits := by
  refine ⟨fun s d a hd ha => ?_, fun v => ⟨Scalar.le_clamp_toNat v, Scalar.clamp_toNat_lt v,
    Scalar.clamp_toNat_mod_eight v, Scalar.clamp_clamp v⟩⟩
  have hw : Instr.wellFormed (.sclamp d a) = true := by simp [Instr.wellFormed, lowReg_of_lt, hd, ha]
  obtain ⟨t, hexec, hread, hframe⟩ := exists_of_exec_writeS hd (exec_sclamp s d a hw)
  exact ⟨rfl, t, hexec, fun k hk => by rw [hread, Scalar.clamp_getLsbD _ hk], hframe⟩

/-- Settles O30: SCHK sets CF to the comparison with L and completes. -/
theorem canonicalScalarTestSetsCf : Obligations.CanonicalScalarTestSetsCf := fun s a ha =>
  ⟨rfl, _, exec_schk s a (lowReg_of_lt ha), setCf_complete_frame s _⟩

/-! ## Loads, the store and the immediate -/

/-- Settles O24: 32 bytes fill the register exactly, 64 bytes are reduced; out of range is a case of O9. -/
theorem scalarLoads : Obligations.ScalarLoads := by
  intro s d addr hd
  have hw : lowReg d = true := lowReg_of_lt hd
  refine ⟨⟨rfl, rfl⟩, fun hin => ?_, fun hin => ?_,
    (dmemAccessIsRangeChecked (.sld d addr) s addr 32 hw rfl).1,
    (dmemAccessIsRangeChecked (.sldw d addr) s addr 64 hw rfl).1⟩
  · obtain ⟨t, hexec, hread, hframe⟩ := exists_of_exec_writeS hd (exec_sld s d addr hw hin)
    refine ⟨t, hexec, ?_, hframe⟩
    rw [hread, BitVec.toNat_ofNat]
    exact Nat.mod_eq_of_lt (loadOperand_lt s addr 32)
  · obtain ⟨t, hexec, hread, hframe⟩ := exists_of_exec_writeS hd (exec_sldw s d addr hw hin)
    exact ⟨t, hexec, by rw [hread, Scalar.reduce_toNat, loadOperand], hframe⟩

/-- Settles O25: 32 bytes hold all 256 bits, so the stored bytes denote the register; out of range is a case of O9. -/
theorem scalarStoreWritesAllBits : Obligations.ScalarStoreWritesAllBits := by
  intro s a addr ha
  have hw : lowReg a = true := lowReg_of_lt ha
  refine ⟨rfl, fun hin => ?_, (dmemAccessIsRangeChecked (.sst a addr) s addr 32 hw rfl).1⟩
  obtain ⟨hread, hframe⟩ := storeOperand_complete s addr (s.readS a).toNat
  exact ⟨_, exec_sst s a addr hw hin, hread, by rw [hread, leNat_toLE_scalar], hframe⟩

/-- Settles O26: the 16-bit immediate fits the register, so zero extension keeps its value. -/
theorem scalarImmediateIsZeroExtended : Obligations.ScalarImmediateIsZeroExtended := by
  intro s d imm hd
  obtain ⟨t, hexec, hread, hframe⟩ := exists_of_exec_writeS hd (exec_sldi s d imm (lowReg_of_lt hd))
  exact ⟨rfl, t, hexec, by rw [hread, scalarImm_toNat], hframe⟩

end Sys2Proof.Machine
end

section
/-! The group law of a twisted Edwards curve -x^2 + y^2 = 1 + d*x^2*y^2 over a field in which -1 is a square and d is
not (43_point.md R191, R192). A point is a pair (x, y); the law is stated without division, as a relation. -/

namespace Sys2Proof.Edwards

/-! ## The curve and its law -/

section Law
variable {K : Type} [CommRing K] (d : K) (P Q R : K × K)

/-- The curve equation. -/
def OnCurve : Prop := P.2 * P.2 - P.1 * P.1 = 1 + d * (P.1 * P.1 * (P.2 * P.2))

/-- The numerator of the sum's x. -/
def numX : K := P.1 * Q.2 + P.2 * Q.1

/-- The numerator of the sum's y. -/
def numY : K := P.2 * Q.2 + P.1 * Q.1

/-- The t of R192: the denominators are 1 + t and 1 - t. -/
def tval : K := d * (P.1 * Q.1 * (P.2 * Q.2))

/-- `R` is the sum of `P` and `Q`: its coordinates are the quotients of R192. -/
def IsSum : Prop := R.1 * (1 + tval d P Q) = numX P Q ∧ R.2 * (1 - tval d P Q) = numY P Q

end Law

section
variable {K : Type} [CommRing K] {d : K} {P Q R : K × K}

theorem IsSum.symm (h : IsSum d P Q R) : IsSum d Q P R := by
  obtain ⟨hx, hy⟩ := h
  unfold IsSum
  unfold tval numX numY at *
  exact ⟨by linear_combination hx, by linear_combination hy⟩

/-- (0, 1) is neutral. -/
theorem isSum_identity (P : K × K) : IsSum d P (0, 1) P := by
  simp [IsSum, tval, numX, numY]

/-- (-x, y) is the negation of a point of the curve. -/
theorem isSum_neg (hP : OnCurve d P) : IsSum d P (-P.1, P.2) (0, 1) := by
  unfold OnCurve at hP
  unfold IsSum tval numX numY
  exact ⟨by ring, by linear_combination -hP⟩

end

/-! ## Completeness -/

/-- What makes the law complete (R192): -1 is a square and d is not, in a field where 2 is not 0. -/
structure Complete {K : Type} [Field K] (d : K) : Prop where
  two_ne_zero : (2 : K) ≠ 0
  negOne_square : ∃ i : K, i * i = -1
  no_root : ∀ r : K, r * r ≠ d

section
variable {K : Type} [Field K] {d : K} (hd : Complete d) {P Q R U V W : K × K}
include hd

/-- A square is d times a square only when both are 0. -/
theorem Complete.eq_zero_of_sq_eq {a b : K} (h : a * a = d * (b * b)) : b = 0 := by
  by_contra hb
  refine hd.no_root (a / b) ?_
  rw [div_mul_div_comm, div_eq_iff (mul_ne_zero hb hb), h]

/-- Were t*t = 1, the two multiples i*x1 ± t*y1 would be roots of d times a square, and those squares are not both 0. -/
theorem tval_sq_ne_one (hP : OnCurve d P) (hQ : OnCurve d Q) : tval d P Q * tval d P Q ≠ 1 := by
  intro ht
  obtain ⟨i, hi⟩ := hd.negOne_square
  unfold OnCurve at hP hQ
  have hplus : P.1 * P.2 * (i * Q.1 + Q.2) = 0 := by
    refine hd.eq_zero_of_sq_eq (a := i * P.1 + tval d P Q * P.2) ?_
    unfold tval at *
    linear_combination hP - d * P.1 ^ 2 * P.2 ^ 2 * hQ + (P.2 ^ 2 - 1) * ht
      + (P.1 ^ 2 - d * P.1 ^ 2 * P.2 ^ 2 * Q.1 ^ 2) * hi
  have hminus : P.1 * P.2 * (i * Q.1 - Q.2) = 0 := by
    refine hd.eq_zero_of_sq_eq (a := i * P.1 - tval d P Q * P.2) ?_
    unfold tval at *
    linear_combination hP - d * P.1 ^ 2 * P.2 ^ 2 * hQ + (P.2 ^ 2 - 1) * ht
      + (P.1 ^ 2 - d * P.1 ^ 2 * P.2 ^ 2 * Q.1 ^ 2) * hi
  have hprod : P.1 * P.2 * Q.2 = 0 := by
    refine (mul_eq_zero.1 ?_).resolve_left hd.two_ne_zero
    linear_combination hplus - hminus
  have ht0 : tval d P Q = 0 := by
    unfold tval
    linear_combination d * Q.1 * hprod
  simp [ht0] at ht

theorem one_add_tval_ne_zero (hP : OnCurve d P) (hQ : OnCurve d Q) : 1 + tval d P Q ≠ 0 := fun h =>
  tval_sq_ne_one hd hP hQ (by linear_combination (tval d P Q - 1) * h)

theorem one_sub_tval_ne_zero (hP : OnCurve d P) (hQ : OnCurve d Q) : 1 - tval d P Q ≠ 0 := fun h =>
  tval_sq_ne_one hd hP hQ (by linear_combination (-tval d P Q - 1) * h)

/-- There is at most one sum. -/
theorem IsSum.unique (hP : OnCurve d P) (hQ : OnCurve d Q) (h : IsSum d P Q U) (h' : IsSum d P Q V) : U = V := by
  obtain ⟨hx, hy⟩ := h
  obtain ⟨hx', hy'⟩ := h'
  exact Prod.ext (mul_right_cancel₀ (one_add_tval_ne_zero hd hP hQ) (hx.trans hx'.symm))
    (mul_right_cancel₀ (one_sub_tval_ne_zero hd hP hQ) (hy.trans hy'.symm))

omit hd in
/-- The curve equation of the sum, cleared of denominators. With A = y^2 - x^2 and q = d*x^2*y^2 of each point the
numerators give the product (A1 - q1*A2)*(A2 - q2*A1), and A = 1 + q makes both factors 1 - q1*q2 = 1 - t^2. -/
theorem numerators_onCurve (hP : OnCurve d P) (hQ : OnCurve d Q) :
    (numY P Q * (1 + tval d P Q)) ^ 2 - (numX P Q * (1 - tval d P Q)) ^ 2
      = ((1 + tval d P Q) * (1 - tval d P Q)) ^ 2 + d * (numX P Q * numY P Q) ^ 2 := by
  unfold OnCurve at hP hQ
  have hleft : P.2 ^ 2 - P.1 ^ 2 - d * P.1 ^ 2 * P.2 ^ 2 * (Q.2 ^ 2 - Q.1 ^ 2) = 1 - tval d P Q ^ 2 := by
    unfold tval
    linear_combination hP - d * P.1 ^ 2 * P.2 ^ 2 * hQ
  have hright : Q.2 ^ 2 - Q.1 ^ 2 - d * Q.1 ^ 2 * Q.2 ^ 2 * (P.2 ^ 2 - P.1 ^ 2) = 1 - tval d P Q ^ 2 := by
    unfold tval
    linear_combination hQ - d * Q.1 ^ 2 * Q.2 ^ 2 * hP
  have hprod := congrArg₂ (· * ·) hleft hright
  unfold numX numY tval at *
  linear_combination hprod

theorem IsSum.onCurve (hP : OnCurve d P) (hQ : OnCurve d Q) (h : IsSum d P Q R) : OnCurve d R := by
  obtain ⟨hx, hy⟩ := h
  have hnum := numerators_onCurve hP hQ
  rw [← hx, ← hy] at hnum
  have hne := pow_ne_zero 2 (mul_ne_zero (one_add_tval_ne_zero hd hP hQ) (one_sub_tval_ne_zero hd hP hQ))
  refine mul_left_cancel₀ hne ?_
  linear_combination hnum

end

/-! ## Associativity -/

section
variable {K : Type} [CommRing K] {d : K} {P Q R U : K × K}

/-- The x numerator of (P + Q) + R over the common denominator 1 - t^2 of P + Q. -/
def numX₃ (d : K) (P Q R : K × K) : K :=
  numX P Q * (1 - tval d P Q) * R.2 + numY P Q * (1 + tval d P Q) * R.1

/-- The y numerator of (P + Q) + R over the common denominator 1 - t^2 of P + Q. -/
def numY₃ (d : K) (P Q R : K × K) : K :=
  numY P Q * (1 + tval d P Q) * R.2 + numX P Q * (1 - tval d P Q) * R.1

/-- The t of (P + Q) + R over 1 - t^2 of P + Q. -/
def tval₃ (d : K) (P Q R : K × K) : K := d * (numX P Q * numY P Q * (R.1 * R.2))

theorem IsSum.numX_scaled (h : IsSum d P Q U) :
    numX U R * ((1 + tval d P Q) * (1 - tval d P Q)) = numX₃ d P Q R := by
  obtain ⟨hx, hy⟩ := h
  unfold numX₃
  rw [← hx, ← hy, numX]
  ring

theorem IsSum.numY_scaled (h : IsSum d P Q U) :
    numY U R * ((1 + tval d P Q) * (1 - tval d P Q)) = numY₃ d P Q R := by
  obtain ⟨hx, hy⟩ := h
  unfold numY₃
  rw [← hx, ← hy, numY]
  ring

theorem IsSum.tval_scaled (h : IsSum d P Q U) :
    tval d U R * ((1 + tval d P Q) * (1 - tval d P Q)) = tval₃ d P Q R := by
  obtain ⟨hx, hy⟩ := h
  unfold tval₃
  rw [← hx, ← hy, tval]
  ring

variable (hP : OnCurve d P) (hQ : OnCurve d Q) (hR : OnCurve d R)
include hP hQ hR

/-- The x coordinates of (P + Q) + R and (Q + R) + P agree, cleared of denominators: the difference of the cross
products is a combination of the three curve equations, in which P and R play mirrored parts. -/
theorem numX₃_assoc :
    numX₃ d P Q R * ((1 + tval d Q R) * (1 - tval d Q R) + tval₃ d Q R P)
      = numX₃ d Q R P * ((1 + tval d P Q) * (1 - tval d P Q) + tval₃ d P Q R) := by
  obtain ⟨x₁, y₁⟩ := P
  obtain ⟨x₂, y₂⟩ := Q
  obtain ⟨x₃, y₃⟩ := R
  simp only [OnCurve, numX₃, tval₃, numX, numY, tval] at *
  linear_combination
    d * x₂ * x₃ * y₂ * y₃ * (x₁ * (y₂ * y₃ + x₂ * x₃) - y₁ * (x₂ * y₃ + y₂ * x₃)
      + d * x₂ * x₃ * y₂ * y₃ * (x₁ * (y₂ * y₃ + x₂ * x₃) + y₁ * (x₂ * y₃ + y₂ * x₃))) * hP
    - d * x₁ * x₂ * y₁ * y₂ * (x₃ * (y₁ * y₂ + x₁ * x₂) - y₃ * (x₁ * y₂ + y₁ * x₂)
      + d * x₁ * x₂ * y₁ * y₂ * (x₃ * (y₁ * y₂ + x₁ * x₂) + y₃ * (x₁ * y₂ + y₁ * x₂))) * hR
    + d ^ 2 * x₁ * y₁ * x₂ * y₂ * x₃ * y₃ * (x₃ * y₃ * (x₃ * (y₁ * y₂ + x₁ * x₂) - y₃ * (x₁ * y₂ + y₁ * x₂))
      - x₁ * y₁ * (x₁ * (y₂ * y₃ + x₂ * x₃) - y₁ * (x₂ * y₃ + y₂ * x₃))) * hQ

/-- The same of the y coordinates: the factors are those of x with x and y exchanged in P and R. -/
theorem numY₃_assoc :
    numY₃ d P Q R * ((1 + tval d Q R) * (1 - tval d Q R) - tval₃ d Q R P)
      = numY₃ d Q R P * ((1 + tval d P Q) * (1 - tval d P Q) - tval₃ d P Q R) := by
  obtain ⟨x₁, y₁⟩ := P
  obtain ⟨x₂, y₂⟩ := Q
  obtain ⟨x₃, y₃⟩ := R
  simp only [OnCurve, numY₃, tval₃, numX, numY, tval] at *
  linear_combination
    d * x₂ * x₃ * y₂ * y₃ * (y₁ * (y₂ * y₃ + x₂ * x₃) - x₁ * (x₂ * y₃ + y₂ * x₃)
      + d * x₂ * x₃ * y₂ * y₃ * (y₁ * (y₂ * y₃ + x₂ * x₃) + x₁ * (x₂ * y₃ + y₂ * x₃))) * hP
    - d * x₁ * x₂ * y₁ * y₂ * (y₃ * (y₁ * y₂ + x₁ * x₂) - x₃ * (x₁ * y₂ + y₁ * x₂)
      + d * x₁ * x₂ * y₁ * y₂ * (y₃ * (y₁ * y₂ + x₁ * x₂) + x₃ * (x₁ * y₂ + y₁ * x₂))) * hR
    + d ^ 2 * x₁ * y₁ * x₂ * y₂ * x₃ * y₃ * (x₃ * y₃ * (y₃ * (y₁ * y₂ + x₁ * x₂) - x₃ * (x₁ * y₂ + y₁ * x₂))
      - x₁ * y₁ * (y₁ * (y₂ * y₃ + x₂ * x₃) - x₁ * (x₂ * y₃ + y₂ * x₃))) * hQ

end

section
variable {K : Type} [Field K]

/-- A quotient a/b is also a'/b' when the fractions, scaled by k and k', have equal cross products. -/
theorem mul_eq_of_scaled {c a b a' b' k k' : K} (hb : b ≠ 0) (hk : k ≠ 0) (hk' : k' ≠ 0) (h : c * b = a)
    (hcross : a * k * (b' * k') = a' * k' * (b * k)) : c * b' = a' := by
  refine mul_left_cancel₀ (mul_ne_zero hb (mul_ne_zero hk hk')) ?_
  linear_combination hcross + k * k' * b' * h

variable {d : K} {P Q R U V W : K × K}

theorem IsSum.assoc (hd : Complete d) (hP : OnCurve d P) (hQ : OnCurve d Q) (hR : OnCurve d R)
    (hU : IsSum d P Q U) (hV : IsSum d Q R V) (hW : IsSum d U R W) : IsSum d P V W := by
  have hUc := hU.onCurve hd hP hQ
  have hk := mul_ne_zero (one_add_tval_ne_zero hd hP hQ) (one_sub_tval_ne_zero hd hP hQ)
  have hk' := mul_ne_zero (one_add_tval_ne_zero hd hQ hR) (one_sub_tval_ne_zero hd hQ hR)
  obtain ⟨hx, hy⟩ := hW
  refine IsSum.symm ⟨mul_eq_of_scaled (one_add_tval_ne_zero hd hUc hR) hk hk' hx ?_,
    mul_eq_of_scaled (one_sub_tval_ne_zero hd hUc hR) hk hk' hy ?_⟩
  · rw [one_add_mul (tval d V P), one_add_mul (tval d U R), hU.numX_scaled, hV.numX_scaled, hU.tval_scaled,
      hV.tval_scaled]
    exact numX₃_assoc hP hQ hR
  · rw [one_sub_mul (tval d V P), one_sub_mul (tval d U R), hU.numY_scaled, hV.numY_scaled, hU.tval_scaled,
      hV.tval_scaled]
    exact numY₃_assoc hP hQ hR

end

end Sys2Proof.Edwards
end

section
/-! The group law of the model's points (43_point.md R191, R192): its coordinates are those of the Edwards law over the
field of p elements, so it is total on the curve, closed, commutative and associative. -/

namespace Sys2Proof

/-! ## Points as pairs over the field of p elements -/

/-- d as an element of the field of p elements. -/
def curveDZ : ZMod fieldPrime := Fe.toZ Config.curveD

theorem Fe.toZ_curveD : Fe.toZ Config.curveD = curveDZ := rfl

/-- A quotient by a denominator that is not 0 (R192). -/
theorem Fe.toZ_div_mul {a b : Fe} (hb : Fe.toZ b ≠ 0) : Fe.toZ (Fe.div a b) * Fe.toZ b = Fe.toZ a := by
  have := fieldPrime_fact
  rw [Fe.toZ_div, inv_mul_cancel_right₀ hb]

def Point.toZ (q : Point) : ZMod fieldPrime × ZMod fieldPrime := (Fe.toZ q.x, Fe.toZ q.y)

theorem Point.toZ_inj {a b : Point} : a.toZ = b.toZ ↔ a = b := by
  obtain ⟨x, y⟩ := a
  obtain ⟨u, v⟩ := b
  simp only [Point.toZ, Prod.mk.injEq, Fe.toZ_inj, Point.mk.injEq]

theorem Point.toZ_identity : Config.identity.toZ = (0, 1) := by
  simp [Point.toZ, Config.identity, Fe.toZ]

theorem Point.toZ_neg (a : Point) : (Point.neg a).toZ = (-a.toZ.1, a.toZ.2) := by
  simp only [Point.toZ, Point.neg, Fe.toZ_neg]

theorem Point.onCurve_iff {q : Point} : q.OnCurve ↔ Edwards.OnCurve curveDZ q.toZ := by
  rw [Point.OnCurve, ← Fe.toZ_inj]
  simp only [Fe.toZ_sub, Fe.toZ_sqr, Fe.toZ_add, Fe.toZ_ofNat, Fe.toZ_mul, Nat.cast_one, Fe.toZ_curveD,
    Edwards.OnCurve, Point.toZ]

theorem identity_onCurve : Config.identity.OnCurve := by decide

theorem basePoint_onCurve : Config.basePoint.OnCurve := by decide

/-- The constants of R14 and R17 make the law complete. -/
theorem curveDZ_complete [Fact fieldPrime.Prime] : Edwards.Complete curveDZ where
  two_ne_zero := by
    have h : Fe.toZ (Fe.ofNat 2) ≠ 0 := mt Fe.toZ_eq_zero.1 (by decide)
    simpa using h
  negOne_square := by
    have h := congrArg Fe.toZ sqrtM1_sqr
    rw [Fe.toZ_sqr, Fe.toZ_neg, Fe.toZ_ofNat, Nat.cast_one] at h
    exact ⟨_, h⟩
  no_root r hr := by
    refine curveD_no_root (Fe.ofNat r.val) (Fe.toZ_inj.1 ?_)
    rw [Fe.toZ_sqr, Fe.toZ_ofNat, ZMod.natCast_zmod_val]
    exact hr

/-! ## Sums -/

/-- The t of R192 for two points. -/
def Point.tval (a b : Point) : Fe := Fe.mul Config.curveD (Fe.mul (Fe.mul a.x b.x) (Fe.mul a.y b.y))

theorem Point.toZ_tval (a b : Point) : Fe.toZ (Point.tval a b) = Edwards.tval curveDZ a.toZ b.toZ := by
  simp only [Point.tval, Fe.toZ_mul, Fe.toZ_curveD, Edwards.tval, Point.toZ]

theorem Point.toZ_one_add_tval (a b : Point) :
    Fe.toZ (Fe.add (Fe.ofNat 1) (Point.tval a b)) = 1 + Edwards.tval curveDZ a.toZ b.toZ := by
  rw [Fe.toZ_add, Fe.toZ_ofNat, Nat.cast_one, Point.toZ_tval]

theorem Point.toZ_one_sub_tval (a b : Point) :
    Fe.toZ (Fe.sub (Fe.ofNat 1) (Point.tval a b)) = 1 - Edwards.tval curveDZ a.toZ b.toZ := by
  rw [Fe.toZ_sub, Fe.toZ_ofNat, Nat.cast_one, Point.toZ_tval]

theorem Point.add_eq (a b : Point) : Point.add a b =
    { x := Fe.div (Fe.add (Fe.mul a.x b.y) (Fe.mul a.y b.x)) (Fe.add (Fe.ofNat 1) (Point.tval a b))
      y := Fe.div (Fe.add (Fe.mul a.y b.y) (Fe.mul a.x b.x)) (Fe.sub (Fe.ofNat 1) (Point.tval a b)) } := rfl

section
variable {a b c : Point} (ha : a.OnCurve) (hb : b.OnCurve)
include ha hb

theorem Point.one_add_tval_ne_zero : Fe.toZ (Fe.add (Fe.ofNat 1) (Point.tval a b)) ≠ 0 := by
  have := fieldPrime_fact
  rw [Point.toZ_one_add_tval]
  exact Edwards.one_add_tval_ne_zero curveDZ_complete (Point.onCurve_iff.1 ha) (Point.onCurve_iff.1 hb)

theorem Point.one_sub_tval_ne_zero : Fe.toZ (Fe.sub (Fe.ofNat 1) (Point.tval a b)) ≠ 0 := by
  have := fieldPrime_fact
  rw [Point.toZ_one_sub_tval]
  exact Edwards.one_sub_tval_ne_zero curveDZ_complete (Point.onCurve_iff.1 ha) (Point.onCurve_iff.1 hb)

/-- The denominators are not 0, so the model's sum is the sum of R192. -/
theorem Point.add_isSum : Edwards.IsSum curveDZ a.toZ b.toZ (Point.add a b).toZ := by
  have hx := Point.one_add_tval_ne_zero ha hb
  have hy := Point.one_sub_tval_ne_zero ha hb
  rw [Edwards.IsSum, ← Point.toZ_one_add_tval, ← Point.toZ_one_sub_tval, Point.add_eq]
  refine ⟨(Fe.toZ_div_mul hx).trans ?_, (Fe.toZ_div_mul hy).trans ?_⟩
  · simp only [Fe.toZ_add, Fe.toZ_mul, Edwards.numX, Point.toZ]
  · simp only [Fe.toZ_add, Fe.toZ_mul, Edwards.numY, Point.toZ]

theorem Point.add_eq_of_isSum (h : Edwards.IsSum curveDZ a.toZ b.toZ c.toZ) : Point.add a b = c := by
  have := fieldPrime_fact
  exact Point.toZ_inj.1
    ((Point.add_isSum ha hb).unique curveDZ_complete (Point.onCurve_iff.1 ha) (Point.onCurve_iff.1 hb) h)

theorem Point.add_onCurve : (Point.add a b).OnCurve := by
  have := fieldPrime_fact
  exact Point.onCurve_iff.2
    ((Point.add_isSum ha hb).onCurve curveDZ_complete (Point.onCurve_iff.1 ha) (Point.onCurve_iff.1 hb))

theorem Point.add_comm : Point.add a b = Point.add b a :=
  Point.add_eq_of_isSum ha hb (Point.add_isSum hb ha).symm

theorem Point.add_assoc (hc : c.OnCurve) : Point.add (Point.add a b) c = Point.add a (Point.add b c) := by
  have := fieldPrime_fact
  refine (Point.add_eq_of_isSum ha (Point.add_onCurve hb hc) ?_).symm
  exact Edwards.IsSum.assoc curveDZ_complete (Point.onCurve_iff.1 ha) (Point.onCurve_iff.1 hb) (Point.onCurve_iff.1 hc)
    (Point.add_isSum ha hb) (Point.add_isSum hb hc) (Point.add_isSum (Point.add_onCurve ha hb) hc)

end

section
variable {a : Point} (ha : a.OnCurve)
include ha

theorem Point.add_identity : Point.add a Config.identity = a := by
  refine Point.add_eq_of_isSum ha identity_onCurve ?_
  rw [Point.toZ_identity]
  exact Edwards.isSum_identity a.toZ

theorem Point.identity_add : Point.add Config.identity a = a := by
  rw [Point.add_comm identity_onCurve ha, Point.add_identity ha]

theorem Point.neg_onCurve : (Point.neg a).OnCurve := by
  have h := Point.onCurve_iff.1 ha
  rw [Point.onCurve_iff, Point.toZ_neg]
  unfold Edwards.OnCurve at *
  rw [neg_mul_neg]
  exact h

theorem Point.add_neg : Point.add a (Point.neg a) = Config.identity := by
  refine Point.add_eq_of_isSum ha (Point.neg_onCurve ha) ?_
  rw [Point.toZ_neg, Point.toZ_identity]
  exact Edwards.isSum_neg (Point.onCurve_iff.1 ha)

end

/-! ## Repeated addition -/

/-- k*Q as R195 defines it: O, and one more Q for each step. -/
def Point.times : Nat → Point → Point
  | 0, _ => Config.identity
  | k + 1, q => Point.add (Point.times k q) q

theorem Point.times_succ (k : Nat) (q : Point) : Point.times (k + 1) q = Point.add (Point.times k q) q := rfl

section
variable {q : Point} (hq : q.OnCurve)
include hq

theorem Point.times_onCurve (k : Nat) : (Point.times k q).OnCurve := by
  induction k with
  | zero => exact identity_onCurve
  | succ k ih => exact Point.add_onCurve ih hq

theorem Point.times_one : Point.times 1 q = q := Point.identity_add hq

theorem Point.times_add (j k : Nat) : Point.times (j + k) q = Point.add (Point.times j q) (Point.times k q) := by
  induction k with
  | zero => exact (Point.add_identity (Point.times_onCurve hq j)).symm
  | succ k ih =>
    have hj := Point.times_onCurve hq j
    have hk := Point.times_onCurve hq k
    calc Point.times (j + k + 1) q
        = Point.add (Point.add (Point.times j q) (Point.times k q)) q := by rw [Point.times_succ, ih]
      _ = Point.add (Point.times j q) (Point.times (k + 1) q) := Point.add_assoc hj hk hq

end

end Sys2Proof

namespace Sys2Proof.Machine

/-- A residue of naturals is an equality in the field of p elements. -/
theorem mod_fieldPrime_eq_iff (m n : Nat) :
    m % fieldPrime = n % fieldPrime ↔ (m : ZMod fieldPrime) = (n : ZMod fieldPrime) :=
  (ZMod.natCast_eq_natCast_iff' m n fieldPrime).symm

/-- Settles O37: -1 is a square and d is not, so no denominator is 0 (`Edwards.tval_sq_ne_one`). -/
theorem groupLawIsCompleteOnTheCurve : Obligations.GroupLawIsCompleteOnTheCurve := by
  intro a b ha hb t ht
  obtain rfl : t = Point.tval a b := by
    refine Fe.toZ_inj.1 ?_
    rw [Point.toZ_tval, Fe.toZ, ht, ZMod.natCast_mod]
    push_cast
    simp only [Edwards.tval, Point.toZ, curveDZ, Fe.toZ]
    ring
  obtain ⟨hx, hy⟩ := Point.add_isSum ha hb
  rw [← Point.toZ_tval] at hx hy
  refine ⟨mt Fe.toZ_eq_zero.2 (Point.one_add_tval_ne_zero ha hb),
    mt Fe.toZ_eq_zero.2 (Point.one_sub_tval_ne_zero ha hb),
    (mod_fieldPrime_eq_iff _ _).2 ?_, (mod_fieldPrime_eq_iff _ _).2 ?_, Point.add_onCurve ha hb, Point.add_identity ha,
    Point.identity_add ha, Fe.neg_val a.x, rfl, Point.add_neg ha⟩
  · push_cast
    exact hx
  · push_cast [Nat.cast_sub (Nat.le_of_lt (Point.tval a b).isLt), ZMod.natCast_self]
    rw [zero_sub, ← sub_eq_add_neg]
    exact hy

end Sys2Proof.Machine
end

section
/-! Extended coordinates (10_state.md R35, 43_point.md R193 to R195): the datapaths represent sum and double, so
doubling and adding over the bits of k is repeated addition. -/

namespace Sys2Proof.Machine

/-- The four products both datapaths end with: they represent the point whose coordinates are E/G and H/F. -/
def extProducts (E F G H : Fe) : ExtPoint := { X := Fe.mul E F, Y := Fe.mul G H, Z := Fe.mul F G, T := Fe.mul E H }

theorem extRepresents_iff {e : ExtPoint} {q : Point} : ExtRepresents e q ↔
    Fe.toZ e.Z ≠ 0 ∧ Fe.toZ e.X = q.toZ.1 * Fe.toZ e.Z ∧ Fe.toZ e.Y = q.toZ.2 * Fe.toZ e.Z ∧
      Fe.toZ e.T = q.toZ.1 * q.toZ.2 * Fe.toZ e.Z := by
  unfold ExtRepresents
  rw [Ne, Fe.eq_zero_iff, ← Fe.toZ_eq_zero]
  simp only [← Fe.toZ_inj, Fe.toZ_mul, Point.toZ]

theorem extProducts_represents {E F G H : Fe} {q : Point} (hF : Fe.toZ F ≠ 0) (hG : Fe.toZ G ≠ 0)
    (hE : Fe.toZ E = q.toZ.1 * Fe.toZ G) (hH : Fe.toZ H = q.toZ.2 * Fe.toZ F) :
    ExtRepresents (extProducts E F G H) q := by
  have := fieldPrime_fact
  rw [extRepresents_iff]
  simp only [extProducts, Fe.toZ_mul, hE, hH]
  exact ⟨mul_ne_zero hF hG, by ring, by ring, by ring⟩

/-! ## The adder and the doubler -/

section
variable {a b : Point} {e f : ExtPoint} (ha : a.OnCurve) (he : ExtRepresents e a)
include ha he

/-- The adder's E, F, G, H are the numerators and denominators of the sum, each times 2*Z1*Z2 (R193). -/
theorem extAdd_represents (hb : b.OnCurve) (hf : ExtRepresents f b) :
    ExtRepresents (ExtPoint.add e f) (Point.add a b) := by
  have := fieldPrime_fact
  obtain ⟨heZ, heX, heY, heT⟩ := extRepresents_iff.1 he
  obtain ⟨hfZ, hfX, hfY, hfT⟩ := extRepresents_iff.1 hf
  obtain ⟨hx, hy⟩ := Point.add_isSum ha hb
  have hc := Point.onCurve_iff.1 ha
  have hc' := Point.onCurve_iff.1 hb
  have hscale := mul_ne_zero curveDZ_complete.two_ne_zero (mul_ne_zero heZ hfZ)
  have hG := mul_ne_zero hscale (Edwards.one_add_tval_ne_zero curveDZ_complete hc hc')
  have hF := mul_ne_zero hscale (Edwards.one_sub_tval_ne_zero curveDZ_complete hc hc')
  unfold Edwards.tval at *
  unfold Edwards.numX at hx
  unfold Edwards.numY at hy
  refine extProducts_represents (ne_of_eq_of_ne ?_ hF) (ne_of_eq_of_ne ?_ hG) ?_ ?_
  all_goals simp only [Fe.toZ_mul, Fe.toZ_add, Fe.toZ_sub, Fe.toZ_ofNat, Nat.cast_ofNat, heX, heY, heT, hfX, hfY, hfT,
    Fe.toZ_curveD]
  · ring
  · ring
  · linear_combination -2 * Fe.toZ e.Z * Fe.toZ f.Z * hx
  · linear_combination -2 * Fe.toZ e.Z * Fe.toZ f.Z * hy

/-- The doubler's E, F, G, H are those of the sum a + a times Z^2, E and G negated; the curve equation gives y^2 - x^2
for 1 + t (R194). -/
theorem extDouble_represents : ExtRepresents (ExtPoint.double e) (Point.add a a) := by
  have := fieldPrime_fact
  obtain ⟨heZ, heX, heY, -⟩ := extRepresents_iff.1 he
  obtain ⟨hx, hy⟩ := Point.add_isSum ha ha
  have hc := Point.onCurve_iff.1 ha
  have hscale := mul_ne_zero heZ heZ
  have hG := mul_ne_zero (neg_ne_zero.2 hscale) (Edwards.one_add_tval_ne_zero curveDZ_complete hc hc)
  have hF := mul_ne_zero hscale (Edwards.one_sub_tval_ne_zero curveDZ_complete hc hc)
  unfold Edwards.OnCurve at hc
  unfold Edwards.tval at *
  unfold Edwards.numX at hx
  unfold Edwards.numY at hy
  refine extProducts_represents (ne_of_eq_of_ne ?_ hF) (ne_of_eq_of_ne ?_ hG) ?_ ?_
  all_goals simp only [Fe.toZ_mul, Fe.toZ_sqr, Fe.toZ_add, Fe.toZ_sub, Fe.toZ_ofNat, Nat.cast_ofNat, heX, heY]
  · linear_combination -Fe.toZ e.Z ^ 2 * hc
  · linear_combination -Fe.toZ e.Z ^ 2 * hc
  · linear_combination Fe.toZ e.Z ^ 2 * hx + (Point.add a a).toZ.1 * Fe.toZ e.Z ^ 2 * hc
  · linear_combination -Fe.toZ e.Z ^ 2 * hy + (Point.add a a).toZ.2 * Fe.toZ e.Z ^ 2 * hc

end

/-- Settles O39: the adder of any two representatives, the doubler of one. -/
theorem extendedDatapathsRepresentTheGroupLaw : Obligations.ExtendedDatapathsRepresentTheGroupLaw :=
  fun _ _ _ _ ha hb he hf => ⟨extAdd_represents ha he hb hf, extDouble_represents ha he⟩

/-! ## Scalar multiplication -/

theorem extOfPoint_represents (q : Point) : ExtRepresents (ExtPoint.ofPoint q) q := by
  have := fieldPrime_fact
  rw [extRepresents_iff]
  simp [ExtPoint.ofPoint, Point.toZ]

theorem ExtRepresents.toPoint {e : ExtPoint} {q : Point} (h : ExtRepresents e q) : e.toPoint = q := by
  have := fieldPrime_fact
  obtain ⟨hZ, hX, hY, -⟩ := extRepresents_iff.1 h
  rw [← Point.toZ_inj]
  simp only [Point.toZ, ExtPoint.toPoint, Fe.toZ_mul, Fe.toZ_inv] at *
  rw [hX, hY, mul_inv_cancel_right₀ hZ, mul_inv_cancel_right₀ hZ]

/-- Each bit from the top doubles what the higher bits gave, and adds Q where the bit is 1. -/
theorem mulBits_represents {q : Point} (hq : q.OnCurve) (n k : Nat) (hk : k < 2 ^ n) :
    ExtRepresents (ExtPoint.mulBits (ExtPoint.ofPoint q) n k) (Point.times k q) := by
  induction n generalizing k with
  | zero =>
    obtain rfl : k = 0 := by simpa using hk
    exact extOfPoint_represents Config.identity
  | succ n ih =>
    have hhalf := extDouble_represents (Point.times_onCurve hq (k / 2)) (ih (k / 2) (by rw [Nat.pow_succ] at hk; omega))
    rw [← Point.times_add hq] at hhalf
    unfold ExtPoint.mulBits
    split
    case isTrue hzero =>
      rw [hzero]
      exact extOfPoint_represents Config.identity
    case isFalse =>
      dsimp only
      split
      case isTrue hodd =>
        have hsum := extAdd_represents (Point.times_onCurve hq _) hhalf hq (extOfPoint_represents q)
        rwa [← Point.times_succ, show k / 2 + k / 2 + 1 = k by omega] at hsum
      case isFalse heven => rwa [show k / 2 + k / 2 = k by omega] at hhalf

end Sys2Proof.Machine

namespace Sys2Proof

/-- On the curve the model's algorithm is repeated addition (R195). -/
theorem Point.mul_eq_times {q : Point} (hq : q.OnCurve) (k : Nat) : Point.mul k q = Point.times k q :=
  (Machine.mulBits_represents hq _ k Nat.lt_log2_self).toPoint

theorem Point.mul_onCurve {q : Point} (hq : q.OnCurve) (k : Nat) : (Point.mul k q).OnCurve := by
  rw [Point.mul_eq_times hq]
  exact Point.times_onCurve hq k

end Sys2Proof

namespace Sys2Proof.Machine

/-- Settles O38: on the curve the algorithm is `Point.times`, whose equations these are. -/
theorem scalarMultipleIsRepeatedAddition : Obligations.ScalarMultipleIsRepeatedAddition := by
  refine fun q hq => ⟨Point.mul_eq_times hq 0, fun k => ?_⟩
  rw [Point.mul_eq_times hq, Point.mul_eq_times hq]
  rfl

end Sys2Proof.Machine
end

section
/-! Compression and decompression (43_point.md R196 to R200): what the bytes hold, and that decoding is the inverse of
compressing on the curve. -/

namespace Sys2Proof

/-! ## The root with a given sign -/

theorem Fe.isOdd_neg {a : Fe} (h : a.val ≠ 0) : Fe.isOdd (Fe.neg a) = !Fe.isOdd a := by
  have hlt := a.isLt
  have hp : fieldPrime % 2 = 1 := by decide
  have hneg : fieldPrime - a.val < fieldPrime := by omega
  rw [Fe.isOdd, Fe.isOdd, Fe.neg_val, Nat.mod_eq_of_lt hneg, ← decide_not, decide_eq_decide]
  omega

theorem Fe.not_isOdd_zero : ¬Fe.isOdd (Fe.ofNat 0) = true := by decide

/-- The one of r and p - r that has the sign, as decoding picks it (R198). -/
def Fe.withSign (r : Fe) (sign : Bool) : Fe := if Fe.isOdd r = sign then r else Fe.neg r

theorem Fe.sqr_withSign (r : Fe) (sign : Bool) : Fe.sqr (Fe.withSign r sign) = Fe.sqr r := by
  unfold Fe.withSign
  split
  · rfl
  · rw [← Fe.toZ_inj, Fe.toZ_sqr, Fe.toZ_sqr, Fe.toZ_neg, neg_mul_neg]

/-- Zero has no negative root; every other root has either sign. -/
theorem Fe.isOdd_withSign {r : Fe} {sign : Bool} (h : ¬(r = Fe.ofNat 0 ∧ sign = true)) :
    Fe.isOdd (Fe.withSign r sign) = sign := by
  unfold Fe.withSign
  split
  case isTrue hs => exact hs
  case isFalse hs =>
    have hflip : (!Fe.isOdd r) = sign := Bool.not_eq.2 hs
    have hr : r.val ≠ 0 := by
      intro hr
      have hr := Fe.eq_zero_iff.2 hr
      have hodd := Bool.eq_false_iff.2 Fe.not_isOdd_zero
      exact h ⟨hr, by rw [← hflip, hr, hodd, Bool.not_false]⟩
    rw [Fe.isOdd_neg hr, hflip]

theorem Fe.eq_or_eq_neg_of_sqr_eq {a b : Fe} (h : Fe.sqr a = Fe.sqr b) : a = b ∨ a = Fe.neg b := by
  have := fieldPrime_fact
  simp only [← Fe.toZ_inj, Fe.toZ_sqr, Fe.toZ_neg] at *
  exact mul_self_eq_mul_self_iff.1 h

/-- A root is the one with its own sign. -/
theorem Fe.eq_withSign {x r : Fe} (h : Fe.sqr x = Fe.sqr r) : x = Fe.withSign r (Fe.isOdd x) := by
  unfold Fe.withSign
  obtain rfl | rfl := Fe.eq_or_eq_neg_of_sqr_eq h
  · rw [if_pos rfl]
  · split
    case isFalse => rfl
    case isTrue hs =>
      have hr : r.val = 0 := by
        by_contra hr
        rw [Fe.isOdd_neg hr] at hs
        exact (Bool.eq_not_self _).1 hs
      rw [← Fe.toZ_inj, Fe.toZ_neg, Fe.toZ_eq_zero.2 hr, neg_zero]

theorem Fe.not_zero_and_isOdd {x r : Fe} (h : Fe.sqr x = Fe.sqr r) : ¬(r = Fe.ofNat 0 ∧ Fe.isOdd x = true) := by
  have := fieldPrime_fact
  rintro ⟨rfl, hodd⟩
  refine Fe.not_isOdd_zero ?_
  rw [← Fe.toZ_inj, Fe.toZ_sqr, Fe.toZ_sqr, Fe.toZ_ofNat, Nat.cast_zero, mul_zero, mul_self_eq_zero,
    Fe.toZ_eq_zero] at h
  rwa [← Fe.eq_zero_iff.2 h]

/-! ## The curve equation solved for x -/

/-- The u of R198. -/
def Point.decodeU (y : Fe) : Fe := Fe.sub (Fe.sqr y) (Fe.ofNat 1)

/-- The v of R198. -/
def Point.decodeV (y : Fe) : Fe := Fe.add (Fe.mul Config.curveD (Fe.sqr y)) (Fe.ofNat 1)

/-- d*y^2 = -1 would make d a square, as -1 is one. -/
theorem Point.decodeV_ne_zero (y : Fe) : (Point.decodeV y).val ≠ 0 := by
  have := fieldPrime_fact
  intro h
  rw [← Fe.toZ_eq_zero, Point.decodeV, Fe.toZ_add, Fe.toZ_mul, Fe.toZ_sqr, Fe.toZ_curveD, Fe.toZ_ofNat,
    Nat.cast_one] at h
  obtain ⟨i, hi⟩ := curveDZ_complete.negOne_square
  have hy : Fe.toZ y = 0 := curveDZ_complete.eq_zero_of_sq_eq (a := i) (by linear_combination hi - h)
  rw [hy, mul_zero, mul_zero, zero_add] at h
  exact one_ne_zero h

/-- A point is on the curve exactly when x^2 is the quotient that decoding takes the root of. -/
theorem Point.onCurve_iff_sqr {q : Point} :
    q.OnCurve ↔ Fe.sqr q.x = Fe.div (Point.decodeU q.y) (Point.decodeV q.y) := by
  have := fieldPrime_fact
  have hv := mt Fe.toZ_eq_zero.1 (Point.decodeV_ne_zero q.y)
  rw [Point.OnCurve, ← Fe.toZ_inj, ← Fe.toZ_inj, Fe.toZ_div, ← div_eq_mul_inv, eq_div_iff hv]
  simp only [Point.decodeU, Point.decodeV, Fe.toZ_sub, Fe.toZ_sqr, Fe.toZ_add, Fe.toZ_ofNat, Fe.toZ_mul, Nat.cast_one]
  exact ⟨fun h => by linear_combination -h, fun h => by linear_combination -h⟩

/-- The root of R198: whether y is the ordinate of a point, and the even abscissa. -/
def Point.decodeRoot (y : Fe) : Bool × Fe := Fe.sqrtRatio (Point.decodeU y) (Point.decodeV y)

theorem Point.onCurve_iff_decodeRoot {q : Point} :
    q.OnCurve ↔ (Point.decodeRoot q.y).1 = true ∧ Fe.sqr q.x = Fe.sqr (Point.decodeRoot q.y).2 := by
  rw [Point.onCurve_iff_sqr, Point.decodeRoot]
  have hv := Point.decodeV_ne_zero q.y
  constructor
  · intro hx
    obtain ⟨r, hroot, hr, -⟩ := Fe.sqrtRatio_of_square hv hx
    rw [hroot]
    exact ⟨rfl, hx.trans hr.symm⟩
  · intro ⟨hok, hx⟩
    obtain ⟨r, hr, hroot⟩ | ⟨-, hroot⟩ := Fe.sqrtRatio_of_ne_zero (u := Point.decodeU q.y) hv
    · rw [hx, hroot, Fe.sqr_evenRoot, Fe.sqr_of_sqrt?_eq_some hr]
    · rw [hroot] at hok
      cases hok

/-! ## Decoding -/

theorem Point.smallOrder_iff (q : Point) : Point.smallOrder q = true ↔ Point.mul 8 q = Config.identity :=
  decide_eq_true_iff

/-- `decompress` over the root: the checks in the order of R198. -/
theorem Point.decompress_eq (b : List Byte) (sorej : Bool) : Point.decompress b sorej =
    let y := Machine.leNat b % 2 ^ 255
    let sign := decide (Machine.leNat b / 2 ^ 255 % 2 = 1)
    let root := Point.decodeRoot (Fe.ofNat y)
    let q : Point := ⟨Fe.withSign root.2 sign, Fe.ofNat y⟩
    if fieldPrime ≤ y then none
    else if root.1 = false then none
    else if root.2 = Fe.ofNat 0 ∧ sign = true then none
    else if sorej = true ∧ Point.smallOrder q = true then none else some q := rfl

/-- What decoding accepts, for a string of any length: the points of the curve with the ordinate and the sign of the
bytes, small order apart under the policy. -/
theorem Point.decompress_eq_some_iff {b : List Byte} {sorej : Bool} {q : Point} :
    Point.decompress b sorej = some q ↔
      q.OnCurve ∧ q.y.val = Machine.leNat b % 2 ^ 255 ∧
        Fe.isOdd q.x = decide (Machine.leNat b / 2 ^ 255 % 2 = 1) ∧
        ¬(sorej = true ∧ Point.mul 8 q = Config.identity) := by
  rw [Point.decompress_eq, Point.onCurve_iff_decodeRoot, ← Point.smallOrder_iff]
  dsimp only
  constructor
  · intro h
    split_ifs at h with hy hok hzero hsmall
    obtain rfl := Option.some.inj h
    exact ⟨⟨Bool.eq_true_of_not_eq_false hok, Fe.sqr_withSign _ _⟩, Fe.ofNat_of_lt (Nat.lt_of_not_le hy),
      Fe.isOdd_withSign hzero, hsmall⟩
  · intro ⟨⟨hok, hx⟩, hy, hsign, hsmall⟩
    have hlt := q.y.isLt
    have hzero := Fe.not_zero_and_isOdd hx
    have hq : (⟨Fe.withSign (Point.decodeRoot q.y).2 (Fe.isOdd q.x), q.y⟩ : Point) = q := by rw [← Fe.eq_withSign hx]
    rw [← hy, ← hsign, Fe.ofNat_val_self, hq, if_neg (Nat.not_le.2 hlt), if_neg (by rw [hok]; decide), if_neg hzero,
      if_neg hsmall]

theorem Point.onCurve_of_decompress {b : List Byte} {sorej : Bool} {q : Point}
    (h : Point.decompress b sorej = some q) : q.OnCurve := (Point.decompress_eq_some_iff.1 h).1

end Sys2Proof

namespace Sys2Proof.Machine

/-! ## The compressed form -/

theorem val_lt_two_pow_255 (a : Fe) : a.val < 2 ^ 255 := a.isLt.trans (by decide)

theorem leNat_compress (q : Point) : leNat q.compress = q.y.val + 2 ^ 255 * (q.x.val % 2) := by
  have hy := val_lt_two_pow_255 q.y
  rw [Point.compress, leNat_toLE]
  exact Nat.mod_eq_of_lt (by omega)

/-- Bit 7 of byte 31 is bit 255 of the integer. -/
theorem getLsbD_topByte_toLE {n : Nat} {b : Byte} (h : (toLE 32 n)[31]? = some b) :
    b.getLsbD 7 = decide (n / 2 ^ 255 % 2 = 1) := by
  obtain ⟨hlen, rfl⟩ := List.getElem?_eq_some_iff.1 h
  rw [getElem_toLE, BitVec.getLsbD_ofNat, Nat.testBit_eq_decide_div_mod_eq, Nat.div_div_eq_div_mul]
  rfl

/-- Settles O33: y is below 2^255, so the sign is the one bit above it. -/
theorem compressedPointHoldsYAndSign : Obligations.CompressedPointHoldsYAndSign := by
  intro q
  have hy := val_lt_two_pow_255 q.y
  have hn := leNat_compress q
  refine ⟨compress_length q, hn, by omega, fun b hb => ?_⟩
  rw [getLsbD_topByte_toLE hb, decide_eq_decide]
  omega

/-- A string of 32 bytes is the compression of `q` exactly when it holds the ordinate and the sign of `q`. -/
theorem compress_eq_iff {q : Point} {b : List Byte} (hb : b.length = 32) : q.compress = b ↔
    q.y.val = leNat b % 2 ^ 255 ∧ Fe.isOdd q.x = decide (leNat b / 2 ^ 255 % 2 = 1) := by
  have hy := val_lt_two_pow_255 q.y
  have hlt : leNat b < 256 ^ 32 := hb ▸ leNat_lt b
  rw [Fe.isOdd, decide_eq_decide]
  constructor
  · rintro rfl
    rw [leNat_compress]
    omega
  · intro ⟨hval, hsign⟩
    have hn : q.y.val + 2 ^ 255 * (q.x.val % 2) = leNat b := by omega
    rw [Point.compress, hn, ← hb, toLE_leNat]

/-- Settles O34: for 32 bytes, the ordinate and the sign are the compression. -/
theorem decompressAcceptsExactlyCompressions : Obligations.DecompressAcceptsExactlyCompressions := by
  intro b sorej q hb
  rw [Point.decompress_eq_some_iff, compress_eq_iff hb, and_assoc]

theorem decompress_compress {q : Point} (hq : q.OnCurve) {sorej : Bool}
    (h : ¬(sorej = true ∧ Point.mul 8 q = Config.identity)) : Point.decompress q.compress sorej = some q :=
  (decompressAcceptsExactlyCompressions _ sorej q (compress_length q)).2 ⟨hq, rfl, h⟩

/-- L*B = O (R13), computed by the model. -/
theorem groupOrder_mul_basePoint : Point.mul Config.groupOrder Config.basePoint = Config.identity := by decide +kernel

/-- Settles O40: the properties of each point of the curve are those of O34, O37 and O38. -/
theorem groupLawProperties : Obligations.GroupLawProperties := by
  refine ⟨fun q hq => ⟨Point.add_identity hq, rfl, Point.mul_eq_times hq 0, ?_, decompress_compress hq (by simp),
    fun hsmall => decompress_compress hq (by simp [hsmall])⟩, groupOrder_mul_basePoint⟩
  rw [Point.mul_eq_times hq, Point.times_one hq]

/-! ## The points of small order -/

/-- Settles O42: decoding and the multiples of each of the eight points, computed by the model. -/
theorem smallOrderEncodingsFollowThePolicy : Obligations.SmallOrderEncodingsFollowThePolicy := by
  unfold Obligations.SmallOrderEncodingsFollowThePolicy
  simp only [← Option.mem_def]
  decide +kernel

end Sys2Proof.Machine
end

section
/-! Every point register stays on the curve (10_state.md R34, 43_point.md R191). -/

namespace Sys2Proof.Machine

/-! ## The operations that write a point register -/

/-- The invariant speaks of the point registers alone. -/
theorem pointsOnCurve_congr {s t : State} (ht : t.pregs = s.pregs) (h : s.PointsOnCurve) : t.PointsOnCurve := by
  intro r
  have hr := h r
  unfold State.readP at *
  simpa only [ht] using hr

theorem writeP_pointsOnCurve {s : State} (h : s.PointsOnCurve) (d : RegField) {q : Point} (hq : q.OnCurve) :
    (s.writeP d q).PointsOnCurve := by
  intro r
  obtain hr | hr := s.readP_writeP_cases d r q
  · rw [hr]
    exact hq
  · rw [hr]
    exact h r

theorem zeroize_pointsOnCurve (s : State) : s.zeroize.PointsOnCurve := by
  intro r
  rw [State.readP_zeroize]
  exact identity_onCurve

theorem resetNow_pointsOnCurve (s : State) : s.resetNow.PointsOnCurve := by
  intro r
  have hr : s.resetNow.readP r = Config.identity := by simp [State.readP, State.resetNow, State.afterReset]
  exact hr ▸ identity_onCurve

/-! ## The core's turn -/

/-- Whatever an instruction writes to a point register is on the curve: the constants, what the closed group law gives,
and what decoding accepts. -/
theorem PointSource.onCurve {s : State} {q : Point} (hq : PointSource s q) (h : s.PointsOnCurve) : q.OnCurve := by
  cases hq with
  | identity => exact identity_onCurve
  | base => exact basePoint_onCurve
  | sum a b => exact Point.add_onCurve (h a) (h b)
  | multiple k a => exact Point.mul_onCurve (h a) k
  | combination k a m =>
    exact Point.add_onCurve (Point.mul_onCurve (h a) k) (Point.mul_onCurve basePoint_onCurve m)
  | decoded b sorej q hdec => exact Point.onCurve_of_decompress hdec

theorem Effect.pointsOnCurve {s u : State} (hu : Effect s u) (h : s.PointsOnCurve) : u.PointsOnCurve := by
  cases hu with
  | point d q hq => exact writeP_pointsOnCurve h d (hq.onCurve h)
  | pointFlag d q b hq => exact pointsOnCurve_congr rfl (writeP_pointsOnCurve h d (hq.onCurve h))
  | nothing | field | fields | flag | flagField | scalar | store => exact pointsOnCurve_congr rfl h

theorem ExecResult.pointsOnCurve {i : Instr} {s t : State} (ht : ExecResult i s t) (h : s.PointsOnCurve) :
    t.PointsOnCurve := by
  cases ht with
  | fault | halt | branch => exact pointsOnCurve_congr rfl h
  | effect u hu => exact pointsOnCurve_congr rfl (hu.pointsOnCurve h)

theorem CycleResult.pointsOnCurve {s t : State} (ht : CycleResult s t) (h : s.PointsOnCurve) : t.PointsOnCurve := by
  cases ht with
  | idle | fetchFault | illegal => exact pointsOnCurve_congr rfl h
  | executed i t hr hp hd hexec => exact hexec.pointsOnCurve h

/-! ## The host's accesses -/

theorem hostRead_pointsOnCurve {s : State} (h : s.PointsOnCurve) (offset : Nat) :
    (hostRead s offset).PointsOnCurve := by
  obtain ⟨data, herr, he⟩ := hostRead_outcome s offset
  rw [he]
  exact pointsOnCurve_congr rfl h

/-- A CTRL write while IDLE changes point registers only by ZEROIZE (R46). -/
theorem ctrlWriteIdle_pointsOnCurve {s : State} (h : s.PointsOnCurve) (w : Word) :
    (s.ctrlWriteIdle w).PointsOnCurve := by
  cases hz : w.getLsbD 2 with
  | true =>
    have hzero := zeroize_pointsOnCurve (s.setRwFields w)
    cases hs : w.getLsbD 0 with
    | true => rw [ctrlWriteIdle_zeroizeStart _ hs hz]; exact pointsOnCurve_congr rfl hzero
    | false => rw [ctrlWriteIdle_zeroize _ hs hz]; exact hzero
  | false => cases hs : w.getLsbD 0 with
    | true => rw [ctrlWriteIdle_start _ hs hz]; exact pointsOnCurve_congr rfl h
    | false => rw [ctrlWriteIdle_rwOnly _ hs hz]; exact pointsOnCurve_congr rfl h

theorem ctrlWriteBusy_pointsOnCurve {s : State} (h : s.PointsOnCurve) (w : Word) :
    (s.ctrlWriteBusy w).PointsOnCurve := by
  cases ha : w.getLsbD 1 with
  | true => rw [ctrlWriteBusy_abort _ ha]; exact pointsOnCurve_congr rfl h
  | false => rw [ctrlWriteBusy_noAbort _ ha]; exact pointsOnCurve_congr rfl h

theorem WriteResult.pointsOnCurve {s t : State} (ht : WriteResult s t) (h : s.PointsOnCurve) : t.PointsOnCurve := by
  cases ht with
  | ctrlBusy w => exact ctrlWriteBusy_pointsOnCurve h w
  | ctrlIdle w => exact ctrlWriteIdle_pointsOnCurve h w
  | ignored | refused | status | pc | imem | dmem => exact pointsOnCurve_congr rfl h

/-- Settles O44: each outcome of a step keeps the invariant; taking an event from the list changes no register. -/
theorem stepKeepsPointsOnCurve : Obligations.StepKeepsPointsOnCurve := by
  intro s t h hs
  have htake : ∀ rest, State.PointsOnCurve { s with inputs := rest } := fun rest => pointsOnCurve_congr rfl h
  cases step_outcome hs with
  | core u t hu ht => exact ht.pointsOnCurve (hu.eq_inputs ▸ htake u.inputs)
  | read offset rest => exact hostRead_pointsOnCurve (htake rest) _
  | write offset w rest hin ha t ht => exact ht.pointsOnCurve (htake rest)
  | reset => exact resetNow_pointsOnCurve _

end Sys2Proof.Machine
end

section
/-! The point instructions (43_point.md R199 to R210): what each writes, and its frame. -/

namespace Sys2Proof.Machine

/-- An instruction that completes with `Pd` written: what `Pd` then reads, and the frame. -/
theorem exists_of_exec_writeP {i : Instr} {s : State} {d : RegField} {v : Point} (hd : d.toNat < 8)
    (h : exec i s = .next (s.writeP d v).complete) :
    ∃ t, exec i s = .next t ∧ t.readP d = v ∧ onlyWrites s t [] [] [d] :=
  ⟨_, h, (State.readP_complete _ d).trans (s.readP_writeP_same d v), writeP_complete_frame s d hd v⟩

/-! ## Load and store -/

/-- A point written together with CF. -/
theorem writeP_setCf_complete_frame (s : State) {d : RegField} (hd : d.toNat < 8) (v : Point) (b : Bool) :
    onlyWritesCf s ((s.writeP d v).setCf b).complete [] [] [d] b :=
  onlyWritesCf_of_setCf (writeP_complete_frame (s.setCf b) d hd v)

/-- Settles O31: what decoding gives is written with CF, or CF alone; out of range it is a case of O9. -/
theorem pointLoadWritesPointOrNothing : Obligations.PointLoadWritesPointOrNothing := by
  intro s d addr hd
  have hw : lowReg d = true := lowReg_of_lt hd
  refine ⟨rfl, fun hin => ⟨fun q hq => ?_, fun hq => ?_⟩, (dmemAccessIsRangeChecked (.pld d addr) s addr 32 hw rfl).1⟩
  · have hexec := exec_pld s d addr hw hin
    rw [hq] at hexec
    exact ⟨_, hexec, s.readP_writeP_same d q, writeP_setCf_complete_frame s hd q true⟩
  · have hexec := exec_pld s d addr hw hin
    rw [hq] at hexec
    exact ⟨_, hexec, setCf_complete_frame s false⟩

/-- Settles O32: the 32 bytes of the compressed form read back; out of range it is a case of O9. -/
theorem pointStoreWritesTheCompressedPoint : Obligations.PointStoreWritesTheCompressedPoint := by
  intro s a addr ha
  have hw : lowReg a = true := lowReg_of_lt ha
  have hread := memRead_memWrite_complete s addr.toNat (s.readP a).compress
  have hframe := memWrite_complete_frame s addr.toNat (s.readP a).compress
  rw [compress_length] at hread hframe
  exact ⟨rfl, fun hin => ⟨_, exec_pst s a addr hw hin, hread, hframe⟩,
    (dmemAccessIsRangeChecked (.pst a addr) s addr 32 hw rfl).1⟩

/-! ## Constants and the group operations -/

/-- Settles O35: the coordinates of the two constants are those of R15 and R16. -/
theorem pointConstantsAreLoaded : Obligations.PointConstantsAreLoaded := by
  intro s d hd
  have hw : lowReg d = true := lowReg_of_lt hd
  obtain ⟨t, hexec, hread, hframe⟩ := exists_of_exec_writeP hd (exec_pident s d hw)
  obtain ⟨u, hexec', hread', hframe'⟩ := exists_of_exec_writeP hd (exec_pbase s d hw)
  exact ⟨⟨rfl, t, hexec, by rw [hread]; rfl, by rw [hread]; rfl, hframe⟩,
    rfl, u, hexec', by rw [hread']; rfl, by rw [hread']; rfl, hframe'⟩

/-- Settles O36: each of the four writes what the point unit computes. -/
theorem groupInstructionsWriteTheirResult : Obligations.GroupInstructionsWriteTheirResult := by
  intro s d a b k m hd ha hb hk hm
  refine ⟨⟨rfl, exists_of_exec_writeP hd (exec_padd s d a b ?_)⟩, ⟨rfl, exists_of_exec_writeP hd (exec_pdbl s d a ?_)⟩,
    ⟨rfl, exists_of_exec_writeP hd (exec_smul s d k a ?_)⟩,
    ⟨rfl, exists_of_exec_writeP hd (exec_dsmulv s d k a m ?_)⟩⟩
  all_goals simp [Instr.wellFormed, lowReg_of_lt, hd, ha, hb, hk, hm]

/-! ## Tests and coordinates -/

/-- Settles O41: each sets CF to its test and completes. -/
theorem pointChecksSetCf : Obligations.PointChecksSetCf := by
  intro s a b ha hb
  have hw : Instr.wellFormed (.peq a b) = true := by simp [Instr.wellFormed, lowReg_of_lt, ha, hb]
  exact ⟨⟨rfl, _, exec_peq s a b hw, setCf_complete_frame s _⟩,
    rfl, _, exec_psmall s a (lowReg_of_lt ha), setCf_complete_frame s _⟩

/-- Settles O43: y is written last, so it wins where both fields name one register. -/
theorem affineCoordinatesAreWritten : Obligations.AffineCoordinatesAreWritten := by
  intro s x y a ha
  refine ⟨rfl, _, exec_paff s x y a (lowReg_of_lt ha), ?_, fun hxy => ?_,
    onlyWrites_of_writeF (writeF_complete_frame _ y _)⟩
  · rw [State.readF_complete, State.readF_writeF_same]
  · rw [State.readF_complete, State.readF_writeF_ne _ _ hxy, State.readF_writeF_same]

end Sys2Proof.Machine
end

section
/-! Faults: the order of the checks, and what a faulting instruction leaves (60_exceptions.md R232, R238, R240). -/

namespace Sys2Proof.Machine

/-! ## The order of the checks -/

/-- Only a J-format instruction has a branch target, and it has no DMEM operand: the operand checks of R238 never
compete. -/
theorem dmemOperand_eq_none_of_branchTarget {i : Instr} {target : Half} (h : i.branchTarget = some target) :
    i.dmemOperand = none := by
  cases i with
  | jmp | bcs | bcc => rfl
  | _ => cases h

/-- Settles O6: the cases of the core's cycle in order; behind the decoding the operand clauses are cases of O9 and
O10, and a decoded instruction is well formed. -/
theorem firstApplicableFaultIsReported : Obligations.FirstApplicableFaultIsReported := by
  refine ⟨fun i ⟨hoperand, hbranch⟩ => ?_, fun s u hu hr => ?_⟩
  · obtain ⟨target, htarget⟩ := Option.isSome_iff_exists.1 hbranch
    simp [dmemOperand_eq_none_of_branchTarget htarget] at hoperand
  · rw [step_of_coreTurn hu]
    refine ⟨fun hbeyond => ?_, fun hp hd => ?_, fun i hp hd => ?_⟩
    · exact ⟨_, coreCycle_beyond hr (Nat.not_lt.2 hbeyond), raiseFetch_entersFault u⟩
    · exact ⟨_, coreCycle_illegal hr hp hd, raise_entersFault u .illegal⟩
    · rw [coreCycle_decoded hr hp hd]
      exact ⟨fun addr n hop => (dmemAccessIsRangeChecked i u addr n (decode_wellFormed hd) hop).1,
        fun target htarget => (branchTargetIsCheckedWhateverCf i u target htarget).1⟩

/-! ## Completing or faulting -/

/-- Settles O7: of an instruction's outcomes, HALT, a taken branch and an effect count it and keep the fault record;
the remaining one is the fault entry. -/
theorem instructionCompletesOrFaultsPrecisely : Obligations.InstructionCompletesOrFaultsPrecisely := by
  intro i s
  obtain ⟨t, hexec, ht⟩ := exec_outcome i s
  refine ⟨t, hexec, ?_⟩
  cases ht with
  | fault c hc => exact .inr ⟨c, hc, raise_entersFault s c⟩
  | halt | branch => exact .inl ⟨rfl, rfl, rfl, rfl, rfl⟩
  | effect u hu =>
    obtain ⟨-, -, -, -, -, herr, -, hcause, hpc, hinsn, -⟩ := hu.keepsControl
    obtain ⟨-, hretired⟩ := hu.advances_complete
    exact .inl ⟨hretired, herr, hcause, hpc, hinsn⟩

end Sys2Proof.Machine
end

section
/-! Reset (70_reset_and_hazards.md R260 to R263): the values it leaves, and that they meet the invariants. -/

namespace Sys2Proof.Machine

/-! ## What the register files read -/

@[simp] theorem State.readF_afterReset (c : Params) (n : Nat) (r : RegField) :
    (State.afterReset c n).readF r = ⟨0, fieldPrime_pos⟩ := by simp [State.readF, State.afterReset]

@[simp] theorem State.readS_afterReset (c : Params) (n : Nat) (r : RegField) :
    (State.afterReset c n).readS r = 0 := by simp [State.readS, State.afterReset]

@[simp] theorem State.readP_afterReset (c : Params) (n : Nat) (r : RegField) :
    (State.afterReset c n).readP r = Config.identity := by simp [State.readP, State.afterReset]

/-! ## The reset values -/

/-- Not BUSY, no flag set and no cause: STATUS reads 0 (R52). -/
theorem afterReset_statusWord (c : Params) (n : Nat) : (State.afterReset c n).statusWord = 0 := by
  simp [State.statusWord, State.busy, State.afterReset, Cause.code]

/-- Whatever the sizes and however many resets came before; CF and the control and status fields are fixed values. -/
theorem afterReset_hasResetValues (c : Params) (n : Nat) : (State.afterReset c n).HasResetValues :=
  ⟨fun r => congrArg Fin.val (State.readF_afterReset c n r),
    fun r => congrArg BitVec.toNat (State.readS_afterReset c n r), State.readP_afterReset c n,
    rfl, rfl, rfl, rfl, rfl, afterReset_statusWord c n, rfl, rfl, rfl, rfl, rfl, rfl, rfl⟩

/-- No register shows the events still waiting, which are all that `resetNow` adds to `afterReset`. -/
theorem resetNow_hasResetValues (s : State) : s.resetNow.HasResetValues :=
  afterReset_hasResetValues s.params (s.epoch + 1)

/-- Settles O48: both resets leave `afterReset`, the one at power-on with the default sizes, the other with those of
the state it finds. -/
theorem resetGivesEveryResetValue : Obligations.ResetGivesEveryResetValue :=
  ⟨afterReset_hasResetValues Params.default 0,
    fun _ _ hin => ⟨_, step_of_input hin, resetNow_hasResetValues _, rfl⟩⟩

/-! ## The invariants -/

theorem afterReset_pointsOnCurve (c : Params) (n : Nat) : (State.afterReset c n).PointsOnCurve := by
  intro r
  rw [State.readP_afterReset]
  exact identity_onCurve

/-- Power-on leaves the run state, DONE, ERR and CAUSE that any later reset leaves. -/
theorem afterReset_statusConsistent (c : Params) (n : Nat) : (State.afterReset c n).StatusConsistent :=
  statusConsistent_congr rfl rfl rfl rfl (resetNow_statusConsistent (State.afterReset c n))

/-- Settles O47: the first three hold after every reset; the default sizes are legal. -/
theorem resetMeetsTheInvariants : Obligations.ResetMeetsTheInvariants :=
  ⟨afterReset_pointsOnCurve Params.default 0, afterReset_memoryWf Params.default 0,
    afterReset_statusConsistent Params.default 0, by decide⟩

end Sys2Proof.Machine
end
